-- ==== Sys2Proof/Word.lean ====
section
/-!
DEFINITION. The two bit-vector types of the model: the 32-bit word of the bus, of every register and of every
buffer entry (R9, R65), and the byte, the unit in which memory is listed.
-/
namespace Sys2Proof

/-- A 32-bit word; bit 0 is the least significant (R9). -/
abbrev Word := BitVec 32

/-- One byte. -/
abbrev Byte := BitVec 8

end Sys2Proof
end

