-- ==== Sys2Proof/Syntax.lean ====
section
/-!
DEFINITION. The commands of the core: one constructor per row of spec/opcode_table.json (30_encoding.md R85). The
operands of PROCESS are counts, so they are natural numbers; WellFormed says which have an encoding.
-/
namespace Sys2Proof

/-- A command of the core (R82, R85). -/
inductive Instr where
  /-- RESET, construct (R100). -/
  | reset
  /-- RELEASE, destruct (R101). -/
  | release
  /-- DEVCHG, the device sample rate changes (R115). -/
  | devchg
  /-- UPDATE, translate parameters into coefficients (R120). -/
  | update
  /-- PROCESS n, nch: run n samples into nch output channels (R160). -/
  | process (n nch : Nat)
  /-- SETP.WAVEFORM (R191). -/
  | setpWaveform
  /-- SETP.PHASE (R192). -/
  | setpPhase
  /-- SETP.RATE (R193). -/
  | setpRate
  /-- SETP.DEPTH (R194). -/
  | setpDepth
  /-- SETP.FEEDBACK (R195). -/
  | setpFeedback
  /-- SETP.DELAY (R196). -/
  | setpDelay
  /-- GETP.WAVEFORM (R197). -/
  | getpWaveform
  /-- GETP.PHASE (R198). -/
  | getpPhase
  /-- GETP.RATE (R199). -/
  | getpRate
  /-- GETP.DEPTH (R200). -/
  | getpDepth
  /-- GETP.FEEDBACK (R201). -/
  | getpFeedback
  /-- GETP.DELAY (R202). -/
  | getpDelay
  deriving DecidableEq, Repr

end Sys2Proof
end

