-- ==== Sys2Proof/WellFormed.lean ====
section
/-!
DEFINITION. Which commands have an encoding (30_encoding.md R80, R81): the sample count fits the 16-bit IMM field
and the channel count the 8-bit SEL field. Legality of the counts (MAX_BLOCK, NCH_MAX) is checked at execution, R160.
-/
namespace Sys2Proof

/-- The fields of the command fit the format of R80. -/
def Instr.encodable : Instr → Bool
  | .process n nch => decide (n < 65536) && decide (nch < 256)
  | .reset | .release | .devchg | .update => true
  | .setpWaveform | .setpPhase | .setpRate | .setpDepth | .setpFeedback | .setpDelay => true
  | .getpWaveform | .getpPhase | .getpRate | .getpDepth | .getpFeedback | .getpDelay => true

/-- A well-formed command: it has an encoding. -/
abbrev WellFormed (i : Instr) : Prop := i.encodable = true

end Sys2Proof
end

