-- ==== Sys2Proof/Decode.lean ====
section
/-!
DEFINITION. Decoding of a word written to CMD, total and with the two refusals named (30_encoding.md R86), then the
encoder, from the same table (R85), and the table reader the host asks for.
-/
namespace Sys2Proof

/-- How the core refuses a command word (R86): each is an outcome of the core (it writes STATUS.ERR), not a refusal
of the model. -/
inductive DecodeError where
  /-- A reserved or illegal word (R88). -/
  | illegalCommand
  /-- An unrecognized parameter identifier (R89). -/
  | invalidEnum
  deriving DecidableEq, Repr

/-- OP, bits 31:28 (R81). -/
def fieldOp (w : Word) : Nat := w.toNat / 2 ^ 28

/-- RSV, bits 27:24 (R81). -/
def fieldRsv (w : Word) : Nat := w.toNat / 2 ^ 24 % 2 ^ 4

/-- SEL, bits 23:16 (R81). -/
def fieldSel (w : Word) : Nat := w.toNat / 2 ^ 16 % 2 ^ 8

/-- IMM, bits 15:0 (R81). -/
def fieldImm (w : Word) : Nat := w.toNat % 2 ^ 16

/-- The SETP row a selector names (R83, R85). -/
def setpRow : Nat → Except DecodeError Instr
  | 1 => .ok .setpWaveform
  | 2 => .ok .setpPhase
  | 3 => .ok .setpRate
  | 4 => .ok .setpDepth
  | 5 => .ok .setpFeedback
  | 6 => .ok .setpDelay
  | _ => .error .invalidEnum

/-- The GETP row a selector names (R83, R85). -/
def getpRow : Nat → Except DecodeError Instr
  | 1 => .ok .getpWaveform
  | 2 => .ok .getpPhase
  | 3 => .ok .getpRate
  | 4 => .ok .getpDepth
  | 5 => .ok .getpFeedback
  | 6 => .ok .getpDelay
  | _ => .error .invalidEnum

/-- The row of R85 for the fields of a word whose RSV is 0 and whose unused fields are 0. -/
def decodeRow (op sel imm : Nat) : Except DecodeError Instr :=
  match op with
  | 1 => .ok .reset
  | 2 => .ok .release
  | 3 => .ok .devchg
  | 4 => .ok .update
  | 5 => .ok (.process imm sel)
  | 6 => setpRow sel
  | 7 => getpRow sel
  | _ => .error .illegalCommand

/-- The outcome of every word written to CMD; the first line of R86 that applies decides it. -/
def decode (w : Word) : Except DecodeError Instr :=
  if fieldOp w = 0 ∨ 8 ≤ fieldOp w ∨ fieldRsv w ≠ 0 then .error .illegalCommand
  else if fieldOp w ≤ 4 ∧ (fieldSel w ≠ 0 ∨ fieldImm w ≠ 0) then .error .illegalCommand
  else if 6 ≤ fieldOp w ∧ fieldImm w ≠ 0 then .error .illegalCommand
  else if 6 ≤ fieldOp w ∧ (fieldSel w = 0 ∨ 6 < fieldSel w) then .error .invalidEnum
  else decodeRow (fieldOp w) (fieldSel w) (fieldImm w)

/-- A word of format C with RSV = 0 (R80). -/
def formatC (op sel imm : Nat) : Word := BitVec.ofNat 32 (op * 2 ^ 28 + sel * 2 ^ 16 + imm)

/-- The command word of a command (R85). -/
def encode : Instr → Word
  | .reset => formatC 1 0 0
  | .release => formatC 2 0 0
  | .devchg => formatC 3 0 0
  | .update => formatC 4 0 0
  | .process n nch => formatC 5 nch n
  | .setpWaveform => formatC 6 1 0
  | .setpPhase => formatC 6 2 0
  | .setpRate => formatC 6 3 0
  | .setpDepth => formatC 6 4 0
  | .setpFeedback => formatC 6 5 0
  | .setpDelay => formatC 6 6 0
  | .getpWaveform => formatC 7 1 0
  | .getpPhase => formatC 7 2 0
  | .getpRate => formatC 7 3 0
  | .getpDepth => formatC 7 4 0
  | .getpFeedback => formatC 7 5 0
  | .getpDelay => formatC 7 6 0

/-- The word of a row of spec/opcode_table.json: the low `nbits` bits of `w`, the rest 0. -/
def tableWord (nbits w : Nat) : Word := BitVec.ofNat 32 (w % 2 ^ nbits)

/-- What the decoder reads from a word numbered as spec/opcode_table.json numbers it; every command is one 32-bit
word (R80), so nothing longer is one. -/
def decodeTableWord (nbits w : Nat) : Option Instr :=
  if 32 < nbits then none
  else match decode (tableWord nbits w) with
    | .ok i => some i
    | .error _ => none

end Sys2Proof
end

