-- ==== Sys2Proof/Config.lean ====
section
/-!
DEFINITION. What is fixed for one chip (00_scope.md R7): the constants of the spec, the three implementation
parameters a model may choose, and the free values, which have no body and so no value a proof could see.
-/
namespace Sys2Proof

/-- The implementation parameters of R7 that 93_implementation_defined.md leaves to the model, each legal by its
type: NCH_MAX <= 16, MAX_BLOCK <= 2048, DL_CAP a power of two <= 32768 (R61). DESIGN CHOICE that they are data
(notes/assumptions/3.md). -/
structure Params where
  /-- NCH_MAX: output channels the core can mix into. -/
  nchMax : Fin 17
  /-- MAX_BLOCK: samples of IN and of each OUT channel. -/
  maxBlock : Fin 2049
  /-- The base-two logarithm of DL_CAP. -/
  dlCapLog : Fin 16
  deriving DecidableEq, Repr

/-- DL_CAP: the largest delay-line length per channel the delay-line RAM holds (R7). -/
def Params.dlCap (p : Params) : Nat := 2 ^ p.dlCapLog.val

/-- The default parameters of R7: NCH_MAX 16, MAX_BLOCK 2048, DL_CAP 8192. -/
def Params.standard : Params := { nchMax := 16, maxBlock := 2048, dlCapLog := 13 }

namespace Config

/-- SUBBLOCK: most samples of one sub-block of PROCESS and of one LFO run (R7). -/
def subBlock : Nat := 128

/-- MAX_DELAY: the binary32 value nearest 0.016 (R7). -/
def maxDelay : Word := 0x3C83126F#32

/-- SR_MIN, the smallest accepted sample rate in Hz (R7). -/
def srMin : Nat := 8000

/-- SR_MAX, the largest accepted sample rate in Hz (R7). -/
def srMax : Nat := 192000

/-- CYCLE_MAX, the saturation value of the LFO cycle length (R7). -/
def cycleMax : Nat := 2147483648

/-- GAIN_SILENCE, the binary32 value nearest 1.0e-5 (R7). -/
def gainSilence : Word := 0x3727C5AC#32

/-- TAU_F32, the binary32 value of two pi (R7). -/
def tauF32 : Word := 0x40C90FDB#32

/-- Free value: any binary32 function, from which the sine of R145 is made by holding it to that rule's laws
(notes/assumptions/4.md). -/
opaque sinRaw : Word → Word

/-- Free value: what the byte of IN or OUT memory at a bus address holds after power-on (R102; read only by a bus
read of a word nothing has written, notes/assumptions/5.md). -/
opaque powerOnByte : Nat → Byte

/-- Free value: what roundI delivers where R12 gives it no value (a NaN, an infinity, or a result that its 32-bit
destination cannot hold); no run reaches it (notes/assumptions/8.md). -/
opaque roundOutside : Word → Word

end Config
end Sys2Proof
end

