-- ==== Sys2Proof/Machine/Binary32.lean ====
section
/-!
DEFINITION. Binary32 arithmetic (00_scope.md R11, R12) on the 32-bit encodings, in exact integers: every finite
binary32 value is a whole number of units of 2^-149, so a result is one exact fraction of units, rounded once.
What IEEE 754 says of signed zeros, infinities and NaNs is taken from that standard, which R11 names
(notes/assumptions/11.md).
-/
namespace Sys2Proof.Machine

/-- The encoding without its sign bit. -/
def fMag (x : Word) : Nat := x.toNat % 2 ^ 31

/-- The sign bit. -/
def fNeg (x : Word) : Bool := decide (2 ^ 31 ≤ x.toNat)

/-- x is a NaN. -/
def fIsNan (x : Word) : Bool := decide (0x7F800000 < fMag x)

/-- x is an infinity. -/
def fIsInf (x : Word) : Bool := decide (fMag x = 0x7F800000)

/-- x is a zero, a subnormal or a normal number. -/
def fIsFinite (x : Word) : Bool := decide (fMag x < 0x7F800000)

/-- The units of 2^-149 in the magnitude encoded by `m`: exponent field 0 is subnormal, any other has the hidden bit.
For an infinity the same formula gives 2^277, above every finite magnitude. -/
def unitsOfMag (m : Nat) : Nat :=
  if m / 2 ^ 23 = 0 then m else (m % 2 ^ 23 + 2 ^ 23) * 2 ^ (m / 2 ^ 23 - 1)

/-- The magnitude of x in units of 2^-149. -/
def fUnits (x : Word) : Nat := unitsOfMag (fMag x)

/-- The value of x in units of 2^-149. -/
def fValue (x : Word) : Int := if fNeg x then -(fUnits x : Int) else (fUnits x : Int)

/-- num / den to the nearest integer, ties to even (R11, R12). -/
def nearestEven (num den : Nat) : Nat :=
  if 2 * (num % den) < den then num / den
  else if den < 2 * (num % den) then num / den + 1
  else num / den + num / den % 2

/-- The magnitude encoding of the binary32 value nearest num / den units of 2^-149, ties to even; beyond the largest
finite value it is the infinity's. With 24 bits kept, the quantum is 2^s units, and s * 2^23 plus the rounded count of
quanta is the encoding, in the subnormal range (s = 0) too. -/
def roundMag (num den : Nat) : Nat :=
  min (((num / den).log2 - 23) * 2 ^ 23 + nearestEven num (den * 2 ^ ((num / den).log2 - 23))) 0x7F800000

/-- The word with a sign and a magnitude encoding. -/
def fPack (neg : Bool) (mag : Nat) : Word := BitVec.ofNat 32 ((if neg then 2 ^ 31 else 0) + mag)

/-- The canonical NaN (R11). -/
def nanWord : Word := 0x7FC00000#32

/-- +0.0. -/
def posZero : Word := 0#32

/-- The sum (R11). An exact zero sum is -0.0 only when both operands are negative. -/
def fadd (a b : Word) : Word :=
  if fIsNan a || fIsNan b then nanWord
  else if fIsInf a then (if fIsInf b && (fNeg a != fNeg b) then nanWord else a)
  else if fIsInf b then b
  else if fValue a + fValue b = 0 then fPack (fNeg a && fNeg b) 0
  else fPack (decide (fValue a + fValue b < 0)) (roundMag (fValue a + fValue b).natAbs 1)

/-- The negation of x: its sign bit inverted. -/
def fneg (x : Word) : Word := x ^^^ 0x80000000#32

/-- The difference (R11): the sum with the negated subtrahend. -/
def fsub (a b : Word) : Word := fadd a (fneg b)

/-- The product (R11). Zero times an infinity is a NaN. -/
def fmul (a b : Word) : Word :=
  if fIsNan a || fIsNan b then nanWord
  else if fIsInf a || fIsInf b then
    (if decide (fMag a = 0) || decide (fMag b = 0) then nanWord else fPack (fNeg a != fNeg b) 0x7F800000)
  else fPack (fNeg a != fNeg b) (roundMag (fUnits a * fUnits b) (2 ^ 149))

/-- The quotient (R11). 0/0 and inf/inf are NaNs; a nonzero value over zero is an infinity. -/
def fdiv (a b : Word) : Word :=
  if fIsNan a || fIsNan b then nanWord
  else if fIsInf a then (if fIsInf b then nanWord else fPack (fNeg a != fNeg b) 0x7F800000)
  else if fIsInf b then fPack (fNeg a != fNeg b) 0
  else if fMag b = 0 then (if fMag a = 0 then nanWord else fPack (fNeg a != fNeg b) 0x7F800000)
  else fPack (fNeg a != fNeg b) (roundMag (fUnits a * 2 ^ 149) (fUnits b))

/-- x with its sign bit cleared (R11). -/
def fabs (x : Word) : Word := BitVec.ofNat 32 (fMag x)

/-- IEEE ordered `a <= b` (R11): false when either is a NaN; -0.0 equals +0.0. -/
def fle (a b : Word) : Bool := !fIsNan a && !fIsNan b && decide (fValue a ≤ fValue b)

/-- IEEE ordered `a < b` (R11). -/
def flt (a b : Word) : Bool := !fIsNan a && !fIsNan b && decide (fValue a < fValue b)

/-- The binary32 value nearest the fraction num / den, with a sign: f32 of R11 on a rational. -/
def f32OfRatio (neg : Bool) (num den : Nat) : Word := fPack neg (roundMag (num * 2 ^ 149) den)

/-- u2f (R11): a u32 to binary32; zero gives +0.0. -/
def u2f (n : Word) : Word := if n = 0#32 then posZero else f32OfRatio false n.toNat 1

/-- i2f (R11): an s32 to binary32; zero gives +0.0. -/
def i2f (n : Word) : Word :=
  if n = 0#32 then posZero else f32OfRatio (decide (n.toInt < 0)) n.toInt.natAbs 1

/-- roundI of a finite value as an integer (R12): nearest, ties to even. -/
def roundInt (x : Word) : Int :=
  if fNeg x then -(nearestEven (fUnits x) (2 ^ 149) : Int) else (nearestEven (fUnits x) (2 ^ 149) : Int)

/-- roundI has a value that lies in [lo, hi) (R12). -/
def roundsWithin (lo hi : Int) (x : Word) : Bool :=
  fIsFinite x && decide (lo ≤ roundInt x) && decide (roundInt x < hi)

/-- roundI into an s32 (R12); where that has no value, the free value `Config.roundOutside`. -/
def roundS32 (x : Word) : Word :=
  if roundsWithin (-2147483648) 2147483648 x then BitVec.ofInt 32 (roundInt x) else Config.roundOutside x

/-- roundI into a u32 (R12); where that has no value, the free value `Config.roundOutside`. -/
def roundU32 (x : Word) : Word :=
  if roundsWithin 0 4294967296 x then BitVec.ofInt 32 (roundInt x) else Config.roundOutside x

/-- floorI of a finite value >= 0 (R12). -/
def floorI (x : Word) : Nat := fUnits x / 2 ^ 149

end Sys2Proof.Machine
end

