-- ==== Sys2Proof/Machine/State.lean ====
section
/-!
DEFINITION. The state of the core, as plain data: every register of 10_state.md, the buffers as a list of bytes, the
implementation parameters, and what the host has still to do and has read. INVENTORY.md lists each field's rule.
-/
namespace Sys2Proof.Machine

/-- The codes of STATUS.ERR (R211); codes 6 to 15 are never written (R24), so they are no values of this type. -/
inductive ErrCode where
  /-- 0: the command completed. -/
  | ok
  /-- 1: a value outside its legal set (R213). -/
  | invalidValue
  /-- 2: an unrecognized parameter identifier (R214). -/
  | invalidEnum
  /-- 3: the delay-line RAM is too small (R215). -/
  | allocFail
  /-- 4: the core is not configured or not updated (R216). -/
  | notReady
  /-- 5: a word the core does not know (R217). -/
  | illegalCommand
  deriving DecidableEq, Repr

/-- STATUS by its fields (R23); the reserved bits hold nothing and read 0 (notes/assumptions/12.md). -/
structure Status where
  /-- Bits 3:0, the result of the most recent command (R24). -/
  err : ErrCode
  /-- Bit 8, CONFIGURED (R25). -/
  configured : Bool
  /-- Bit 9, UPDATED (R26). -/
  updated : Bool
  /-- Bit 10, CFG_FAILED (R27). -/
  cfgFailed : Bool
  deriving DecidableEq, Repr

/-- The bytes of IN, OUT and the DL RAM by bus address, in rising order of address, none of them equal to what an
unlisted address reads as (notes/assumptions/7.md). -/
abbrev Memory := List Host.Cell

/-- The width of a bus access; only 32-bit accesses are defined (R66). -/
inductive Width where
  /-- 8 bits. -/
  | byte
  /-- 16 bits. -/
  | half
  /-- 32 bits. -/
  | word
  deriving DecidableEq, Repr

/-- One access the host makes on the bus (R17, R90 `rd` and `wr`). -/
inductive BusAccess where
  /-- A read at a byte address. -/
  | read (width : Width) (addr : Nat)
  /-- A write of a word at a byte address. -/
  | write (width : Width) (addr : Nat) (data : Word)
  deriving DecidableEq, Repr

/-- Why the machine stops. An error code of R211 is no fault (R229). -/
inductive Fault where
  /-- A bus access of 8 or 16 bits: the host has no step (R66). Raised by the bus; safe. -/
  | busWidth
  /-- A bus access at an address that is no multiple of 4: the host has no step (R66). Raised by the bus; safe. -/
  | busMisaligned
  /-- A bus access at or above 0x80000, which the core does not decode (R60, R66). Raised by the bus; safe. -/
  | busOutside
  /-- PROCESS reads IN[i], which no host write has set since power-on (R102, R229). Raised by PROCESS; safe. -/
  | unwrittenIn (i : Nat)
  /-- PROCESS accumulates into OUT[c][i], which no host write has set since power-on (R102, R229). Raised by PROCESS;
  safe. -/
  | unwrittenOut (c i : Nat)
  /-- An access to DL[k] with k past the RAM (R46); no run reaches it (R110, R117). Raised by PROCESS; safe. -/
  | noDlWord (k : Nat)
  deriving DecidableEq, Repr

/-- Why a command has no meaning. Every command of the table has one, and a reserved word has a defined outcome
(R88), so nothing raises this. -/
inductive Refusal where
  /-- A command not modelled yet; no arm of exec answers it. Safe. -/
  | notModelled (mnemonic : String)
  deriving DecidableEq, Repr

/-- The whole state of one instance of the core and of its host's bus traffic. -/
structure State where
  /-- NCH_MAX, MAX_BLOCK, DL_CAP (R7). -/
  params : Params
  /-- ARG (R22). -/
  arg : Word
  /-- STATUS (R23). -/
  status : Status
  /-- P_WAVEFORM (R28). -/
  pWaveform : Word
  /-- P_PHASE (R29). -/
  pPhase : Word
  /-- P_RATE (R30). -/
  pRate : Word
  /-- P_DEPTH (R31). -/
  pDepth : Word
  /-- P_FEEDBACK (R32). -/
  pFeedback : Word
  /-- P_DELAY (R33). -/
  pDelay : Word
  /-- SRATE (R34). -/
  srate : Word
  /-- DL_LEN (R35). -/
  dlLen : Word
  /-- CURSOR (R36). -/
  cursor : Word
  /-- BASE_DELAY (R37). -/
  baseDelay : Word
  /-- DEPTH_S (R38). -/
  depthS : Word
  /-- FEEDBACK_RT (R39). -/
  feedbackRt : Word
  /-- CYCLE_LEN (R40). -/
  cycleLen : Word
  /-- LFO_SCALE (R41). -/
  lfoScale : Word
  /-- PHASE_OFF (R42). -/
  phaseOff : Word
  /-- WAVE_RT (R43). -/
  waveRt : Word
  /-- GAIN_IN[0], the source at -90 degrees (R44). -/
  gainIn0 : Vector Word 16
  /-- GAIN_IN[1], the source at +90 degrees (R44). -/
  gainIn1 : Vector Word 16
  /-- GAIN_RT[0] (R45). -/
  gainRt0 : Vector Word 16
  /-- GAIN_RT[1] (R45). -/
  gainRt1 : Vector Word 16
  /-- IN, OUT and DL (R46-R48). -/
  mem : Memory
  /-- The accesses the host has still to perform, oldest first (R17, R252; notes/assumptions/1.md). -/
  host : List BusAccess
  /-- The words the host's reads have returned, newest first (R90; notes/assumptions/2.md). -/
  readLog : List Word
  deriving DecidableEq, Repr

/-- A gain vector of +0.0 in every entry (R44, R45). -/
def silentGains : Vector Word 16 := Vector.replicate 16 0#32

/-- The state after power-on: the register values of R51, no buffer byte written, no host access yet. -/
def State.reset : State :=
  { params := Params.standard
    arg := 0#32
    status := { err := .ok, configured := false, updated := false, cfgFailed := false }
    pWaveform := 1#32
    pPhase := 0#32
    pRate := 0x3F8CCCCD#32
    pDepth := 0x3DCCCCCD#32
    pFeedback := 0x3E800000#32
    pDelay := 0x3C83126F#32
    srate := 0#32
    dlLen := 0#32
    cursor := 0#32
    baseDelay := 0#32
    depthS := 0#32
    feedbackRt := 0#32
    cycleLen := 1#32
    lfoScale := 0#32
    phaseOff := 0#32
    waveRt := 1#32
    gainIn0 := silentGains
    gainIn1 := silentGains
    gainRt0 := silentGains
    gainRt1 := silentGains
    mem := []
    host := []
    readLog := [] }

end Sys2Proof.Machine
end

