-- ==== Sys2Proof/Machine/Flags.lean ====
section
/-!
DEFINITION. STATUS: how it reads as a word (10_state.md R23, R24) and what each command writes into it
(R25-R27, 60_exceptions.md R210).
-/
namespace Sys2Proof.Machine

/-- The number of an error code (R211). -/
def errNumber : ErrCode → Nat
  | .ok => 0
  | .invalidValue => 1
  | .invalidEnum => 2
  | .allocFail => 3
  | .notReady => 4
  | .illegalCommand => 5

/-- STATUS as the word a host read returns (R23): the reserved bits are 0. -/
def statusWord (st : Status) : Word :=
  BitVec.ofNat 32 (errNumber st.err + (if st.configured then 2 ^ 8 else 0)
    + (if st.updated then 2 ^ 9 else 0) + (if st.cfgFailed then 2 ^ 10 else 0))

/-- `ERR <- code`, the three flags kept (R210). -/
def setErr (code : ErrCode) (st : Status) : Status := { st with err := code }

/-- STATUS after RESET and after RELEASE: the three flags and ERR 0 (R100, R101). -/
def clearedStatus : Status := { err := .ok, configured := false, updated := false, cfgFailed := false }

/-- STATUS after a DEVCHG that succeeds (R115). -/
def configuredStatus : Status := { err := .ok, configured := true, updated := false, cfgFailed := false }

/-- STATUS after a DEVCHG that fails with a code (R116). -/
def failedStatus (code : ErrCode) : Status := { err := code, configured := false, updated := false, cfgFailed := true }

/-- STATUS after an UPDATE that succeeds (R130): CONFIGURED and CFG_FAILED kept. -/
def updatedStatus (st : Status) : Status := { st with err := .ok, updated := true }

end Sys2Proof.Machine
end

