-- ==== Sys2Proof/Machine/Ops.lean ====
section
/-!
DEFINITION. The named operations over the buffers and the registers: bytes and words of memory (20_memory.md R65),
where a buffer word stands (R62-R64), the core's own accesses (R69), completing a command and raising an error
(60_exceptions.md R210, R212). Errors are the only exceptional event of the core: there is no trap entry, no handler
and no return (R221), so `raise` is the whole of taking one.
-/
namespace Sys2Proof.Machine

/-! ### Bytes -/

/-- The first byte address of IN (R62). -/
def inBase : Nat := 0x1000

/-- The first byte address of OUT (R63). -/
def outBase : Nat := 0x4000

/-- The first byte address of the DL window (R64). -/
def dlBase : Nat := 0x40000

/-- The first byte address past the bus window (R60). -/
def busEnd : Nat := 0x80000

/-- What an unlisted address reads as: nothing in IN and OUT, whose words are unspecified until written (R102); 0x00
in the DL RAM (notes/assumptions/6.md). -/
def unlisted (a : Nat) : Option Byte := if dlBase ≤ a ∧ a < busEnd then some 0#8 else none

/-- The byte a memory holds at an address, if it holds one. -/
def byteAt : Memory → Nat → Option Byte
  | [], a => unlisted a
  | (a', b) :: m, a => if a = a' then some b else byteAt m a

/-- Store a byte, keeping the canonical form: storing what an unlisted address reads as removes the entry. -/
def putByte (a : Nat) (b : Byte) : Memory → Memory
  | [] => if unlisted a = some b then [] else [(a, b)]
  | (a', b') :: m =>
    if a < a' then (if unlisted a = some b then (a', b') :: m else (a, b) :: (a', b') :: m)
    else if a = a' then (if unlisted a = some b then m else (a, b) :: m)
    else (a', b') :: putByte a b m

/-- Forget every listed byte in [lo, hi), so that each reads as an unlisted address does. -/
def forgetRange (lo hi : Nat) (m : Memory) : Memory := m.filter fun c => !(decide (lo ≤ c.1) && decide (c.1 < hi))

/-- Every address rises, and no entry equals what an unlisted address reads as. -/
def memoryWf : Memory → Bool
  | [] => true
  | (a, b) :: m => m.all (fun c => decide (a < c.1)) && decide (unlisted a ≠ some b) && memoryWf m

/-! ### Words -/

/-- Byte i of a word: byte 0 is bits 7:0 (R65). -/
def byteOf (w : Word) (i : Nat) : Byte := w.extractLsb' (8 * i) 8

/-- The word whose bytes, lowest address first, are these (R65). -/
def wordOf (b0 b1 b2 b3 : Byte) : Word := b3 ++ b2 ++ b1 ++ b0

/-- The word at a byte address, if all its bytes are held. -/
def wordAt (m : Memory) (a : Nat) : Option Word :=
  match byteAt m a, byteAt m (a + 1), byteAt m (a + 2), byteAt m (a + 3) with
  | some b0, some b1, some b2, some b3 => some (wordOf b0 b1 b2 b3)
  | _, _, _, _ => none

/-- Store a word at a byte address. -/
def putWord (a : Nat) (w : Word) (m : Memory) : Memory :=
  putByte (a + 3) (byteOf w 3) (putByte (a + 2) (byteOf w 2) (putByte (a + 1) (byteOf w 1) (putByte a (byteOf w 0) m)))

/-- The byte a host read of an IN or OUT word sees: the one held, else whatever the RAM powered on with (R102). -/
def visibleByte (m : Memory) (a : Nat) : Byte := (byteAt m a).getD (Config.powerOnByte a)

/-- The word a host read of an IN or OUT word returns (R62, R63). -/
def visibleWord (m : Memory) (a : Nat) : Word :=
  wordOf (visibleByte m a) (visibleByte m (a + 1)) (visibleByte m (a + 2)) (visibleByte m (a + 3))

/-! ### Buffer words -/

/-- Where IN[i] stands (R62). -/
def inAddr (i : Nat) : Nat := inBase + 4 * i

/-- Where OUT[c][i] stands (R63). -/
def outAddr (c i : Nat) : Nat := outBase + 0x2000 * c + 4 * i

/-- Where DL[k] stands (R64). -/
def dlAddr (k : Nat) : Nat := dlBase + 4 * k

/-- The core reads IN[i]; a word no host write has set is a fault that names it (R102). -/
def readIn (m : Memory) (i : Nat) : Except Fault Word :=
  match wordAt m (inAddr i) with
  | some w => .ok w
  | none => .error (.unwrittenIn i)

/-- The core reads OUT[c][i] to accumulate into it; a word no host write has set is a fault that names it (R102). -/
def readOut (m : Memory) (c i : Nat) : Except Fault Word :=
  match wordAt m (outAddr c i) with
  | some w => .ok w
  | none => .error (.unwrittenOut c i)

/-- The core writes OUT[c][i] (R167). -/
def writeOut (c i : Nat) (w : Word) (m : Memory) : Memory := putWord (outAddr c i) w m

/-- The core reads DL[k], k below 2*DL_CAP (R46). -/
def readDl (p : Params) (m : Memory) (k : Nat) : Except Fault Word :=
  if k < 2 * p.dlCap then
    match wordAt m (dlAddr k) with
    | some w => .ok w
    | none => .error (.noDlWord k)
  else .error (.noDlWord k)

/-- The core writes DL[k], k below 2*DL_CAP (R46). -/
def writeDl (p : Params) (k : Nat) (w : Word) (m : Memory) : Except Fault Memory :=
  if k < 2 * p.dlCap then .ok (putWord (dlAddr k) w m) else .error (.noDlWord k)

/-- DL[k] <- +0.0 for every k in [0, count) (R113, R114). -/
def clearDl (count : Nat) (m : Memory) : Memory := forgetRange dlBase (dlBase + 4 * count) m

/-! ### Completing a command and raising an error -/

/-- The command completes: `ERR <- OK` (R210). -/
def succeed (s : State) : State := { s with status := setErr .ok s.status }

/-- `raise E` (R212): the command ends, ERR takes the code, everything else is kept. -/
def raise (code : ErrCode) (s : State) : State := { s with status := setErr code s.status }

end Sys2Proof.Machine
end

