-- ==== Sys2Proof/Machine/Operands.lean ====
section
/-!
DEFINITION. The operand forms: ARG as u32, s32 or binary32 (30_encoding.md R81), the legal set of each effect
parameter (10_state.md R28-R33, 45_accessors.md R190) and the operand check of PROCESS (R160).
-/
namespace Sys2Proof.Machine

/-- `lo <= v and v <= hi` by the IEEE ordered comparisons (R190 d). -/
def inClosed (lo hi v : Word) : Bool := fle lo v && fle v hi

/-- The legal set of P_WAVEFORM: 0 SINUSOID, 1 TRIANGLE (R191). -/
def legalWaveform (v : Word) : Bool := decide (v = 0#32) || decide (v = 1#32)

/-- The legal set of P_PHASE: the integers -180 to 180 (R192). -/
def legalPhase (v : Word) : Bool := decide (-180 ≤ v.toInt) && decide (v.toInt ≤ 180)

/-- The legal set of P_RATE: 0.0 to 10.0 (R193). -/
def legalRate (v : Word) : Bool := inClosed 0#32 0x41200000#32 v

/-- The legal set of P_DEPTH: 0.0 to 1.0 (R194). -/
def legalDepth (v : Word) : Bool := inClosed 0#32 0x3F800000#32 v

/-- The legal set of P_FEEDBACK: -1.0 to 1.0 (R195). -/
def legalFeedback (v : Word) : Bool := inClosed 0xBF800000#32 0x3F800000#32 v

/-- The legal set of P_DELAY: 0.0 to MAX_DELAY (R196). -/
def legalDelay (v : Word) : Bool := inClosed 0#32 Config.maxDelay v

/-- The device sample rate in ARG, read as u32, is one DEVCHG accepts (R115). -/
def legalSampleRate (r : Word) : Bool := decide (Config.srMin ≤ r.toNat) && decide (r.toNat ≤ Config.srMax)

/-- The operands of PROCESS are in range: n <= MAX_BLOCK and nch <= NCH_MAX (R160). -/
def legalBlock (p : Params) (n nch : Nat) : Bool := decide (n ≤ p.maxBlock.val) && decide (nch ≤ p.nchMax.val)

end Sys2Proof.Machine
end

