-- ==== Sys2Proof/Machine/Accessors.lean ====
section
/-!
DEFINITION. The parameter accessors SETP and GETP (45_accessors.md): one definition per command over two shared
operations.
-/
namespace Sys2Proof.Machine

/-- SETP common form (R190 b, c, e): a legal ARG is stored bit for bit, any other raises INVALID_VALUE. -/
def setParam (legal : Word → Bool) (store : Word → State → State) (s : State) : Host.Outcome State Fault Refusal :=
  if legal s.arg then .next (succeed (store s.arg s)) else .next (raise .invalidValue s)

/-- GETP common form (R190 f): ARG takes the parameter bit for bit. -/
def getParam (v : Word) (s : State) : Host.Outcome State Fault Refusal := .next (succeed { s with arg := v })

/-- SETP.WAVEFORM (R191). -/
def execSetpWaveform (s : State) : Host.Outcome State Fault Refusal :=
  setParam legalWaveform (fun v t => { t with pWaveform := v }) s

/-- SETP.PHASE (R192). -/
def execSetpPhase (s : State) : Host.Outcome State Fault Refusal :=
  setParam legalPhase (fun v t => { t with pPhase := v }) s

/-- SETP.RATE (R193). -/
def execSetpRate (s : State) : Host.Outcome State Fault Refusal :=
  setParam legalRate (fun v t => { t with pRate := v }) s

/-- SETP.DEPTH (R194). -/
def execSetpDepth (s : State) : Host.Outcome State Fault Refusal :=
  setParam legalDepth (fun v t => { t with pDepth := v }) s

/-- SETP.FEEDBACK (R195). -/
def execSetpFeedback (s : State) : Host.Outcome State Fault Refusal :=
  setParam legalFeedback (fun v t => { t with pFeedback := v }) s

/-- SETP.DELAY (R196). -/
def execSetpDelay (s : State) : Host.Outcome State Fault Refusal :=
  setParam legalDelay (fun v t => { t with pDelay := v }) s

/-- GETP.WAVEFORM (R197). -/
def execGetpWaveform (s : State) : Host.Outcome State Fault Refusal := getParam s.pWaveform s

/-- GETP.PHASE (R198). -/
def execGetpPhase (s : State) : Host.Outcome State Fault Refusal := getParam s.pPhase s

/-- GETP.RATE (R199). -/
def execGetpRate (s : State) : Host.Outcome State Fault Refusal := getParam s.pRate s

/-- GETP.DEPTH (R200). -/
def execGetpDepth (s : State) : Host.Outcome State Fault Refusal := getParam s.pDepth s

/-- GETP.FEEDBACK (R201). -/
def execGetpFeedback (s : State) : Host.Outcome State Fault Refusal := getParam s.pFeedback s

/-- GETP.DELAY (R202). -/
def execGetpDelay (s : State) : Host.Outcome State Fault Refusal := getParam s.pDelay s

end Sys2Proof.Machine
end

