-- ==== Sys2Proof/Machine/DelayLine.lean ====
section
/-!
DEFINITION. The delay-line store and the device adapter (41_delay_line.md): slot addressing, the required length,
resize, clear, and DEVCHG.
-/
namespace Sys2Proof.Machine

/-- The index in DL of line `line`'s slot for a position (R110): the line's base plus `p AND (L - 1)`. -/
def dlSlot (len : Word) (line : Nat) (p : Word) : Nat := line * len.toNat + (p &&& (len - 1#32)).toNat

/-- The smallest power of two that is at least n (R111). -/
def nextPow2 (n : Nat) : Nat := if n ≤ 1 then 1 else 2 ^ ((n - 1).log2 + 1)

/-- The delay-line length a sample rate needs (R112), in binary32 in the order the rule writes. -/
def requiredLength (rate : Word) : Nat :=
  nextPow2 (floorI (fmul (fmul Config.maxDelay 0x40000000#32) (u2f rate)) + 1)

/-- resize(n) (R113): nothing when the RAM is too small, else the new length with both lines +0.0. -/
def resize (n : Nat) (s : State) : Option State :=
  if s.params.dlCap < nextPow2 n then none
  else some { s with dlLen := BitVec.ofNat 32 (nextPow2 n), mem := clearDl (2 * nextPow2 n) s.mem }

/-- clear() (R114): both lines of the present length to +0.0. -/
def clearLines (s : State) : State := { s with mem := clearDl (2 * s.dlLen.toNat) s.mem }

/-- devchg_fail(code) (R116). -/
def devchgFail (code : ErrCode) (s : State) : State := { s with status := failedStatus code }

/-- The end of a DEVCHG that succeeds (R115): clear, latch the rate, write the flags. -/
def devchgDone (s : State) : State := { clearLines s with srate := s.arg, status := configuredStatus }

/-- DEVCHG (R115, R116). -/
def execDevchg (s : State) : Host.Outcome State Fault Refusal :=
  if legalSampleRate s.arg then
    if requiredLength s.arg = s.dlLen.toNat then .next (devchgDone s)
    else match resize (requiredLength s.arg) s with
      | none => .next (devchgFail .allocFail s)
      | some t => .next (devchgDone t)
  else .next (devchgFail .invalidValue s)

end Sys2Proof.Machine
end

