-- ==== Sys2Proof/Machine/Lfo.lean ====
section
/-!
DEFINITION. The LFO modulator (43_lfo.md): the counters, the two generators, the sine and its laws. It has no command
of its own; PROCESS runs it. The generators take the sine as an argument, so that a test can name one.
-/
namespace Sys2Proof.Machine

/-- The arguments over which R145 states its laws: finite x with 0.0 <= x <= 6.3. The word is the largest binary32
value not above 6.3. -/
def sineDomain (x : Word) : Bool := inClosed 0#32 0x40C99999#32 x

/-- SIN_F32 (R145): any binary32 function with that rule's laws. The raw free value is kept wherever it obeys them;
+0.0 goes to +0.0 by law (b), and a raw value on the domain outside [-1.0, 1.0] is no value of a sine and is replaced
by +0.0. Every function with the laws is obtained from some raw one (notes/assumptions/4.md). -/
def sinF32 (x : Word) : Word :=
  if x = posZero then posZero
  else if sineDomain x && !inClosed 0xBF800000#32 0x3F800000#32 (Config.sinRaw x) then posZero
  else Config.sinRaw x

/-- The triangle's waveform value at counter o (R143). -/
def triangleWave (sc : Word) (o : Nat) : Word :=
  fsub 0x3F800000#32 (fabs (fsub 0x40000000#32 (fmul sc (u2f (BitVec.ofNat 32 o)))))

/-- The sinusoid's waveform value at counter o (R144). -/
def sineWave (sine : Word → Word) (sc : Word) (o : Nat) : Word := sine (fmul sc (u2f (BitVec.ofNat 32 o)))

/-- The waveform value by kind: 1 TRIANGLE, else SINUSOID (R84, R140). -/
def waveValue (sine : Word → Word) (kind sc : Word) (o : Nat) : Word :=
  if kind = 1#32 then triangleWave sc o else sineWave sine sc o

/-- The delay of a waveform value: roundI(w * depth) + base (R143, R144). -/
def delayOf (ds base w : Word) : Word := roundS32 (fmul w ds) + base

/-- The counter of sample i of a run that starts at o0 (R142). -/
def lfoCounter (o0 cycle i : Nat) : Nat := (o0 + i) % cycle

/-- lfo(kind, o0, C, sc, ds, base, n), the n delays of a run (R140). -/
def lfo (sine : Word → Word) (kind : Word) (o0 cycle : Nat) (sc ds base : Word) (n : Nat) : List Word :=
  (List.range n).map fun i => delayOf ds base (waveValue sine kind sc (lfoCounter o0 cycle i))

/-- The counter channel 0 starts a sub-block with (R141). -/
def startCounter0 (s : State) (p0 : Word) : Nat := p0.toNat % s.cycleLen.toNat

/-- The counter channel 1 starts a sub-block with (R141): the sum is modulo 2^32. -/
def startCounter1 (s : State) (p0 : Word) : Nat := (p0 + s.phaseOff).toNat % s.cycleLen.toNat

/-- The delays of a run from a start counter, with the LFO registers of the state (R162). -/
def lfoRun (s : State) (o0 n : Nat) : List Word :=
  lfo sinF32 s.waveRt o0 s.cycleLen.toNat s.lfoScale s.depthS s.baseDelay n

end Sys2Proof.Machine
end

