-- ==== Sys2Proof/Machine/BlockProcessor.lean ====
section
/-!
DEFINITION. The block processor, PROCESS (44_block_processor.md). What a PROCESS writes while it runs is the buffers
and the CURSOR and nothing else (R169), so the loops carry just those two (`Work`) and read every register from the
state the command started in.
-/
namespace Sys2Proof.Machine

/-- What PROCESS changes as it runs (R169): the buffers and the CURSOR. -/
structure Work where
  /-- The buffers. -/
  mem : Memory
  /-- The CURSOR. -/
  cursor : Word
  deriving DecidableEq, Repr

/-- The input write (R164) and the comb step (R165) of one line for input word x and delay d: the buffers after, and
the wet sample. -/
def combStep (s : State) (cursor : Word) (line : Nat) (x d : Word) (m : Memory) : Except Fault (Memory × Word) := do
  let m1 ← writeDl s.params (dlSlot s.dlLen line cursor) x m
  let tap ← readDl s.params m1 (dlSlot s.dlLen line (cursor - d))
  let cur ← readDl s.params m1 (dlSlot s.dlLen line cursor)
  let m2 ← writeDl s.params (dlSlot s.dlLen line cursor) (fadd cur (fmul tap s.feedbackRt)) m1
  return (m2, fmul tap s.feedbackRt)

/-- One sample (R163): channel 0's write and comb step, channel 1's, then the cursor advance (R166). `i` is the
sample's index in IN, `d` its two delays; the result is the two wet samples. -/
def sampleStep (s : State) (i : Nat) (d : Word × Word) (wk : Work) : Except Fault (Work × (Word × Word)) := do
  let x ← readIn wk.mem i
  let (m0, wet0) ← combStep s wk.cursor 0 x d.1 wk.mem
  let (m1, wet1) ← combStep s wk.cursor 1 x d.2 m0
  return ({ mem := m1, cursor := wk.cursor + 1#32 }, (wet0, wet1))

/-- The samples of a sub-block in order (R163), the first at index `i`; the wet samples come back in order. -/
def runSamples (s : State) : Nat → List (Word × Word) → Work → Except Fault (Work × List (Word × Word))
  | _, [], wk => .ok (wk, [])
  | i, d :: ds, wk => do
    let (wk1, w) ← sampleStep s i d wk
    let (wk2, ws) ← runSamples s (i + 1) ds wk1
    return (wk2, w :: ws)

/-- Accumulate wet * g into OUT[c] from sample `i` on (R167). -/
def accumulate (g : Word) (c : Nat) : Nat → List Word → Memory → Except Fault Memory
  | _, [], m => .ok m
  | i, w :: ws, m => do
    let o ← readOut m c i
    accumulate g c (i + 1) ws (writeOut c i (fadd o (fmul w g)) m)

/-- The magnitude of a gain is above the silence threshold (R168); strict, and false for a NaN. -/
def audible (g : Word) : Bool := flt Config.gainSilence (fabs g)

/-- One line's term of one output channel (R167, R168). -/
def mixLine (g : Word) (c i : Nat) (wet : List Word) (m : Memory) : Except Fault Memory :=
  if audible g then accumulate g c i wet m else .ok m

/-- Entry c of a gain vector. -/
def gainAt (v : Vector Word 16) (c : Nat) : Word := v[c]?.getD 0#32

/-- One output channel: line 0's term first, then line 1's (R167). -/
def mixChannel (s : State) (i : Nat) (wet : List (Word × Word)) (c : Nat) (m : Memory) : Except Fault Memory := do
  let m0 ← mixLine (gainAt s.gainRt0 c) c i (wet.map Prod.fst) m
  mixLine (gainAt s.gainRt1 c) c i (wet.map Prod.snd) m0

/-- The output channels of a list in its order. -/
def mixChannels (s : State) (i : Nat) (wet : List (Word × Word)) : List Nat → Memory → Except Fault Memory
  | [], m => .ok m
  | c :: cs, m => do
    let m1 ← mixChannel s i wet c m
    mixChannels s i wet cs m1

/-- One sub-block (R161): its delays (R162), its samples (R163), its mix (R167). `blk` is its first sample and its
length. -/
def subBlock (s : State) (nch : Nat) (blk : Nat × Nat) (wk : Work) : Except Fault Work := do
  let (wk1, wet) ← runSamples s blk.1
    ((lfoRun s (startCounter0 s wk.cursor) blk.2).zip (lfoRun s (startCounter1 s wk.cursor) blk.2)) wk
  let m ← mixChannels s blk.1 wet (List.range nch) wk1.mem
  return { wk1 with mem := m }

/-- The sub-blocks of n samples (R161): first sample and length, at most SUBBLOCK each. -/
def subBlocks (n : Nat) : List (Nat × Nat) :=
  (List.range ((n + (Config.subBlock - 1)) / Config.subBlock)).map fun j =>
    (Config.subBlock * j, min Config.subBlock (n - Config.subBlock * j))

/-- Sub-blocks in order, each complete before the next (R161). -/
def runSubBlocks (s : State) (nch : Nat) : List (Nat × Nat) → Work → Except Fault Work
  | [], wk => .ok wk
  | b :: bs, wk => do
    let wk1 ← subBlock s nch b wk
    runSubBlocks s nch bs wk1

/-- The core is configured and updated (R160). -/
def ready (s : State) : Bool := s.status.configured && s.status.updated

/-- PROCESS n, nch (R160). -/
def execProcess (n nch : Nat) (s : State) : Host.Outcome State Fault Refusal :=
  if legalBlock s.params n nch then
    if ready s then
      match runSubBlocks s nch (subBlocks n) { mem := s.mem, cursor := s.cursor } with
      | .ok wk => .next (succeed { s with mem := wk.mem, cursor := wk.cursor })
      | .error f => .fault f
    else .next (raise .notReady s)
  else .next (raise .invalidValue s)

end Sys2Proof.Machine
end

