-- ==== Sys2Proof/Machine/Lifecycle.lean ====
section
/-!
DEFINITION. The lifecycle commands RESET and RELEASE (40_lifecycle.md).
-/
namespace Sys2Proof.Machine

/-- RESET, construct (R100): every register to its reset value; IN, OUT and the DL words are not written, and the
chip's parameters and the host's own traffic are not the core's to change. -/
def execReset (s : State) : Host.Outcome State Fault Refusal :=
  .next { State.reset with params := s.params, mem := s.mem, host := s.host, readLog := s.readLog }

/-- RELEASE, destruct (R101): DL_LEN and the three flags to 0, everything else kept. -/
def execRelease (s : State) : Host.Outcome State Fault Refusal :=
  .next { s with dlLen := 0#32, status := clearedStatus }

end Sys2Proof.Machine
end

