-- ==== Sys2Proof/Machine/Translator.lean ====
section
/-!
DEFINITION. The parameter translator, UPDATE (42_translator.md): one definition per step R121 to R130, run in that
order.
-/
namespace Sys2Proof.Machine

/-- R121: the waveform. -/
def stepWaveform (s : State) : State := { s with waveRt := s.pWaveform }

/-- R122: the base delay in samples. -/
def stepBaseDelay (s : State) : State := { s with baseDelay := roundS32 (fmul s.pDelay (u2f s.srate)) }

/-- R123: the depth in samples, from the base delay just written. -/
def stepDepth (s : State) : State := { s with depthS := fmul s.pDepth (i2f s.baseDelay) }

/-- R124: the feedback coefficient. -/
def stepFeedback (s : State) : State := { s with feedbackRt := s.pFeedback }

/-- R125: the LFO coefficients of a disabled modulation. -/
def lfoDisabled (s : State) : State := { s with cycleLen := 1#32, lfoScale := posZero, phaseOff := 0#32 }

/-- The quotient of R126 rounded, saturating at CYCLE_MAX. -/
def cycleLength (srate rate : Word) : Word :=
  if fdiv (u2f srate) rate = 0x7F800000#32 ∨ (Config.cycleMax : Int) < roundInt (fdiv (u2f srate) rate) then
    BitVec.ofNat 32 Config.cycleMax
  else BitVec.ofInt 32 (roundInt (fdiv (u2f srate) rate))

/-- R126: the cycle length. -/
def stepCycle (s : State) : State := { s with cycleLen := cycleLength s.srate s.pRate }

/-- R127: the scale, 4 / C for the triangle and 2 pi / C for the sinusoid. -/
def stepScale (s : State) : State :=
  { s with lfoScale := fdiv (if s.waveRt = 1#32 then 0x40800000#32 else Config.tauF32) (u2f s.cycleLen) }

/-- The phase in degrees brought into [0, 359] (R128). -/
def wrappedPhase (ph : Word) : Word := if 0 ≤ ph.toInt then ph else 360#32 + ph

/-- The phase offset in samples for a cycle length (R128). -/
def phaseOffset (c ph : Word) : Word := roundU32 (fmul (u2f c) (fdiv (i2f (wrappedPhase ph)) 0x43B40000#32))

/-- R128: the phase offset. -/
def stepPhaseOff (s : State) : State := { s with phaseOff := phaseOffset s.cycleLen s.pPhase }

/-- R125 or R126 to R128: the LFO coefficients. -/
def stepLfo (s : State) : State :=
  if flt posZero s.pRate then stepPhaseOff (stepScale (stepCycle s)) else lfoDisabled s

/-- R129: the gains, bit for bit. -/
def stepGains (s : State) : State := { s with gainRt0 := s.gainIn0, gainRt1 := s.gainIn1 }

/-- R130: completion. -/
def stepUpdated (s : State) : State := { s with status := updatedStatus s.status }

/-- The steps of UPDATE in the order of R120. -/
def translate (s : State) : State :=
  stepUpdated (stepGains (stepLfo (stepFeedback (stepDepth (stepBaseDelay (stepWaveform s))))))

/-- UPDATE (R120): NOT_READY when the core is not configured. -/
def execUpdate (s : State) : Host.Outcome State Fault Refusal :=
  if s.status.configured then .next (translate s) else .next (raise .notReady s)

end Sys2Proof.Machine
end

