-- ==== Sys2Proof/Machine/Dispatch.lean ====
section
/-!
DEFINITION. One arm per command, in the order of spec/opcode_table.json.
-/
namespace Sys2Proof.Machine

/-- What the core does for a decoded command. -/
def exec (i : Instr) (s : State) : Host.Outcome State Fault Refusal :=
  match i with
  | .reset => Sys2Proof.Machine.execReset s
  | .release => Sys2Proof.Machine.execRelease s
  | .devchg => Sys2Proof.Machine.execDevchg s
  | .update => Sys2Proof.Machine.execUpdate s
  | .process n nch => Sys2Proof.Machine.execProcess n nch s
  | .setpWaveform => Sys2Proof.Machine.execSetpWaveform s
  | .setpPhase => Sys2Proof.Machine.execSetpPhase s
  | .setpRate => Sys2Proof.Machine.execSetpRate s
  | .setpDepth => Sys2Proof.Machine.execSetpDepth s
  | .setpFeedback => Sys2Proof.Machine.execSetpFeedback s
  | .setpDelay => Sys2Proof.Machine.execSetpDelay s
  | .getpWaveform => Sys2Proof.Machine.execGetpWaveform s
  | .getpPhase => Sys2Proof.Machine.execGetpPhase s
  | .getpRate => Sys2Proof.Machine.execGetpRate s
  | .getpDepth => Sys2Proof.Machine.execGetpDepth s
  | .getpFeedback => Sys2Proof.Machine.execGetpFeedback s
  | .getpDelay => Sys2Proof.Machine.execGetpDelay s

end Sys2Proof.Machine
end

