-- ==== Sys2Proof/Machine/Bus.lean ====
section
/-!
DEFINITION. The host bus (20_memory.md): what each address of the window is (R61), what a read returns and what a
write does, and the command a write to CMD runs (R21).
-/
namespace Sys2Proof.Machine

/-- The read-only run-time registers of R61. -/
inductive RunReg where
  | srate | dlLen | cursor | baseDelay | depthS | feedbackRt | cycleLen | lfoScale | phaseOff | waveRt
  deriving DecidableEq, Repr

/-- What stands at a word address of the bus window (R61). -/
inductive Target where
  /-- CMD (R21). -/
  | cmd
  /-- ARG (R22). -/
  | arg
  /-- STATUS (R23). -/
  | status
  /-- A run-time register (R34-R43). -/
  | run (r : RunReg)
  /-- GAIN_IN[line][c] (R44). -/
  | gainIn (line c : Nat)
  /-- GAIN_RT[line][c] (R45). -/
  | gainRt (line c : Nat)
  /-- IN[i] (R62). -/
  | inWord (i : Nat)
  /-- OUT[c][i] (R63). -/
  | outWord (c i : Nat)
  /-- Word k of the DL window (R64). -/
  | dlWord (k : Nat)
  /-- Reads 0, write ignored (R67). -/
  | reserved
  deriving DecidableEq, Repr

/-- The registers below 0x0080, by word index (R61). -/
def lowTarget : Nat → Target
  | 0 => .cmd
  | 1 => .arg
  | 2 => .status
  | 4 => .run .srate
  | 5 => .run .dlLen
  | 6 => .run .cursor
  | 7 => .run .baseDelay
  | 8 => .run .depthS
  | 9 => .run .feedbackRt
  | 10 => .run .cycleLen
  | 11 => .run .lfoScale
  | 12 => .run .phaseOff
  | 13 => .run .waveRt
  | _ => .reserved

/-- The address map (R61) for an aligned address below 0x80000: the words of a window past its last implemented entry
are reserved. -/
def targetOf (p : Params) (a : Nat) : Target :=
  if a < 0x80 then lowTarget (a / 4)
  else if a < 0x100 then
    (if (a - 0x80) % 0x40 / 4 < p.nchMax.val then .gainIn ((a - 0x80) / 0x40) ((a - 0x80) % 0x40 / 4) else .reserved)
  else if a < 0x180 then
    (if (a - 0x100) % 0x40 / 4 < p.nchMax.val then .gainRt ((a - 0x100) / 0x40) ((a - 0x100) % 0x40 / 4) else .reserved)
  else if a < inBase then .reserved
  else if a < 0x3000 then
    (if (a - inBase) / 4 < p.maxBlock.val then .inWord ((a - inBase) / 4) else .reserved)
  else if a < outBase then .reserved
  else if a < 0x24000 then
    (if (a - outBase) / 0x2000 < p.nchMax.val ∧ (a - outBase) % 0x2000 / 4 < p.maxBlock.val then
      .outWord ((a - outBase) / 0x2000) ((a - outBase) % 0x2000 / 4) else .reserved)
  else if a < dlBase then .reserved
  else .dlWord ((a - dlBase) / 4)

/-- A run-time register's value. -/
def runRegValue (s : State) : RunReg → Word
  | .srate => s.srate
  | .dlLen => s.dlLen
  | .cursor => s.cursor
  | .baseDelay => s.baseDelay
  | .depthS => s.depthS
  | .feedbackRt => s.feedbackRt
  | .cycleLen => s.cycleLen
  | .lfoScale => s.lfoScale
  | .phaseOff => s.phaseOff
  | .waveRt => s.waveRt

/-- Word k of the DL window (R64): DL[k] while it is in use, else 0. -/
def dlWindow (s : State) (k : Nat) : Word :=
  if k < 2 * s.dlLen.toNat ∧ k < 2 * s.params.dlCap then (wordAt s.mem (dlAddr k)).getD 0#32 else 0#32

/-- The word a host read of a target returns (R61, R67). -/
def readTarget (s : State) : Target → Word
  | .cmd => 0#32
  | .arg => s.arg
  | .status => statusWord s.status
  | .run r => runRegValue s r
  | .gainIn line c => if line = 0 then gainAt s.gainIn0 c else gainAt s.gainIn1 c
  | .gainRt line c => if line = 0 then gainAt s.gainRt0 c else gainAt s.gainRt1 c
  | .inWord i => visibleWord s.mem (inAddr i)
  | .outWord c i => visibleWord s.mem (outAddr c i)
  | .dlWord k => dlWindow s k
  | .reserved => 0#32

/-- A write to CMD (R21, R86): the command runs to completion, or the word is refused with its error code. -/
def runCommand (w : Word) (s : State) : Host.Outcome State Fault Refusal :=
  match decode w with
  | .ok i => exec i s
  | .error .illegalCommand => .next (raise .illegalCommand s)
  | .error .invalidEnum => .next (raise .invalidEnum s)

/-- What a host write of a word to a target other than CMD stores; read-only and reserved words ignore it (R67). -/
def storeTarget (w : Word) (s : State) : Target → State
  | .arg => { s with arg := w }
  | .gainIn line c =>
    if line = 0 then { s with gainIn0 := s.gainIn0.setIfInBounds c w }
    else { s with gainIn1 := s.gainIn1.setIfInBounds c w }
  | .inWord i => { s with mem := putWord (inAddr i) w s.mem }
  | .outWord c i => { s with mem := putWord (outAddr c i) w s.mem }
  | .cmd | .status | .run _ | .gainRt _ _ | .dlWord _ | .reserved => s

/-- A host read of an aligned address of the window: no side effect but the host's own record of the word. -/
def busRead (a : Nat) (s : State) : Host.Outcome State Fault Refusal :=
  .next { s with readLog := readTarget s (targetOf s.params a) :: s.readLog }

/-- A host write to an aligned address of the window. -/
def busWrite (a : Nat) (w : Word) (s : State) : Host.Outcome State Fault Refusal :=
  if targetOf s.params a = .cmd then runCommand w s else .next (storeTarget w s (targetOf s.params a))

/-- The one access the core accepts is 32 bits wide, aligned and below 0x80000; at any other the host has no step
(R66), and the fault says which of the three it breaks. -/
def accessFault (width : Width) (a : Nat) : Option Fault :=
  if width ≠ .word then some .busWidth
  else if a % 4 ≠ 0 then some .busMisaligned
  else if busEnd ≤ a then some .busOutside
  else none

/-- One bus access, whole (R68). -/
def perform (acc : BusAccess) (s : State) : Host.Outcome State Fault Refusal :=
  match acc with
  | .read width a =>
    match accessFault width a with
    | some f => .fault f
    | none => busRead a s
  | .write width a w =>
    match accessFault width a with
    | some f => .fault f
    | none => busWrite a w s

/-- The host's next access, or an idle core when it has none left (R228). -/
def hostStep (s : State) : Host.Outcome State Fault Refusal :=
  match s.host with
  | [] => .next s
  | acc :: rest => perform acc { s with host := rest }

end Sys2Proof.Machine
end

