-- ==== Sys2Proof/Machine/Step.lean ====
section
/-!
DEFINITION. One step of the machine is the host's next bus access (00_scope.md R17, 20_memory.md R68); a command runs
inside the write to CMD that carries it. There is no program counter and nothing is fetched (R52, R73).
-/
namespace Sys2Proof.Machine

/-- One step. -/
def step (s : State) : Host.Outcome State Fault Refusal := hostStep s

/-- The state whose next step is the host's write of this command word to CMD: commands come from the host and from
nowhere else (notes/assumptions/1.md). -/
def State.withFetchWord (s : State) (nbits w : Nat) : State :=
  { s with host := .write .word 0 (tableWord nbits w) :: s.host }

end Sys2Proof.Machine
end

