-- ==== Sys2Proof/Machine/Assembler.lean ====
section
/-!
DEFINITION. The host's assembly language as data (30_encoding.md R90, R91) and the disassembly of a command word
(R92). A statement is the bus accesses it stands for (notes/assumptions/16.md).
-/
namespace Sys2Proof.Machine

/-- The register names an address may be written as (R90). -/
inductive RegName where
  | cmd | arg | status
  | run (r : RunReg)
  deriving DecidableEq, Repr

/-- The address of a named register (R61). -/
def regAddr : RegName → Nat
  | .cmd => 0x0000
  | .arg => 0x0004
  | .status => 0x0008
  | .run .srate => 0x0010
  | .run .dlLen => 0x0014
  | .run .cursor => 0x0018
  | .run .baseDelay => 0x001C
  | .run .depthS => 0x0020
  | .run .feedbackRt => 0x0024
  | .run .cycleLen => 0x0028
  | .run .lfoScale => 0x002C
  | .run .phaseOff => 0x0030
  | .run .waveRt => 0x0034

/-- The six effect parameters (R83). -/
inductive ParamName where
  | waveform | phase | rate | depth | feedback | delay
  deriving DecidableEq, Repr

/-- The SETP command of a parameter (R85). -/
def setpOf : ParamName → Instr
  | .waveform => .setpWaveform
  | .phase => .setpPhase
  | .rate => .setpRate
  | .depth => .setpDepth
  | .feedback => .setpFeedback
  | .delay => .setpDelay

/-- The GETP command of a parameter (R85). -/
def getpOf : ParamName → Instr
  | .waveform => .getpWaveform
  | .phase => .getpPhase
  | .rate => .getpRate
  | .depth => .getpDepth
  | .feedback => .getpFeedback
  | .delay => .getpDelay

/-- A value as a statement writes it (R90): an integer modulo 2^32, or `f:` of the fraction num / den. -/
inductive Literal where
  | int (z : Int)
  | f (neg : Bool) (num den : Nat)
  deriving DecidableEq, Repr

/-- The word a literal stands for (R90). -/
def literalWord : Literal → Word
  | .int z => BitVec.ofInt 32 z
  | .f neg num den => f32OfRatio neg num den

/-- One statement of a host program: the machine statements of R90, then the pseudo-instructions of R91. -/
inductive Stmt where
  | command (i : Instr)
  | wr (addr : Nat) (v : Literal)
  | rd (addr : Nat)
  | devchgAt (rate : Literal)
  | setpTo (p : ParamName) (v : Literal)
  | getpFrom (p : ParamName)
  | gain (line c : Nat) (v : Literal)
  | inSample (i : Nat) (v : Literal)
  | outSample (c i : Nat) (v : Literal)
  | clrin (n : Nat)
  | clrout (nch n : Nat)
  | rdout (c i : Nat)
  | rddl (k : Nat)
  deriving DecidableEq, Repr

/-- A write of a command word to CMD. -/
def cmdWrite (i : Instr) : BusAccess := .write .word (regAddr .cmd) (encode i)

/-- The bus accesses of a statement, in order (R90, R91). -/
def expand : Stmt → List BusAccess
  | .command i => [cmdWrite i]
  | .wr a v => [.write .word a (literalWord v)]
  | .rd a => [.read .word a]
  | .devchgAt v => [.write .word (regAddr .arg) (literalWord v), cmdWrite .devchg]
  | .setpTo p v => [.write .word (regAddr .arg) (literalWord v), cmdWrite (setpOf p)]
  | .getpFrom p => [cmdWrite (getpOf p), .read .word (regAddr .arg)]
  | .gain line c v => [.write .word (0x0080 + 0x40 * line + 4 * c) (literalWord v)]
  | .inSample i v => [.write .word (inAddr i) (literalWord v)]
  | .outSample c i v => [.write .word (outAddr c i) (literalWord v)]
  | .clrin n => (List.range n).map fun i => .write .word (inAddr i) posZero
  | .clrout nch n =>
    (List.range nch).flatMap fun c => (List.range n).map fun i => .write .word (outAddr c i) posZero
  | .rdout c i => [.read .word (outAddr c i)]
  | .rddl k => [.read .word (dlAddr k)]

/-- The accesses of a host program. -/
def assemble (prog : List Stmt) : List BusAccess := prog.flatMap expand

/-- A state whose host is about to perform a program (R252). -/
def State.withProgram (s : State) (prog : List Stmt) : State := { s with host := s.host ++ assemble prog }

/-- How a command word disassembles (R92). -/
inductive Listing where
  /-- A row of R85. -/
  | command (i : Instr)
  /-- `.illegal 0x<word>`. -/
  | illegal (w : Word)
  /-- `setp.?<sel>`. -/
  | unknownSetp (sel : Nat)
  /-- `getp.?<sel>`. -/
  | unknownGetp (sel : Nat)
  deriving DecidableEq, Repr

/-- The listing of a command word (R92). -/
def disassemble (w : Word) : Listing :=
  match decode w with
  | .ok i => .command i
  | .error .illegalCommand => .illegal w
  | .error .invalidEnum => if fieldOp w = 6 then .unknownSetp (fieldSel w) else .unknownGetp (fieldSel w)

/-- A command's text: its mnemonic in lower case, and the operands of PROCESS in decimal (R92). -/
def commandText : Instr → String
  | .reset => "reset"
  | .release => "release"
  | .devchg => "devchg"
  | .update => "update"
  | .process n nch => "process " ++ toString n ++ ", " ++ toString nch
  | .setpWaveform => "setp.waveform"
  | .setpPhase => "setp.phase"
  | .setpRate => "setp.rate"
  | .setpDepth => "setp.depth"
  | .setpFeedback => "setp.feedback"
  | .setpDelay => "setp.delay"
  | .getpWaveform => "getp.waveform"
  | .getpPhase => "getp.phase"
  | .getpRate => "getp.rate"
  | .getpDepth => "getp.depth"
  | .getpFeedback => "getp.feedback"
  | .getpDelay => "getp.delay"

/-- The hexadecimal digit of a number below 16. -/
def hexDigit (d : Nat) : String :=
  match d with
  | 0 => "0" | 1 => "1" | 2 => "2" | 3 => "3" | 4 => "4" | 5 => "5" | 6 => "6" | 7 => "7"
  | 8 => "8" | 9 => "9" | 10 => "A" | 11 => "B" | 12 => "C" | 13 => "D" | 14 => "E" | _ => "F"

/-- A word as eight hexadecimal digits. -/
def hexText (w : Word) : String :=
  hexDigit (w.toNat / 2 ^ 28) ++ hexDigit (w.toNat / 2 ^ 24 % 16) ++ hexDigit (w.toNat / 2 ^ 20 % 16)
    ++ hexDigit (w.toNat / 2 ^ 16 % 16) ++ hexDigit (w.toNat / 2 ^ 12 % 16) ++ hexDigit (w.toNat / 2 ^ 8 % 16)
    ++ hexDigit (w.toNat / 2 ^ 4 % 16) ++ hexDigit (w.toNat % 16)

/-- The text of a listing (R92). -/
def listingText : Listing → String
  | .command i => commandText i
  | .illegal w => ".illegal 0x" ++ hexText w
  | .unknownSetp sel => "setp.?" ++ toString sel
  | .unknownGetp sel => "getp.?" ++ toString sel

end Sys2Proof.Machine
end

