-- ==== Sys2Proof/Safety.lean ====
section
/-!
DEFINITION. The terms the statements are written in: the invariants of 10_state.md R50 and of the rules behind it, the
bytes PROCESS stores to (44_block_processor.md R169), and what a safe run is (70_reset_and_hazards.md R252).
-/
namespace Sys2Proof.Safety

open Sys2Proof.Machine

/-! ### Invariants -/

/-- A power of two. -/
def PowerOfTwo (n : Nat) : Prop := ∃ k, n = 2 ^ k

/-- DL_LEN is 0 or a power of two no greater than DL_CAP (R35, R117). -/
def LengthInv (s : State) : Prop :=
  s.dlLen.toNat = 0 ∨ (PowerOfTwo s.dlLen.toNat ∧ s.dlLen.toNat ≤ s.params.dlCap)

/-- UPDATED implies CONFIGURED; a configured core holds a legal rate and the length that rate needs (R50, R115). -/
def FlagInv (s : State) : Prop :=
  (s.status.updated = true → s.status.configured = true) ∧
  (s.status.configured = true → legalSampleRate s.srate = true ∧ s.dlLen.toNat = requiredLength s.srate)

/-- Every effect parameter is legal (R28-R33). -/
def ParamInv (s : State) : Prop :=
  legalWaveform s.pWaveform = true ∧ legalPhase s.pPhase = true ∧ legalRate s.pRate = true ∧
  legalDepth s.pDepth = true ∧ legalFeedback s.pFeedback = true ∧ legalDelay s.pDelay = true

/-- 1 <= CYCLE_LEN <= CYCLE_MAX, 0 <= PHASE_OFF <= CYCLE_LEN, WAVE_RT 0 or 1 (R40, R42, R43). -/
def LfoInv (s : State) : Prop :=
  1 ≤ s.cycleLen.toNat ∧ s.cycleLen.toNat ≤ Config.cycleMax ∧ s.phaseOff.toNat ≤ s.cycleLen.toNat ∧
  legalWaveform s.waveRt = true

/-- A byte address inside the IN, OUT or DL window (R61). -/
def inBufferWindow (a : Nat) : Prop :=
  (inBase ≤ a ∧ a < 0x3000) ∨ (outBase ≤ a ∧ a < 0x24000) ∨ (dlBase ≤ a ∧ a < busEnd)

/-- The buffers are in canonical form and list bytes of the buffer windows only (the form is the model's,
notes/assumptions/7.md). -/
def BufferInv (s : State) : Prop :=
  memoryWf s.mem = true ∧ ∀ c ∈ s.mem, inBufferWindow c.1

/-- The scale that R127 gives a cycle length and a waveform. -/
def scaleFor (wave cycle : Word) : Word :=
  fdiv (if wave = 1#32 then 0x40800000#32 else Config.tauF32) (u2f cycle)

/-- After an UPDATE the run-time coefficients stand as R122 to R127 and R131 leave them: the greatest delay
fits the line, the depth is a finite number from 0 to the base delay, the feedback lies in [-1.0, 1.0], and the LFO is
disabled or has its scale. -/
def CoeffInv (s : State) : Prop :=
  s.status.updated = true →
    2 * s.baseDelay.toNat ≤ s.dlLen.toNat ∧ s.baseDelay.toNat ≤ 3072 ∧
    fIsFinite s.depthS = true ∧ fUnits s.depthS ≤ s.baseDelay.toNat * 2 ^ 149 ∧
    (fNeg s.depthS = true → fUnits s.depthS = 0) ∧ legalFeedback s.feedbackRt = true ∧
    ((s.cycleLen = 1#32 ∧ s.lfoScale = posZero ∧ s.phaseOff = 0#32) ∨
     (800 ≤ s.cycleLen.toNat ∧ s.lfoScale = scaleFor s.waveRt s.cycleLen))

/-- All the invariants together. -/
def Inv (s : State) : Prop :=
  LengthInv s ∧ FlagInv s ∧ ParamInv s ∧ LfoInv s ∧ BufferInv s ∧ CoeffInv s

/-! ### The bytes PROCESS stores to -/

/-- The DL slot of a line at the j-th sample of a PROCESS that starts in s (R164, R166). -/
def slotAt (s : State) (line j : Nat) : Nat := dlSlot s.dlLen line (s.cursor + BitVec.ofNat 32 j)

/-- Byte address a lies in the word at base. -/
def inWord (base a : Nat) : Prop := base ≤ a ∧ a < base + 4

/-- PROCESS n, nch from s stores to byte a (R169): a slot of one of its n samples, or an OUT word of a channel one of
whose gains is audible. -/
def processStores (s : State) (n nch a : Nat) : Prop :=
  (∃ line j, line < 2 ∧ j < n ∧ inWord (dlAddr (slotAt s line j)) a) ∨
  (∃ c j, c < nch ∧ j < n ∧ (audible (gainAt s.gainRt0 c) = true ∨ audible (gainAt s.gainRt1 c) = true) ∧
    inWord (outAddr c j) a)

/-- The words PROCESS n, nch needs a host write to have set (R102): IN[0 .. n), and OUT[c][0 .. n) for the channels it
accumulates into. -/
def processInputsWritten (s : State) (n nch : Nat) : Prop :=
  (∀ i, i < n → (wordAt s.mem (inAddr i)).isSome = true) ∧
  (∀ c i, c < nch → i < n → (audible (gainAt s.gainRt0 c) = true ∨ audible (gainAt s.gainRt1 c) = true) →
    (wordAt s.mem (outAddr c i)).isSome = true)

/-! ### Command words by their bits (R80, R85, R86) -/

/-- OP as a bit slice. -/
def opBits (w : Word) : Nat := (w.extractLsb' 28 4).toNat

/-- RSV as a bit slice. -/
def rsvBits (w : Word) : Nat := (w.extractLsb' 24 4).toNat

/-- SEL as a bit slice. -/
def selBits (w : Word) : Nat := (w.extractLsb' 16 8).toNat

/-- IMM as a bit slice. -/
def immBits (w : Word) : Nat := (w.extractLsb' 0 16).toNat

/-- The words that raise ILLEGAL_COMMAND (R88, R217). -/
def IllegalWord (w : Word) : Prop :=
  opBits w = 0 ∨ 8 ≤ opBits w ∨ rsvBits w ≠ 0 ∨
  ((opBits w = 1 ∨ opBits w = 2 ∨ opBits w = 3 ∨ opBits w = 4) ∧ (selBits w ≠ 0 ∨ immBits w ≠ 0)) ∨
  ((opBits w = 6 ∨ opBits w = 7) ∧ immBits w ≠ 0)

/-- The words that raise INVALID_ENUM (R89). -/
def UnknownIdWord (w : Word) : Prop :=
  (opBits w = 6 ∨ opBits w = 7) ∧ rsvBits w = 0 ∧ immBits w = 0 ∧ (selBits w = 0 ∨ 7 ≤ selBits w)

/-- The Match column of R85. -/
def rowMatch : Instr → Word
  | .reset => 0x10000000#32
  | .release => 0x20000000#32
  | .devchg => 0x30000000#32
  | .update => 0x40000000#32
  | .process _ _ => 0x50000000#32
  | .setpWaveform => 0x60010000#32
  | .setpPhase => 0x60020000#32
  | .setpRate => 0x60030000#32
  | .setpDepth => 0x60040000#32
  | .setpFeedback => 0x60050000#32
  | .setpDelay => 0x60060000#32
  | .getpWaveform => 0x70010000#32
  | .getpPhase => 0x70020000#32
  | .getpRate => 0x70030000#32
  | .getpDepth => 0x70040000#32
  | .getpFeedback => 0x70050000#32
  | .getpDelay => 0x70060000#32

/-- The Mask column of R85: PROCESS has the free fields SEL and IMM. -/
def rowMask : Instr → Word
  | .process _ _ => 0xFF000000#32
  | .reset | .release | .devchg | .update => 0xFFFFFFFF#32
  | .setpWaveform | .setpPhase | .setpRate | .setpDepth | .setpFeedback | .setpDelay => 0xFFFFFFFF#32
  | .getpWaveform | .getpPhase | .getpRate | .getpDepth | .getpFeedback | .getpDelay => 0xFFFFFFFF#32

/-- The command's row matches the word, and PROCESS's operands are the word's free fields (R81, R85). -/
def RowMatches (w : Word) (i : Instr) : Prop :=
  w &&& rowMask i = rowMatch i ∧ ∀ n nch, i = .process n nch → n = immBits w ∧ nch = selBits w

/-! ### Values the statements name -/

/-- Entry c of GAIN_IN[line]. -/
def gainInAt (s : State) (line c : Nat) : Word := gainAt (if line = 0 then s.gainIn0 else s.gainIn1) c

/-- Byte address a is a word of a gain, IN or OUT window past its last implemented entry (R61). -/
def pastLastEntry (p : Params) (a : Nat) : Prop :=
  (∃ line c, line < 2 ∧ p.nchMax.val ≤ c ∧ c < 16 ∧
    (a = 0x0080 + 0x40 * line + 4 * c ∨ a = 0x0100 + 0x40 * line + 4 * c)) ∨
  (∃ i, p.maxBlock.val ≤ i ∧ i < 2048 ∧ a = 0x1000 + 4 * i) ∨
  (∃ c i, c < 16 ∧ i < 2048 ∧ (p.nchMax.val ≤ c ∨ p.maxBlock.val ≤ i) ∧ a = 0x4000 + 0x2000 * c + 4 * i)

/-! ### The samples of a PROCESS that starts in s, numbered from 0, with no loop and no buffer -/

/-- The CURSOR at sample j (R166). -/
def cursorAt (s : State) (j : Nat) : Word := s.cursor + BitVec.ofNat 32 j

/-- The delay of a line at sample j (R141, R142, R162): the counter starts anew from the CURSOR at the first sample of
each run of 128. -/
def delayAt (s : State) (line j : Nat) : Word :=
  delayOf s.depthS s.baseDelay (waveValue sinF32 s.waveRt s.lfoScale (lfoCounter
    (if line = 0 then startCounter0 s (cursorAt s (128 * (j / 128))) else startCounter1 s (cursorAt s (128 * (j / 128))))
    s.cycleLen.toNat (j % 128)))

/-- The input word of sample j (R164). -/
def inputAt (s : State) (j : Nat) : Word := (wordAt s.mem (inAddr j)).getD 0#32

/-- The place in its line that a position names (R110). -/
def placeOf (s : State) (p : Word) : Nat := (p &&& (s.dlLen - 1#32)).toNat

/-- The wet sample of a line at sample j, if the line's words before it are `held` by place (R165, R170): the tap is
the input where its place is the one just written, else the word held there. -/
def wetOver (s : State) (line j : Nat) (held : Nat → Word) : Word :=
  fmul (if placeOf s (cursorAt s j - delayAt s line j) = placeOf s (cursorAt s j) then inputAt s j
    else held (placeOf s (cursorAt s j - delayAt s line j))) s.feedbackRt

/-- The words of a line, by place, after its first samples (R163 to R165): sample j writes the input plus its wet
sample at the place of its CURSOR. -/
def lineAfter (s : State) (line : Nat) : Nat → Nat → Word
  | 0 => fun k => (wordAt s.mem (dlAddr (line * s.dlLen.toNat + k))).getD 0#32
  | j + 1 => fun k =>
    if k = placeOf s (cursorAt s j) then fadd (inputAt s j) (wetOver s line j (lineAfter s line j))
    else lineAfter s line j k

/-- The wet sample of a line at sample j: sample j sees what the samples before it wrote (R163). -/
def wetAt (s : State) (line j : Nat) : Word := wetOver s line j (lineAfter s line j)

/-- An OUT word after one gain's term (R167, R168). -/
def mixTerm (g wet out : Word) : Word := if audible g = true then fadd out (fmul wet g) else out

/-! ### Runs -/

/-- The host can perform its whole list of accesses and no fault is recorded (R252). -/
def SafeRun (s : State) : Prop := ∃ t, Host.Core.run Sys2Proof.core s.host.length s = .next t

end Sys2Proof.Safety
end

