-- ==== Sys2Proof/Certificates/Slice0/Obligations.lean ====
section
/-!
DEFINITION. The statements for the provers. Each docstring names the rule of spec/ it formalises; a clause that rests
on a choice of the model names its log entry.
-/

open Sys2Proof Sys2Proof.Machine Sys2Proof.Safety

/-! ### Command words -/

/-- R80, R81, R85: the decoder reads back every well-formed command, at every value of its operands. -/
def Obligations.DecodeUndoesEncode : Prop :=
  ∀ i : Instr, WellFormed i → decode (encode i) = .ok i

/-- R85: each valid word is the encoding of the one command it decodes to, so no two rows overlap. -/
def Obligations.EncodeUndoesDecode : Prop :=
  ∀ (w : Word) (i : Instr), decode w = .ok i → encode i = w ∧ WellFormed i

/-- R86: every word has exactly the outcome the rule's lines give it, by its bit fields and by match and mask. -/
def Obligations.DecodeFollowsTable : Prop :=
  ∀ w : Word,
    (decode w = .error .illegalCommand ↔ IllegalWord w) ∧
    (decode w = .error .invalidEnum ↔ UnknownIdWord w) ∧
    (∀ i, decode w = .ok i ↔ RowMatches w i)

/-- R87, the worked encodings, read both ways. -/
def Obligations.WorkedEncodingsRead : Prop :=
  (encode .reset = 0x10000000#32 ∧ decode 0x10000000#32 = .ok .reset) ∧
  (encode .release = 0x20000000#32 ∧ decode 0x20000000#32 = .ok .release) ∧
  (encode .devchg = 0x30000000#32 ∧ decode 0x30000000#32 = .ok .devchg) ∧
  (encode .update = 0x40000000#32 ∧ decode 0x40000000#32 = .ok .update) ∧
  (encode (.process 256 2) = 0x50020100#32 ∧ decode 0x50020100#32 = .ok (.process 256 2)) ∧
  (encode (.process 128 16) = 0x50100080#32 ∧ decode 0x50100080#32 = .ok (.process 128 16)) ∧
  (encode .setpFeedback = 0x60050000#32 ∧ decode 0x60050000#32 = .ok .setpFeedback) ∧
  (encode .getpDelay = 0x70060000#32 ∧ decode 0x70060000#32 = .ok .getpDelay) ∧
  opBits 0x50020100#32 = 5 ∧ selBits 0x50020100#32 = 2 ∧ immBits 0x50020100#32 = 0x0100

/-- R21, R68: a step whose access is the write of a valid word to CMD is the command, run in the state in which the
host has that access behind it. That withFetchWord places exactly such an access in front of the host's list is the
model's choice (notes/assumptions/1.md). -/
def Obligations.StepRunsHostCommand : Prop :=
  (∀ (s : State) (w : Word) (i : Instr) (rest : List BusAccess),
    s.host = .write .word 0 w :: rest → decode w = .ok i → step s = exec i { s with host := rest }) ∧
  (∀ (s : State) (w : Word) (i : Instr), decode w = .ok i → step (s.withFetchWord 32 w.toNat) = exec i s)

/-- R217, R88: a reserved or illegal word written to CMD raises code 5 and changes nothing but ERR. -/
def Obligations.IllegalWordWritesOnlyErr : Prop :=
  errNumber .illegalCommand = 5 ∧
  ∀ (s : State) (w : Word) (rest : List BusAccess), s.host = .write .word 0 w :: rest → IllegalWord w →
    step s = .next { s with host := rest, status := { s.status with err := .illegalCommand } }

/-- R89, R203: an unrecognized parameter identifier changes nothing but ERR, ARG included. -/
def Obligations.UnknownIdentifierWritesOnlyErr : Prop :=
  ∀ (s : State) (w : Word) (rest : List BusAccess), s.host = .write .word 0 w :: rest → UnknownIdWord w →
    step s = .next { s with host := rest, status := { s.status with err := .invalidEnum } }

/-- R92: every command word has its listing: an illegal word prints as itself, an unrecognized identifier as SETP or
GETP with the number SEL, any other word as the command whose encoding it is. -/
def Obligations.DisassemblyNamesEveryWord : Prop :=
  ∀ w : Word,
    (IllegalWord w → disassemble w = .illegal w) ∧
    (UnknownIdWord w → disassemble w = if opBits w = 6 then .unknownSetp (selBits w) else .unknownGetp (selBits w)) ∧
    (¬ IllegalWord w → ¬ UnknownIdWord w → ∃ i, disassemble w = .command i ∧ encode i = w)

/-! ### The bus -/

/-- R66: an access that is not an aligned 32-bit access below 0x80000 has no step. -/
def Obligations.UndefinedAccessStops : Prop :=
  ∀ (s : State) (width : Width) (a : Nat) (w : Word) (rest : List BusAccess),
    (width ≠ .word ∨ a % 4 ≠ 0 ∨ 0x80000 ≤ a) →
    (s.host = .read width a :: rest ∨ s.host = .write width a w :: rest) →
    step s = .fault .busWidth ∨ step s = .fault .busMisaligned ∨ step s = .fault .busOutside

/-- R67: an accepted read changes nothing but the host's own record, and the same read again returns the same word. -/
def Obligations.ReadsAreHarmlessAndIdempotent : Prop :=
  ∀ (s : State) (a : Nat) (rest : List BusAccess), a % 4 = 0 → a < 0x80000 →
    s.host = .read .word a :: .read .word a :: rest →
    ∃ x, step s = .next { s with host := .read .word a :: rest, readLog := x :: s.readLog } ∧
      step { s with host := .read .word a :: rest, readLog := x :: s.readLog } =
        .next { s with host := rest, readLog := x :: x :: s.readLog }

/-- R61: the addresses and values of the named registers; CMD reads as 0 (R21). -/
def Obligations.RegisterMapReads : Prop :=
  ∀ (s : State) (a : Nat) (v : Word) (rest : List BusAccess),
    (a, v) ∈ [(0x0000, 0#32), (0x0004, s.arg), (0x0008, statusWord s.status), (0x000C, 0#32), (0x0010, s.srate),
      (0x0014, s.dlLen), (0x0018, s.cursor), (0x001C, s.baseDelay), (0x0020, s.depthS), (0x0024, s.feedbackRt),
      (0x0028, s.cycleLen), (0x002C, s.lfoScale), (0x0030, s.phaseOff), (0x0034, s.waveRt)] →
    s.host = .read .word a :: rest → step s = .next { s with host := rest, readLog := v :: s.readLog }

/-- R61, R67: reserved words read 0, and so do the words of the gain, IN and OUT windows past the last implemented
entry. -/
def Obligations.ReservedWordsReadZero : Prop :=
  ∀ (s : State) (a : Nat) (rest : List BusAccess), a % 4 = 0 →
    (a = 0xC ∨ (0x38 ≤ a ∧ a < 0x80) ∨ (0x180 ≤ a ∧ a < 0x1000) ∨
      (0x1000 + 4 * s.params.maxBlock.val ≤ a ∧ a < 0x4000) ∨ (0x24000 ≤ a ∧ a < 0x40000) ∨
      pastLastEntry s.params a) →
    s.host = .read .word a :: rest → step s = .next { s with host := rest, readLog := 0#32 :: s.readLog }

/-- R67, R61: writes to read-only registers, to GAIN_RT, to the DL window and to reserved words are ignored, the words
of the gain, IN and OUT windows past the last implemented entry among them. -/
def Obligations.ReadOnlyWritesIgnored : Prop :=
  ∀ (s : State) (a : Nat) (w : Word) (rest : List BusAccess), a % 4 = 0 →
    ((0x8 ≤ a ∧ a < 0x80) ∨ (0x100 ≤ a ∧ a < 0x1000) ∨ (0x1000 + 4 * s.params.maxBlock.val ≤ a ∧ a < 0x4000) ∨
      (0x24000 ≤ a ∧ a < 0x80000) ∨ pastLastEntry s.params a) →
    s.host = .write .word a w :: rest → step s = .next { s with host := rest }

/-- R22, R44: a host write of ARG stores all 32 bits, and one of GAIN_IN[line][c] stores that entry verbatim; neither
changes anything else. A host read of GAIN_IN[line][c] or, by R45, of GAIN_RT[line][c] returns that entry. -/
def Obligations.ArgAndGainWritesStored : Prop :=
  (∀ (s : State) (w : Word) (rest : List BusAccess), s.host = .write .word 0x0004 w :: rest →
    step s = .next { s with host := rest, arg := w }) ∧
  ∀ (s : State) (line c : Nat) (w : Word) (rest : List BusAccess), line < 2 → c < s.params.nchMax.val →
    (s.host = .write .word (0x0080 + 0x40 * line + 4 * c) w :: rest →
      ∃ t, step s = .next t ∧ t = { s with host := rest, gainIn0 := t.gainIn0, gainIn1 := t.gainIn1 } ∧
        ∀ l k, l < 2 → k < 16 → gainInAt t l k = if l = line ∧ k = c then w else gainInAt s l k) ∧
    (s.host = .read .word (0x0080 + 0x40 * line + 4 * c) :: rest →
      step s = .next { s with host := rest, readLog := gainInAt s line c :: s.readLog }) ∧
    (s.host = .read .word (0x0100 + 0x40 * line + 4 * c) :: rest →
      step s = .next { s with
        host := rest
        readLog := gainAt (if line = 0 then s.gainRt0 else s.gainRt1) c :: s.readLog })

/-- R62: a host write of IN[i] stores the word there and no other byte changes; a host read returns the stored word. -/
def Obligations.InWindowStoresAndReturns : Prop :=
  ∀ (s : State) (i : Nat) (w : Word) (rest : List BusAccess), i < s.params.maxBlock.val →
    (memoryWf s.mem = true → s.host = .write .word (0x1000 + 4 * i) w :: rest →
      ∃ t, step s = .next t ∧ t = { s with host := rest, mem := t.mem } ∧
        wordAt t.mem (0x1000 + 4 * i) = some w ∧
        ∀ a, ¬ inWord (0x1000 + 4 * i) a → byteAt t.mem a = byteAt s.mem a) ∧
    (wordAt s.mem (0x1000 + 4 * i) = some w → s.host = .read .word (0x1000 + 4 * i) :: rest →
      step s = .next { s with host := rest, readLog := w :: s.readLog })

/-- R63: the same for OUT[c][i]. -/
def Obligations.OutWindowStoresAndReturns : Prop :=
  ∀ (s : State) (c i : Nat) (w : Word) (rest : List BusAccess), c < s.params.nchMax.val → i < s.params.maxBlock.val →
    (memoryWf s.mem = true → s.host = .write .word (0x4000 + 0x2000 * c + 4 * i) w :: rest →
      ∃ t, step s = .next t ∧ t = { s with host := rest, mem := t.mem } ∧
        wordAt t.mem (0x4000 + 0x2000 * c + 4 * i) = some w ∧
        ∀ a, ¬ inWord (0x4000 + 0x2000 * c + 4 * i) a → byteAt t.mem a = byteAt s.mem a) ∧
    (wordAt s.mem (0x4000 + 0x2000 * c + 4 * i) = some w →
      s.host = .read .word (0x4000 + 0x2000 * c + 4 * i) :: rest →
      step s = .next { s with host := rest, readLog := w :: s.readLog })

/-- R64: the DL window returns DL[k] while the word is in use, k < 2*DL_LEN, and 0 past that. That a word the RAM does
not have, k >= 2*DL_CAP, reads 0 also in a state whose DL_LEN exceeds the RAM is the model's choice
(notes/assumptions/10.md). Sample j of channel 0 is at k = j, of channel 1 at k = DL_LEN + j.
A write to the window changes nothing. -/
def Obligations.DlWindowReads : Prop :=
  (∀ (len : Word) (j : Nat), PowerOfTwo len.toNat → j < len.toNat →
    dlSlot len 0 (BitVec.ofNat 32 j) = j ∧ dlSlot len 1 (BitVec.ofNat 32 j) = len.toNat + j) ∧
  (∀ (s : State) (k : Nat) (w : Word) (rest : List BusAccess), k < 65536 →
    s.host = .write .word (0x40000 + 4 * k) w :: rest → step s = .next { s with host := rest }) ∧
  ∀ (s : State) (k : Nat) (rest : List BusAccess), k < 65536 → s.host = .read .word (0x40000 + 4 * k) :: rest →
    (k < 2 * s.dlLen.toNat → k < 2 * s.params.dlCap →
      ∃ w, wordAt s.mem (0x40000 + 4 * k) = some w ∧
        step s = .next { s with host := rest, readLog := w :: s.readLog }) ∧
    ((2 * s.dlLen.toNat ≤ k ∨ 2 * s.params.dlCap ≤ k) →
      step s = .next { s with host := rest, readLog := 0#32 :: s.readLog })

/-- R65: a buffer word's byte at offset i is bits 8*i+7 : 8*i (little-endian), on a write and on a read. -/
def Obligations.BufferWordsAreLittleEndian : Prop :=
  ∀ (m : Memory) (a : Nat) (w : Word) (i : Nat), i < 4 →
    (memoryWf m = true → byteAt (putWord a w m) (a + i) = some (w.extractLsb' (8 * i) 8)) ∧
    (wordAt m a = some w → byteAt m (a + i) = some (w.extractLsb' (8 * i) 8))

/-- R23, R24, R211: the layout of STATUS, the six codes of ERR, and the reserved bits, which read 0. -/
def Obligations.StatusWordLayout : Prop :=
  (errNumber .ok = 0 ∧ errNumber .invalidValue = 1 ∧ errNumber .invalidEnum = 2 ∧ errNumber .allocFail = 3 ∧
    errNumber .notReady = 4 ∧ errNumber .illegalCommand = 5) ∧
  ∀ st : Status,
    ((statusWord st).extractLsb' 0 4).toNat = errNumber st.err ∧ errNumber st.err ≤ 5 ∧
    (statusWord st).extractLsb' 4 4 = 0#4 ∧ (statusWord st).getLsbD 8 = st.configured ∧
    (statusWord st).getLsbD 9 = st.updated ∧ (statusWord st).getLsbD 10 = st.cfgFailed ∧
    (statusWord st).extractLsb' 11 21 = 0#21

/-! ### Reset and the lifecycle -/

/-- R51: the values of power-on; no IN or OUT byte holds a value (R102), and RESET changes no buffer. -/
def Obligations.PowerOnValues : Prop :=
  let s := State.reset
  s.arg = 0#32 ∧ statusWord s.status = 0#32 ∧ s.pWaveform = 1#32 ∧ s.pPhase = 0#32 ∧ s.pRate = 0x3F8CCCCD#32 ∧
  s.pDepth = 0x3DCCCCCD#32 ∧ s.pFeedback = 0x3E800000#32 ∧ s.pDelay = 0x3C83126F#32 ∧ s.srate = 0#32 ∧
  s.dlLen = 0#32 ∧ s.cursor = 0#32 ∧ s.baseDelay = 0#32 ∧ s.depthS = 0#32 ∧ s.feedbackRt = 0#32 ∧
  s.cycleLen = 1#32 ∧ s.lfoScale = 0#32 ∧ s.phaseOff = 0#32 ∧ s.waveRt = 1#32 ∧
  (∀ c, c < 16 → gainAt s.gainIn0 c = 0#32 ∧ gainAt s.gainIn1 c = 0#32 ∧ gainAt s.gainRt0 c = 0#32 ∧
    gainAt s.gainRt1 c = 0#32) ∧
  (∀ a, a < 0x40000 → byteAt s.mem a = none) ∧
  (∀ t : State, ∃ u, exec .reset t = .next u ∧ u.mem = t.mem)

/-- R100: RESET puts every register at its reset value in any state and writes no buffer word (the chip's parameters
and the host's own traffic are the model's fields, notes/assumptions/1.md, 2.md and 3.md); RESET twice is RESET once. -/
def Obligations.ResetCommandRestoresRegisters : Prop :=
  ∀ s : State, ∃ t, exec .reset s = .next t ∧
    t = { State.reset with params := s.params, mem := s.mem, host := s.host, readLog := s.readLog } ∧
    exec .reset t = .next t

/-- R101: RELEASE sets DL_LEN and the three flags to 0 and keeps everything else; after it UPDATE and PROCESS raise
NOT_READY, and the DL window reads 0. -/
def Obligations.ReleaseLetsTheLinesGo : Prop :=
  ∀ s : State, ∃ t, exec .release s = .next t ∧
    t = { s with dlLen := 0#32, status := { err := .ok, configured := false, updated := false, cfgFailed := false } } ∧
    exec .update t = .next { t with status := { t.status with err := .notReady } } ∧
    (∀ n nch, n ≤ t.params.maxBlock.val → nch ≤ t.params.nchMax.val →
      exec (.process n nch) t = .next { t with status := { t.status with err := .notReady } }) ∧
    (∀ k, dlWindow t k = 0#32)

/-! ### The delay-line store and DEVCHG -/

/-- R111: nextPow2 n is the smallest power of two that is at least n; the rule's values and its bound. -/
def Obligations.NextPow2IsLeast : Prop :=
  (∀ n, 1 ≤ n → PowerOfTwo (nextPow2 n) ∧ n ≤ nextPow2 n ∧ ∀ m, PowerOfTwo m → n ≤ m → nextPow2 n ≤ m) ∧
  nextPow2 1 = 1 ∧ nextPow2 2 = 2 ∧ nextPow2 3 = 4 ∧ nextPow2 1412 = 2048 ∧ nextPow2 2048 = 2048 ∧
  (∀ r, legalSampleRate r = true → floorI (fmul 0x3D03126F#32 (u2f r)) + 1 ≤ 6145 ∧
    nextPow2 (floorI (fmul 0x3D03126F#32 (u2f r)) + 1) ≤ 8192) ∧
  floorI (fmul 0x3D03126F#32 (u2f (BitVec.ofNat 32 Config.srMax))) + 1 = 6145

/-- R112: the rule's table of sample rates, and fmul(MAX_DELAY, 2.0). -/
def Obligations.RequiredLengthTable : Prop :=
  fmul Config.maxDelay 0x40000000#32 = 0x3D03126F#32 ∧
  ∀ row ∈ [(8000, 257, 512), (11025, 353, 512), (22050, 706, 1024), (32000, 1025, 2048), (44100, 1412, 2048),
      (48000, 1537, 2048), (88200, 2823, 4096), (96000, 3073, 4096), (176400, 5645, 8192), (192000, 6145, 8192)],
    floorI (fmul 0x3D03126F#32 (u2f (BitVec.ofNat 32 row.1))) + 1 = row.2.1 ∧
    requiredLength (BitVec.ofNat 32 row.1) = row.2.2

/-- R111, R118: every legal rate needs a length from 512 to 8192, so that with the default DL_CAP every legal DEVCHG
succeeds. -/
def Obligations.LegalRatesFitDefaultCapacity : Prop :=
  ∀ r : Word, legalSampleRate r = true →
    512 ≤ requiredLength r ∧ requiredLength r ≤ 8192 ∧
    ∀ s : State, s.arg = r → s.params = Params.standard →
      ∃ t, exec .devchg s = .next t ∧ t.status.err = .ok ∧ t.status.configured = true

/-- R113: resize fails above DL_CAP and otherwise sets DL_LEN and clears both lines, every other byte kept. -/
def Obligations.ResizeFitsOrFails : Prop :=
  ∀ (n : Nat) (s : State), 1 ≤ n →
    (s.params.dlCap < nextPow2 n → resize n s = none) ∧
    (nextPow2 n ≤ s.params.dlCap → ∃ t, resize n s = some t ∧ t = { s with dlLen := t.dlLen, mem := t.mem } ∧
      t.dlLen.toNat = nextPow2 n ∧
      (∀ k, k < 2 * nextPow2 n → wordAt t.mem (dlAddr k) = some 0#32) ∧
      (∀ a, a < 0x40000 ∨ 0x40000 + 8 * nextPow2 n ≤ a → byteAt t.mem a = byteAt s.mem a))

/-- R115, R116: a rate outside [8000, 192000] fails with INVALID_VALUE and the failure flags, everything else kept. -/
def Obligations.DevchgRefusesRate : Prop :=
  ∀ s : State, s.arg.toNat < 8000 ∨ 192000 < s.arg.toNat →
    exec .devchg s = .next { s with status :=
      { err := .invalidValue, configured := false, updated := false, cfgFailed := true } }

/-- R215, R116: a required length that differs from DL_LEN and exceeds DL_CAP fails with ALLOC_FAIL and the failure
flags, everything else kept. -/
def Obligations.DevchgReportsAllocFail : Prop :=
  ∀ s : State, 8000 ≤ s.arg.toNat → s.arg.toNat ≤ 192000 → requiredLength s.arg ≠ s.dlLen.toNat →
    s.params.dlCap < requiredLength s.arg →
    exec .devchg s = .next { s with status :=
      { err := .allocFail, configured := false, updated := false, cfgFailed := true } }

/-- R115: a DEVCHG that fits latches the rate and the length, clears both lines to +0.0, writes the flags, and keeps
everything else, every other byte included. -/
def Obligations.DevchgSizesAndClears : Prop :=
  ∀ s : State, 8000 ≤ s.arg.toNat → s.arg.toNat ≤ 192000 →
    (requiredLength s.arg = s.dlLen.toNat ∨ requiredLength s.arg ≤ s.params.dlCap) →
    ∃ t, exec .devchg s = .next t ∧
      t = { s with srate := s.arg, dlLen := BitVec.ofNat 32 (requiredLength s.arg), mem := t.mem, status :=
        { err := .ok, configured := true, updated := false, cfgFailed := false } } ∧
      t.dlLen.toNat = requiredLength s.arg ∧
      (∀ k, k < 2 * requiredLength s.arg → wordAt t.mem (dlAddr k) = some 0#32) ∧
      (∀ a, a < 0x40000 ∨ 0x40000 + 8 * requiredLength s.arg ≤ a → byteAt t.mem a = byteAt s.mem a)

/-! ### UPDATE -/

/-- R120, R216: UPDATE on a core that is not configured writes ERR and nothing else. -/
def Obligations.UpdateNeedsConfigured : Prop :=
  ∀ s : State, s.status.configured = false →
    exec .update s = .next { s with status := { s.status with err := .notReady } }

/-- R121 to R124, R126 to R130: with a positive rate UPDATE writes every run-time register by its formula, and keeps
everything else. -/
def Obligations.UpdateWritesCoefficients : Prop :=
  ∀ s : State, s.status.configured = true → flt 0#32 s.pRate = true →
    exec .update s = .next { s with
      waveRt := s.pWaveform
      baseDelay := roundS32 (fmul s.pDelay (u2f s.srate))
      depthS := fmul s.pDepth (i2f (roundS32 (fmul s.pDelay (u2f s.srate))))
      feedbackRt := s.pFeedback
      cycleLen := cycleLength s.srate s.pRate
      lfoScale := scaleFor s.pWaveform (cycleLength s.srate s.pRate)
      phaseOff := phaseOffset (cycleLength s.srate s.pRate) s.pPhase
      gainRt0 := s.gainIn0
      gainRt1 := s.gainIn1
      status := { s.status with err := .ok, updated := true } }

/-- R125: with a rate that is not positive UPDATE disables the LFO; the other registers as ever. -/
def Obligations.UpdateDisablesLfo : Prop :=
  ∀ s : State, s.status.configured = true → flt 0#32 s.pRate = false →
    exec .update s = .next { s with
      waveRt := s.pWaveform
      baseDelay := roundS32 (fmul s.pDelay (u2f s.srate))
      depthS := fmul s.pDepth (i2f (roundS32 (fmul s.pDelay (u2f s.srate))))
      feedbackRt := s.pFeedback
      cycleLen := 1#32
      lfoScale := 0#32
      phaseOff := 0#32
      gainRt0 := s.gainIn0
      gainRt1 := s.gainIn1
      status := { s.status with err := .ok, updated := true } }

/-- R120: two UPDATEs with no change between give the same state as one. -/
def Obligations.UpdateIsIdempotent : Prop :=
  ∀ s t : State, s.status.configured = true → exec .update s = .next t → exec .update t = .next t

/-- R122, R118: for every legal delay and rate the base delay is at most 3072, and twice it fits the line. -/
def Obligations.BaseDelayFitsLine : Prop :=
  ∀ d r : Word, legalDelay d = true → legalSampleRate r = true →
    (roundS32 (fmul d (u2f r))).toNat ≤ 3072 ∧ 2 * (roundS32 (fmul d (u2f r))).toNat ≤ requiredLength r

/-- R126: for every legal positive rate the cycle length is from 800 to CYCLE_MAX; the rule's examples. -/
def Obligations.CycleLengthRange : Prop :=
  (∀ r v : Word, legalSampleRate r = true → legalRate v = true → flt 0#32 v = true →
    800 ≤ (cycleLength r v).toNat ∧ (cycleLength r v).toNat ≤ 2147483648) ∧
  cycleLength 44100#32 0x3F8CCCCD#32 = 40091#32 ∧ cycleLength 44100#32 0x41200000#32 = 4410#32 ∧
  cycleLength 8000#32 0x41200000#32 = 800#32 ∧ cycleLength 192000#32 0x3851B717#32 = 2147483648#32

/-- R128: for every legal phase and cycle length the phase offset is at most the cycle length; the rule's examples. -/
def Obligations.PhaseOffsetWithinCycle : Prop :=
  (∀ c ph : Word, 800 ≤ c.toNat → c.toNat ≤ 2147483648 → legalPhase ph = true →
    (phaseOffset c ph).toNat ≤ c.toNat) ∧
  phaseOffset 40091#32 0#32 = 0#32 ∧ phaseOffset 40091#32 90#32 = 10023#32 ∧
  phaseOffset 40091#32 180#32 = 20046#32 ∧ phaseOffset 40091#32 0xFFFFFF4C#32 = 20046#32 ∧
  phaseOffset 40091#32 0xFFFFFFA6#32 = 30068#32 ∧ phaseOffset 40091#32 0xFFFFFFFF#32 = 39980#32 ∧
  phaseOffset 4410#32 180#32 = 2205#32

/-! ### The LFO -/

/-- R142: the counters start at o0, move by one and wrap modulo the cycle length; with cycle length 1 all are 0. -/
def Obligations.LfoCountersAdvance : Prop :=
  ∀ o0 cycle i : Nat, o0 < cycle →
    lfoCounter o0 cycle 0 = o0 ∧ lfoCounter o0 cycle (i + 1) = (lfoCounter o0 cycle i + 1) % cycle ∧
    lfoCounter o0 cycle i = (o0 + i) % cycle ∧
    lfoCounter o0 cycle i < cycle ∧ (cycle = 1 → lfoCounter o0 cycle i = 0)

/-- R145: the sine obeys the laws (a) and (b) whatever the free value is. -/
def Obligations.SineObeysItsLaws : Prop :=
  (∀ x : Word, fle 0#32 x = true → fle x 0x40C99999#32 = true →
    fle 0xBF800000#32 (sinF32 x) = true ∧ fle (sinF32 x) 0x3F800000#32 = true) ∧
  sinF32 0#32 = 0#32

/-- R147: each channel's delays have the period of the cycle length, as long as the CURSOR does not pass 2^32 - 1. -/
def Obligations.DelaysArePeriodic : Prop :=
  ∀ (s : State) (p : Word) (n : Nat), p.toNat + s.phaseOff.toNat + s.cycleLen.toNat < 2 ^ 32 →
    lfoRun s (startCounter0 s (p + s.cycleLen)) n = lfoRun s (startCounter0 s p) n ∧
    lfoRun s (startCounter1 s (p + s.cycleLen)) n = lfoRun s (startCounter1 s p) n ∧
    lfoRun s (startCounter1 s p) n = lfoRun s (startCounter0 s (p + s.phaseOff)) n

/-- R148: with the LFO disabled every delay is BASE_DELAY for the sinusoid and BASE_DELAY - roundI(DEPTH_S) for the
triangle, for a finite DEPTH_S that an s32 holds. -/
def Obligations.DisabledLfoDelayIsConstant : Prop :=
  ∀ (s : State) (p : Word) (n : Nat) (d : Word), s.cycleLen = 1#32 → s.lfoScale = 0#32 →
    fIsFinite s.depthS = true → -2147483648 < roundInt s.depthS → roundInt s.depthS < 2147483648 →
    (d ∈ lfoRun s (startCounter0 s p) n ∨ d ∈ lfoRun s (startCounter1 s p) n) →
    (s.waveRt = 0#32 → d = s.baseDelay) ∧
    (s.waveRt = 1#32 → d = s.baseDelay - BitVec.ofInt 32 (roundInt s.depthS))

/-- R118, R146: in a state that meets the invariants and is updated, every delay of either channel lies in
[0, DL_LEN]. -/
def Obligations.DelaysStayWithinLine : Prop :=
  ∀ (s : State) (p : Word) (n : Nat) (d : Word), Inv s → s.status.updated = true →
    (d ∈ lfoRun s (startCounter0 s p) n ∨ d ∈ lfoRun s (startCounter1 s p) n) → d.toNat ≤ s.dlLen.toNat

/-! ### PROCESS -/

/-- R160, R213, R216: PROCESS with operands out of range writes INVALID_VALUE, else on a core that is not ready writes
NOT_READY, else with no sample to run writes OK, whatever the buffers hold; and each writes nothing else. -/
def Obligations.ProcessThatRunsNoSampleWritesOnlyErr : Prop :=
  ∀ (s : State) (n nch : Nat),
    ((s.params.maxBlock.val < n ∨ s.params.nchMax.val < nch) →
      exec (.process n nch) s = .next { s with status := { s.status with err := .invalidValue } }) ∧
    (n ≤ s.params.maxBlock.val → nch ≤ s.params.nchMax.val →
      (s.status.configured = false ∨ s.status.updated = false) →
      exec (.process n nch) s = .next { s with status := { s.status with err := .notReady } }) ∧
    (nch ≤ s.params.nchMax.val → s.status.configured = true → s.status.updated = true →
      exec (.process 0 nch) s = .next { s with status := { s.status with err := .ok } })

/-- R160, R166, R243: PROCESS on a ready core whose line fits the RAM and whose IN and OUT words are written completes,
moves the CURSOR by n and writes ERR, and changes no other register. -/
def Obligations.ProcessCompletes : Prop :=
  ∀ (s : State) (n nch : Nat), n ≤ s.params.maxBlock.val → nch ≤ s.params.nchMax.val →
    s.status.configured = true → s.status.updated = true →
    PowerOfTwo s.dlLen.toNat → s.dlLen.toNat ≤ s.params.dlCap → processInputsWritten s n nch →
    ∃ t, exec (.process n nch) s = .next t ∧
      t = { s with mem := t.mem, cursor := s.cursor + BitVec.ofNat 32 n, status := { s.status with err := .ok } }

/-- R169: what PROCESS changes, in full: the bytes of its n samples' slots and of the audible channels' OUT words, the
CURSOR and ERR; on an error, ERR alone. -/
def Obligations.ProcessFrame : Prop :=
  ∀ (s t : State) (n nch : Nat), exec (.process n nch) s = .next t →
    t = { s with mem := t.mem, cursor := t.cursor, status := { s.status with err := t.status.err } } ∧
    (∀ a, ¬ processStores s n nch a → byteAt t.mem a = byteAt s.mem a) ∧
    (t.status.err = .ok → t.cursor = s.cursor + BitVec.ofNat 32 n) ∧
    (t.status.err ≠ .ok → t.mem = s.mem ∧ t.cursor = s.cursor)

/-- R161 to R168, R170: what PROCESS stores, sample by sample. Each word of either line is the one that the n samples in
order leave there, each sample seeing what the earlier ones wrote and each run of 128 starting its LFO counters from the
CURSOR; each OUT word takes line 0's term of its sample and then line 1's, each where its gain is audible. -/
def Obligations.ProcessStoresEverySample : Prop :=
  ∀ (s : State) (n nch : Nat), n ≤ s.params.maxBlock.val → nch ≤ s.params.nchMax.val →
    s.status.configured = true → s.status.updated = true →
    PowerOfTwo s.dlLen.toNat → s.dlLen.toNat ≤ s.params.dlCap → processInputsWritten s n nch →
    memoryWf s.mem = true →
    ∃ t, exec (.process n nch) s = .next t ∧ t.cursor = s.cursor + BitVec.ofNat 32 n ∧
      (∀ line k, line < 2 → k < s.dlLen.toNat →
        wordAt t.mem (dlAddr (line * s.dlLen.toNat + k)) = some (lineAfter s line n k)) ∧
      (∀ c i o, c < nch → i < n → wordAt s.mem (outAddr c i) = some o →
        wordAt t.mem (outAddr c i) = some (mixTerm (gainAt s.gainRt1 c) (wetAt s 1 i)
          (mixTerm (gainAt s.gainRt0 c) (wetAt s 0 i) o)))

/-- R102, R229: PROCESS on a ready core whose line fits the RAM stops with a fault as soon as any IN word it needs, or
any OUT word it accumulates into, has been set by no host write, and the fault names such a word. That it names the first
one met is the model's choice (notes/assumptions/15.md): IN[0], and OUT[0][0] once the IN words are all set. -/
def Obligations.ProcessFaultsOnUnwrittenWords : Prop :=
  ∀ (s : State) (n nch : Nat), n ≤ s.params.maxBlock.val → nch ≤ s.params.nchMax.val →
    s.status.configured = true → s.status.updated = true →
    (PowerOfTwo s.dlLen.toNat → s.dlLen.toNat ≤ s.params.dlCap → ¬ processInputsWritten s n nch →
      (∃ i, i < n ∧ wordAt s.mem (inAddr i) = none ∧ exec (.process n nch) s = .fault (.unwrittenIn i)) ∨
      (∃ c i, c < nch ∧ i < n ∧ (audible (gainAt s.gainRt0 c) = true ∨ audible (gainAt s.gainRt1 c) = true) ∧
        wordAt s.mem (outAddr c i) = none ∧ exec (.process n nch) s = .fault (.unwrittenOut c i))) ∧
    (0 < n → wordAt s.mem (inAddr 0) = none → exec (.process n nch) s = .fault (.unwrittenIn 0)) ∧
    (PowerOfTwo s.dlLen.toNat → s.dlLen.toNat ≤ s.params.dlCap → 0 < n → 0 < nch →
      (∀ i, i < n → (wordAt s.mem (inAddr i)).isSome = true) →
      audible (gainAt s.gainRt0 0) = true → wordAt s.mem (outAddr 0 0) = none →
      exec (.process n nch) s = .fault (.unwrittenOut 0 0))

/-- R168: a gain is audible only if its magnitude is above GAIN_SILENCE: a zero, a NaN and any encoding up to
0x3727C5AC, of either sign, are not. -/
def Obligations.SilenceThresholdByEncoding : Prop :=
  ∀ g : Word, audible g = true ↔ 0x3727C5AC < g.toNat % 2 ^ 31 ∧ g.toNat % 2 ^ 31 ≤ 0x7F800000

/-- R161: the sub-blocks start at 0, 128, 256, ..., each has min(128, n - start) samples, at least one, and together
they are the n samples. -/
def Obligations.SubBlocksCoverTheBlock : Prop :=
  ∀ n : Nat,
    (subBlocks n).length = (n + 127) / 128 ∧
    (∀ j, j < (n + 127) / 128 → (subBlocks n)[j]? = some (128 * j, min 128 (n - 128 * j)) ∧
      1 ≤ min 128 (n - 128 * j)) ∧
    ((subBlocks n).map Prod.snd).sum = n

/-! ### The accessors -/

/-- R191, R192, R190: SETP.WAVEFORM and SETP.PHASE accept exactly the legal integers, store them bit for bit, and on
any other value write INVALID_VALUE and nothing else. -/
def Obligations.SetpIntegersByEncoding : Prop :=
  ∀ s : State,
    exec .setpWaveform s = .next (if s.arg.toNat ≤ 1 then
        { s with pWaveform := s.arg, status := { s.status with err := .ok } }
      else { s with status := { s.status with err := .invalidValue } }) ∧
    exec .setpPhase s = .next (if s.arg.toNat ≤ 180 ∨ 0xFFFFFF4C ≤ s.arg.toNat then
        { s with pPhase := s.arg, status := { s.status with err := .ok } }
      else { s with status := { s.status with err := .invalidValue } })

/-- R193 to R196, R190: the four binary32 SETPs accept exactly the encodings of their closed intervals (-0.0 among
them, no NaN, no infinity), store them bit for bit, and on any other value write INVALID_VALUE and nothing else. -/
def Obligations.SetpBinary32ByEncoding : Prop :=
  ∀ s : State,
    exec .setpRate s = .next (if s.arg.toNat ≤ 0x41200000 ∨ s.arg = 0x80000000#32 then
        { s with pRate := s.arg, status := { s.status with err := .ok } }
      else { s with status := { s.status with err := .invalidValue } }) ∧
    exec .setpDepth s = .next (if s.arg.toNat ≤ 0x3F800000 ∨ s.arg = 0x80000000#32 then
        { s with pDepth := s.arg, status := { s.status with err := .ok } }
      else { s with status := { s.status with err := .invalidValue } }) ∧
    exec .setpFeedback s = .next (if s.arg.toNat ≤ 0x3F800000 ∨
          (0x80000000 ≤ s.arg.toNat ∧ s.arg.toNat ≤ 0xBF800000) then
        { s with pFeedback := s.arg, status := { s.status with err := .ok } }
      else { s with status := { s.status with err := .invalidValue } }) ∧
    exec .setpDelay s = .next (if s.arg.toNat ≤ 0x3C83126F ∨ s.arg = 0x80000000#32 then
        { s with pDelay := s.arg, status := { s.status with err := .ok } }
      else { s with status := { s.status with err := .invalidValue } })

/-- R197 to R202: the six GETP words, what each writes to ARG, and their values after reset. -/
def Obligations.GetpReturnsParameter : Prop :=
  (decode 0x70010000#32 = .ok .getpWaveform ∧ decode 0x70020000#32 = .ok .getpPhase ∧
    decode 0x70030000#32 = .ok .getpRate ∧ decode 0x70040000#32 = .ok .getpDepth ∧
    decode 0x70050000#32 = .ok .getpFeedback ∧ decode 0x70060000#32 = .ok .getpDelay) ∧
  (∀ s : State,
    exec .getpWaveform s = .next { s with arg := s.pWaveform, status := { s.status with err := .ok } } ∧
    exec .getpPhase s = .next { s with arg := s.pPhase, status := { s.status with err := .ok } } ∧
    exec .getpRate s = .next { s with arg := s.pRate, status := { s.status with err := .ok } } ∧
    exec .getpDepth s = .next { s with arg := s.pDepth, status := { s.status with err := .ok } } ∧
    exec .getpFeedback s = .next { s with arg := s.pFeedback, status := { s.status with err := .ok } } ∧
    exec .getpDelay s = .next { s with arg := s.pDelay, status := { s.status with err := .ok } }) ∧
  (State.reset.pWaveform = 0x00000001#32 ∧ State.reset.pPhase = 0x00000000#32 ∧
    State.reset.pRate = 0x3F8CCCCD#32 ∧ State.reset.pDepth = 0x3DCCCCCD#32 ∧
    State.reset.pFeedback = 0x3E800000#32 ∧ State.reset.pDelay = 0x3C83126F#32)

/-! ### Binary32 -/

/-- R11: the rounding every operation ends in gives the binary32 magnitude nearest the exact fraction (in units of
2^-149), ties to even, and the infinity exactly from half a unit in the last place above the largest finite value; where the infinity begins R11 leaves to IEEE 754, and the
model takes it from there (notes/assumptions/11.md). -/
def Obligations.RoundingIsNearestTiesToEven : Prop :=
  ∀ num den : Nat, 0 < den →
    (roundMag num den < 0x7F800000 → ∀ m, m < 0x7F800000 → m ≠ roundMag num den →
      |(num : Int) - unitsOfMag (roundMag num den) * den| < |(num : Int) - unitsOfMag m * den| ∨
      (|(num : Int) - unitsOfMag (roundMag num den) * den| = |(num : Int) - unitsOfMag m * den| ∧
        roundMag num den % 2 = 0)) ∧
    (roundMag num den = 0x7F800000 ↔ (2 ^ 25 - 1) * 2 ^ 253 * den ≤ 2 * num)

/-- R12: roundI of a finite value is the nearest integer, ties to even; the rule's examples 2.5, 3.5 and -0.5. -/
def Obligations.RoundIntIsNearestTiesToEven : Prop :=
  (∀ x : Word, fIsFinite x = true →
    2 * |fValue x - roundInt x * 2 ^ 149| ≤ 2 ^ 149 ∧
    (2 * |fValue x - roundInt x * 2 ^ 149| = 2 ^ 149 → roundInt x % 2 = 0)) ∧
  roundInt 0x40200000#32 = 2 ∧ roundInt 0x40600000#32 = 4 ∧ roundInt 0xBF000000#32 = 0

/-! ### Rules of the whole machine -/

/-- R212: a command that ends in an error leaves every register and every byte as it was but ERR, and the three flags
for a DEVCHG. -/
def Obligations.ErrorsChangeOnlyStatus : Prop :=
  ∀ (i : Instr) (s t : State), exec i s = .next t → t.status.err ≠ .ok →
    t = { s with status := t.status } ∧ (i ≠ .devchg → t.status = { s.status with err := t.status.err })

/-- R241, R22, R36, R69: which commands may write which state; no command touches the chip's parameters or the host's
own traffic (the model's fields, notes/assumptions/1.md to 3.md). -/
def Obligations.OnlyNamedCommandsWrite : Prop :=
  ∀ (i : Instr) (s t : State), exec i s = .next t →
    (i ∉ [.reset, .getpWaveform, .getpPhase, .getpRate, .getpDepth, .getpFeedback, .getpDelay] → t.arg = s.arg) ∧
    (i ∉ [.reset, .setpWaveform] → t.pWaveform = s.pWaveform) ∧
    (i ∉ [.reset, .setpPhase] → t.pPhase = s.pPhase) ∧
    (i ∉ [.reset, .setpRate] → t.pRate = s.pRate) ∧
    (i ∉ [.reset, .setpDepth] → t.pDepth = s.pDepth) ∧
    (i ∉ [.reset, .setpFeedback] → t.pFeedback = s.pFeedback) ∧
    (i ∉ [.reset, .setpDelay] → t.pDelay = s.pDelay) ∧
    (i ∉ [.reset, .devchg] → t.srate = s.srate) ∧
    (i ∉ [.reset, .release, .devchg] → t.dlLen = s.dlLen) ∧
    (i ≠ .reset → (∀ n nch, i ≠ .process n nch) → t.cursor = s.cursor) ∧
    (i ∉ [.reset, .update] → t.baseDelay = s.baseDelay ∧ t.depthS = s.depthS ∧ t.feedbackRt = s.feedbackRt ∧
      t.cycleLen = s.cycleLen ∧ t.lfoScale = s.lfoScale ∧ t.phaseOff = s.phaseOff ∧ t.waveRt = s.waveRt ∧
      t.gainRt0 = s.gainRt0 ∧ t.gainRt1 = s.gainRt1) ∧
    (i ≠ .reset → t.gainIn0 = s.gainIn0 ∧ t.gainIn1 = s.gainIn1) ∧
    (i ≠ .devchg → (∀ n nch, i ≠ .process n nch) → t.mem = s.mem) ∧
    (i ∉ [.reset, .release, .devchg, .update] → t.status.configured = s.status.configured ∧
      t.status.updated = s.status.updated ∧ t.status.cfgFailed = s.status.cfgFailed) ∧
    (∀ a, inBase ≤ a → a < 0x3000 → byteAt t.mem a = byteAt s.mem a) ∧
    t.params = s.params ∧ t.host = s.host ∧ t.readLog = s.readLog

/-! ### Invariants -/

/-- R50, R51: the invariants hold after power-on (BufferInv is the model's form, notes/assumptions/7.md). -/
def Obligations.PowerOnMeetsInvariants : Prop := Inv State.reset

/-- Every step keeps the buffers in canonical form and inside their windows (the form is the model's,
notes/assumptions/7.md). -/
def Obligations.StepKeepsBuffersCanonical : Prop :=
  ∀ s t : State, BufferInv s → step s = .next t → BufferInv t

/-- R117, R50, R25, R26, R28 to R33: every step keeps DL_LEN 0 or a power of two no greater than DL_CAP, UPDATED
implying CONFIGURED, a configured core at a legal rate with the length that rate needs, and every effect parameter
legal. -/
def Obligations.StepKeepsRegistersLegal : Prop :=
  ∀ s t : State, LengthInv s ∧ FlagInv s ∧ ParamInv s → step s = .next t → LengthInv t ∧ FlagInv t ∧ ParamInv t

/-- R50, R40, R42, R131: every step keeps all the invariants, the ranges of the run-time coefficients among them
(BufferInv is the model's form, notes/assumptions/7.md). -/
def Obligations.StepKeepsInvariants : Prop :=
  ∀ s t : State, Inv s → step s = .next t → Inv t

/-! ### The arithmetic as a whole -/

/-- R11: on finite operands every operation is its exact result rounded once (roundMag, which RoundingIsNearestTiesToEven
describes), and an operation that has a NaN operand or a NaN result delivers 0x7FC00000. The sign of a zero product or
quotient and the exclusion of a zero divisor are IEEE 754's (notes/assumptions/11.md). -/
def Obligations.OperationsRoundTheExactResult : Prop :=
  (∀ a b : Word, fIsFinite a = true → fIsFinite b = true →
    (fMag (fadd a b) = roundMag (fValue a + fValue b).natAbs 1 ∧
      (fValue a + fValue b ≠ 0 → fNeg (fadd a b) = decide (fValue a + fValue b < 0))) ∧
    (fMag (fsub a b) = roundMag (fValue a - fValue b).natAbs 1 ∧
      (fValue a - fValue b ≠ 0 → fNeg (fsub a b) = decide (fValue a - fValue b < 0))) ∧
    (fMag (fmul a b) = roundMag (fUnits a * fUnits b) (2 ^ 149) ∧ fNeg (fmul a b) = (fNeg a != fNeg b)) ∧
    (fMag b ≠ 0 → fMag (fdiv a b) = roundMag (fUnits a * 2 ^ 149) (fUnits b) ∧
      fNeg (fdiv a b) = (fNeg a != fNeg b))) ∧
  (∀ n : Word, fMag (u2f n) = roundMag (n.toNat * 2 ^ 149) 1 ∧ fNeg (u2f n) = false ∧
    fMag (i2f n) = roundMag (n.toInt.natAbs * 2 ^ 149) 1 ∧ fNeg (i2f n) = decide (n.toInt < 0)) ∧
  (∀ a b r : Word, r ∈ [fadd a b, fsub a b, fmul a b, fdiv a b] →
    fIsNan a = true ∨ fIsNan b = true ∨ fIsNan r = true → r = 0x7FC00000#32)
end

