-- ==== Sys2Proof/Laws/Binary32.lean ====
section
/-!
SUPPORT. Laws of the rounding that every binary32 operation goes through once: it is monotone in the exact fraction,
and it gives back the encoding of any value that has one.
-/
namespace Sys2Proof.Machine

/-! ### Nearest integer, ties to even -/

theorem nearestEven_ge_floor (num den : Nat) : num / den ≤ nearestEven num den := by
  unfold nearestEven; split_ifs <;> omega

theorem nearestEven_le_succ (num den : Nat) : nearestEven num den ≤ num / den + 1 := by
  unfold nearestEven; split_ifs <;> omega

/-- A larger fraction rounds to no smaller integer. -/
theorem nearestEven_mono {n1 d1 n2 d2 : Nat} (h1 : 0 < d1) (h2 : 0 < d2) (h : n1 * d2 ≤ n2 * d1) :
    nearestEven n1 d1 ≤ nearestEven n2 d2 := by
  have hq : n1 / d1 ≤ n2 / d2 := by
    rw [Nat.le_div_iff_mul_le h2]
    have : n1 / d1 * d1 ≤ n1 := Nat.div_mul_le_self _ _
    have h3 : n1 / d1 * d1 * d2 ≤ n2 * d1 := le_trans (Nat.mul_le_mul_right _ this) h
    have h4 : (n1 / d1 * d2) * d1 ≤ n2 * d1 := by nlinarith
    exact Nat.le_of_mul_le_mul_right h4 h1
  rcases Nat.lt_or_eq_of_le hq with hlt | heq
  · have := nearestEven_le_succ n1 d1
    have := nearestEven_ge_floor n2 d2
    omega
  · have e1 := Nat.div_add_mod n1 d1
    have e2 := Nat.div_add_mod n2 d2
    have hr : n1 % d1 * d2 ≤ n2 % d2 * d1 := by
      have : (d1 * (n2 / d2) + n1 % d1) * d2 ≤ (d2 * (n2 / d2) + n2 % d2) * d1 := by
        rw [← heq, e1, heq, e2]; exact h
      nlinarith
    have hhalf : d1 ≤ 2 * (n1 % d1) → d2 ≤ 2 * (n2 % d2) := by
      intro ha
      by_contra hb
      have hb' : 2 * (n2 % d2) < d2 := by omega
      have : d1 * d2 ≤ 2 * (n1 % d1) * d2 := Nat.mul_le_mul_right _ ha
      have : 2 * (n2 % d2) * d1 < d2 * d1 := Nat.mul_lt_mul_of_pos_right hb' h1
      nlinarith
    have hover : d1 < 2 * (n1 % d1) → d2 < 2 * (n2 % d2) := by
      intro ha
      by_contra hb
      have hb' : 2 * (n2 % d2) ≤ d2 := by omega
      have : d1 * d2 < 2 * (n1 % d1) * d2 := Nat.mul_lt_mul_of_pos_right ha h2
      have : 2 * (n2 % d2) * d1 ≤ d2 * d1 := Nat.mul_le_mul_right _ hb'
      nlinarith
    unfold nearestEven
    rw [← heq]
    split_ifs <;> omega

/-- A whole number of denominators rounds to that number. -/
@[simp] theorem nearestEven_mul (k d : Nat) (h : 0 < d) : nearestEven (k * d) d = k := by
  unfold nearestEven
  rw [Nat.mul_mod_left, Nat.mul_div_cancel _ h]
  simp [h]

/-! ### Magnitudes -/

theorem unitsOfMag_small {m : Nat} (h : m < 2 ^ 23) : unitsOfMag m = m := by
  unfold unitsOfMag; rw [if_pos (Nat.div_eq_of_lt h)]

/-- A magnitude encoding from its quantum `s` and its 24-bit count `r` of quanta. -/
theorem unitsOfMag_scaled {s r : Nat} (h1 : 2 ^ 23 ≤ r) (h2 : r < 2 ^ 24) :
    unitsOfMag (s * 2 ^ 23 + r) = r * 2 ^ s := by
  have hd : (s * 2 ^ 23 + r) / 2 ^ 23 = s + 1 := by omega
  have hm : (s * 2 ^ 23 + r) % 2 ^ 23 = r - 2 ^ 23 := by omega
  unfold unitsOfMag
  rw [hd, hm, if_neg (by omega)]
  congr 1
  omega

/-- Every encoding is a quantum and a count: either subnormal, or with 24 bits. -/
theorem mag_cases (m : Nat) : m < 2 ^ 23 ∨ ∃ s r, m = s * 2 ^ 23 + r ∧ 2 ^ 23 ≤ r ∧ r < 2 ^ 24 := by
  rcases Nat.lt_or_ge m (2 ^ 23) with h | h
  · exact Or.inl h
  · exact Or.inr ⟨m / 2 ^ 23 - 1, m % 2 ^ 23 + 2 ^ 23, by omega, by omega, by omega⟩

/-- The quantum a fraction is rounded at. -/
def quantum (num den : Nat) : Nat := (num / den).log2 - 23

theorem roundMag_eq (num den : Nat) :
    roundMag num den = min (quantum num den * 2 ^ 23 + nearestEven num (den * 2 ^ quantum num den)) 0x7F800000 := rfl

/-- With its quantum, a fraction is below 2^24 quanta, and at least 2^23 unless the quantum is one unit. -/
theorem quantum_bounds (num den : Nat) :
    num / (den * 2 ^ quantum num den) < 2 ^ 24 ∧
      (0 < quantum num den → 2 ^ 23 ≤ num / (den * 2 ^ quantum num den)) := by
  set q := num / den with hq
  have hdiv : num / (den * 2 ^ quantum num den) = q / 2 ^ quantum num den := by rw [hq, Nat.div_div_eq_div_mul]
  rw [hdiv]
  have hdef : quantum num den = q.log2 - 23 := rfl
  rcases Nat.eq_zero_or_pos q with h0 | h0
  · rw [h0]; refine ⟨by simp, fun hpos => ?_⟩
    rw [hdef, h0] at hpos; simp at hpos
  · have hlt : q < 2 ^ (q.log2 + 1) := Nat.lt_log2_self
    have hge : 2 ^ q.log2 ≤ q := Nat.log2_self_le (by omega)
    constructor
    · rw [Nat.div_lt_iff_lt_mul (by positivity), ← pow_add]
      refine lt_of_lt_of_le hlt (Nat.pow_le_pow_right (by omega) (by omega))
    · intro hpos
      rw [Nat.le_div_iff_mul_le (by positivity), ← pow_add]
      refine le_trans (Nat.pow_le_pow_right (by omega) (by omega)) hge

theorem quantum_mono {n1 d1 n2 d2 : Nat} (h1 : 0 < d1) (h2 : 0 < d2) (h : n1 * d2 ≤ n2 * d1) :
    quantum n1 d1 ≤ quantum n2 d2 := by
  have hq : n1 / d1 ≤ n2 / d2 := by
    rw [Nat.le_div_iff_mul_le h2]
    have : n1 / d1 * d1 ≤ n1 := Nat.div_mul_le_self _ _
    have h3 : n1 / d1 * d1 * d2 ≤ n2 * d1 := le_trans (Nat.mul_le_mul_right _ this) h
    have h4 : (n1 / d1 * d2) * d1 ≤ n2 * d1 := by nlinarith
    exact Nat.le_of_mul_le_mul_right h4 h1
  unfold quantum
  rcases Nat.eq_zero_or_pos (n1 / d1) with h0 | h0
  · rw [h0]; simp
  · have : (n1 / d1).log2 ≤ (n2 / d2).log2 := by
      rw [Nat.le_log2 (by omega)]
      exact le_trans (Nat.log2_self_le (by omega)) hq
    omega

/-- Rounding is monotone in the exact fraction (R118, R146 rest on it). -/
theorem roundMag_mono {n1 d1 n2 d2 : Nat} (h1 : 0 < d1) (h2 : 0 < d2) (h : n1 * d2 ≤ n2 * d1) :
    roundMag n1 d1 ≤ roundMag n2 d2 := by
  rw [roundMag_eq, roundMag_eq]
  refine min_le_min_right _ ?_
  have hs := quantum_mono h1 h2 h
  obtain ⟨hb1, -⟩ := quantum_bounds n1 d1
  obtain ⟨-, hb2⟩ := quantum_bounds n2 d2
  rcases Nat.lt_or_eq_of_le hs with hlt | heq
  · have hu := nearestEven_le_succ n1 (d1 * 2 ^ quantum n1 d1)
    have hl := nearestEven_ge_floor n2 (d2 * 2 ^ quantum n2 d2)
    have := hb2 (by omega)
    omega
  · rw [heq]
    have : nearestEven n1 (d1 * 2 ^ quantum n2 d2) ≤ nearestEven n2 (d2 * 2 ^ quantum n2 d2) := by
      refine nearestEven_mono (by positivity) (by positivity) ?_
      calc n1 * (d2 * 2 ^ quantum n2 d2) = n1 * d2 * 2 ^ quantum n2 d2 := by ring
        _ ≤ n2 * d1 * 2 ^ quantum n2 d2 := Nat.mul_le_mul_right _ h
        _ = n2 * (d1 * 2 ^ quantum n2 d2) := by ring
    omega

theorem quantum_units {m den : Nat} (hd : 0 < den) :
    (m < 2 ^ 23 → quantum (unitsOfMag m * den) den = 0) ∧
      ∀ s r, m = s * 2 ^ 23 + r → 2 ^ 23 ≤ r → r < 2 ^ 24 → quantum (unitsOfMag m * den) den = s := by
  unfold quantum
  rw [Nat.mul_div_cancel _ hd]
  constructor
  · intro h
    rw [unitsOfMag_small h]
    rcases Nat.eq_zero_or_pos m with rfl | h0
    · simp
    · have : m.log2 < 23 := (Nat.log2_lt (by omega)).2 h
      omega
  · rintro s r rfl h1 h2
    rw [unitsOfMag_scaled h1 h2]
    have hpos : 0 < r * 2 ^ s := by positivity
    have hlog : (r * 2 ^ s).log2 = 23 + s := by
      refine (Nat.log2_eq_iff (by omega)).2 ⟨?_, ?_⟩
      · rw [pow_add]; exact Nat.mul_le_mul_right _ h1
      · rw [show 23 + s + 1 = 24 + s by omega, pow_add]
        exact Nat.mul_lt_mul_of_pos_right h2 (by positivity)
    omega

/-- A value that has an encoding rounds to it. -/
theorem roundMag_exact {m den : Nat} (hd : 0 < den) (hm : m ≤ 0x7F800000) :
    roundMag (unitsOfMag m * den) den = m := by
  obtain ⟨hsmall, hscaled⟩ := quantum_units (m := m) hd
  rw [roundMag_eq]
  rcases mag_cases m with h | ⟨s, r, hmr, h1, h2⟩
  · rw [hsmall h, unitsOfMag_small h]
    simp only [pow_zero, mul_one, zero_mul, zero_add]
    rw [nearestEven_mul _ _ hd]
    omega
  · rw [hscaled s r hmr h1 h2, hmr, unitsOfMag_scaled h1 h2,
      show r * 2 ^ s * den = r * (den * 2 ^ s) by ring, nearestEven_mul _ _ (by positivity)]
    omega

/-- A larger encoding is a larger magnitude. -/
theorem unitsOfMag_strictMono {m n : Nat} (h : m < n) : unitsOfMag m < unitsOfMag n := by
  rcases mag_cases m with hm | ⟨s, r, rfl, h1, h2⟩ <;> rcases mag_cases n with hn | ⟨t, q, rfl, h3, h4⟩
  · rwa [unitsOfMag_small hm, unitsOfMag_small hn]
  · rw [unitsOfMag_small hm, unitsOfMag_scaled h3 h4]
    have : 1 ≤ 2 ^ t := Nat.one_le_two_pow
    nlinarith
  · omega
  · rw [unitsOfMag_scaled h1 h2, unitsOfMag_scaled h3 h4]
    have hst : s ≤ t := by omega
    rcases Nat.lt_or_eq_of_le hst with hlt | rfl
    · have hp : 2 ^ s * 2 ≤ 2 ^ t := by
        rw [← pow_succ]; exact Nat.pow_le_pow_right (by omega) hlt
      have : 0 < 2 ^ s := by positivity
      nlinarith
    · have : r < q := by omega
      exact Nat.mul_lt_mul_of_pos_right this (by positivity)

theorem unitsOfMag_le_iff {m n : Nat} : unitsOfMag m ≤ unitsOfMag n ↔ m ≤ n := by
  constructor
  · intro h
    by_contra hc
    exact absurd (unitsOfMag_strictMono (show n < m by omega)) (by omega)
  · intro h
    rcases Nat.lt_or_eq_of_le h with h | rfl
    · exact (unitsOfMag_strictMono h).le
    · exact le_rfl

/-! ### Words -/

theorem roundMag_le (num den : Nat) : roundMag num den ≤ 0x7F800000 := by
  rw [roundMag_eq]; exact min_le_right _ _

theorem fMag_lt (x : Word) : fMag x < 2 ^ 31 := Nat.mod_lt _ (by norm_num)

theorem fPack_toNat {neg : Bool} {mag : Nat} (h : mag < 2 ^ 31) :
    (fPack neg mag).toNat = (if neg then 2 ^ 31 else 0) + mag := by
  unfold fPack
  rw [BitVec.toNat_ofNat]
  apply Nat.mod_eq_of_lt
  cases neg
  · simp only [Bool.false_eq_true, if_false]; omega
  · simp only [if_true]; omega

@[simp] theorem fMag_fPack {neg : Bool} {mag : Nat} (h : mag < 2 ^ 31) : fMag (fPack neg mag) = mag := by
  unfold fMag
  rw [fPack_toNat h]
  cases neg
  · simp only [Bool.false_eq_true, if_false, Nat.zero_add]; omega
  · simp only [if_true]; omega

@[simp] theorem fNeg_fPack {neg : Bool} {mag : Nat} (h : mag < 2 ^ 31) : fNeg (fPack neg mag) = neg := by
  unfold fNeg
  rw [fPack_toNat h]
  cases neg
  · simp only [Bool.false_eq_true, if_false, decide_eq_false_iff_not]; omega
  · simp only [if_true, decide_eq_true_eq]; omega

/-- A word is its sign and its magnitude. -/
theorem fPack_fNeg_fMag (x : Word) : fPack (fNeg x) (fMag x) = x := by
  apply BitVec.eq_of_toNat_eq
  rw [fPack_toNat (fMag_lt x)]
  have := x.isLt
  unfold fNeg fMag
  by_cases h : 2 ^ 31 ≤ x.toNat
  · simp only [h, decide_true, if_true]; omega
  · simp only [h, decide_false, Bool.false_eq_true, if_false]; omega

end Sys2Proof.Machine
end

