-- ==== Sys2Proof/Laws/Arithmetic.lean ====
section
/-!
SUPPORT. What the binary32 operations do on finite operands (00_scope.md R11, R12): one equation per operation, its
value in units of 2^-149, and the bounds the ranges of 42_translator.md R131 and 43_lfo.md R146 rest on.
-/
namespace Sys2Proof.Machine

/-! ### Classes of encodings -/

theorem fIsFinite_iff {x : Word} : fIsFinite x = true ↔ fMag x < 0x7F800000 := by simp [fIsFinite]

theorem fIsNan_of_finite {x : Word} (h : fIsFinite x = true) : fIsNan x = false := by
  rw [fIsFinite_iff] at h
  simp only [fIsNan, decide_eq_false_iff_not]; omega

theorem fIsInf_of_finite {x : Word} (h : fIsFinite x = true) : fIsInf x = false := by
  rw [fIsFinite_iff] at h
  simp only [fIsInf, decide_eq_false_iff_not]; omega

theorem fUnits_fPack {neg : Bool} {mag : Nat} (h : mag < 2 ^ 31) : fUnits (fPack neg mag) = unitsOfMag mag := by
  rw [fUnits, fMag_fPack h]

theorem fValue_fPack {neg : Bool} {mag : Nat} (h : mag < 2 ^ 31) :
    fValue (fPack neg mag) = if neg then -(unitsOfMag mag : Int) else (unitsOfMag mag : Int) := by
  rw [fValue, fNeg_fPack h, fUnits_fPack h]

theorem natAbs_fValue (x : Word) : (fValue x).natAbs = fUnits x := by
  unfold fValue; split <;> simp

theorem fIsFinite_fPack {neg : Bool} {mag : Nat} (h : mag < 0x7F800000) : fIsFinite (fPack neg mag) = true := by
  rw [fIsFinite_iff, fMag_fPack (by omega)]; exact h

/-- No result that is packed from a rounded magnitude is a NaN. -/
theorem fIsNan_fPack {neg : Bool} {mag : Nat} (h : mag ≤ 0x7F800000) : fIsNan (fPack neg mag) = false := by
  rw [fIsNan, fMag_fPack (by omega)]
  exact decide_eq_false (by omega)

/-- A magnitude of at most the largest finite one rounds to a finite encoding no greater than any that bounds it. -/
theorem roundMag_le_of_units {num den m : Nat} (hd : 0 < den) (hm : m ≤ 0x7F800000) (h : num ≤ unitsOfMag m * den) :
    roundMag num den ≤ m := by
  have := roundMag_mono (n1 := num) (d1 := den) (n2 := unitsOfMag m * den) (d2 := den) hd hd
    (Nat.mul_le_mul_right _ h)
  rwa [roundMag_exact hd hm] at this

/-- The same from below. -/
theorem le_roundMag_of_units {num den m : Nat} (hd : 0 < den) (hm : m ≤ 0x7F800000) (h : unitsOfMag m * den ≤ num) :
    m ≤ roundMag num den := by
  have := roundMag_mono (n1 := unitsOfMag m * den) (d1 := den) (n2 := num) (d2 := den) hd hd
    (Nat.mul_le_mul_right _ h)
  rwa [roundMag_exact hd hm] at this

/-! ### The operations on finite operands -/

theorem fmul_finite {a b : Word} (ha : fIsFinite a = true) (hb : fIsFinite b = true) :
    fmul a b = fPack (fNeg a != fNeg b) (roundMag (fUnits a * fUnits b) (2 ^ 149)) := by
  simp only [fmul, fIsNan_of_finite ha, fIsNan_of_finite hb, fIsInf_of_finite ha, fIsInf_of_finite hb, Bool.or_self,
    Bool.false_eq_true, if_false]

theorem fdiv_finite {a b : Word} (ha : fIsFinite a = true) (hb : fIsFinite b = true) (h0 : fMag b ≠ 0) :
    fdiv a b = fPack (fNeg a != fNeg b) (roundMag (fUnits a * 2 ^ 149) (fUnits b)) := by
  simp only [fdiv, fIsNan_of_finite ha, fIsNan_of_finite hb, fIsInf_of_finite ha, fIsInf_of_finite hb, Bool.or_self,
    Bool.false_eq_true, if_false, h0]

theorem fadd_finite {a b : Word} (ha : fIsFinite a = true) (hb : fIsFinite b = true)
    (h0 : fValue a + fValue b ≠ 0) :
    fadd a b = fPack (decide (fValue a + fValue b < 0)) (roundMag (fValue a + fValue b).natAbs 1) := by
  simp only [fadd, fIsNan_of_finite ha, fIsNan_of_finite hb, fIsInf_of_finite ha, fIsInf_of_finite hb, Bool.or_self,
    Bool.false_eq_true, if_false, h0]

theorem fle_finite {a b : Word} (ha : fIsFinite a = true) (hb : fIsFinite b = true) :
    fle a b = decide (fValue a ≤ fValue b) := by
  simp only [fle, fIsNan_of_finite ha, fIsNan_of_finite hb, Bool.not_false, Bool.true_and]

/-! ### Closed intervals, by encoding -/

theorem fNeg_eq_false_iff {x : Word} : fNeg x = false ↔ x.toNat < 2 ^ 31 := by
  simp [fNeg]

theorem unitsOfMag_eq_zero_iff {m : Nat} : unitsOfMag m = 0 ↔ m = 0 := by
  have h0 : unitsOfMag 0 = 0 := by decide
  constructor
  · intro h
    by_contra hc
    have := unitsOfMag_strictMono (show 0 < m by omega)
    omega
  · rintro rfl; exact h0

/-- `0.0 <= v and v <= hi` holds of the encodings up to that of a finite `hi` that is not negative, and of -0.0. -/
theorem inClosed_zero_iff {hi v : Word} (hhi : hi.toNat < 0x7F800000) :
    inClosed 0#32 hi v = true ↔ v.toNat ≤ hi.toNat ∨ v = 0x80000000#32 := by
  have hm : fMag hi = hi.toNat := Nat.mod_eq_of_lt (by omega)
  have hv : fValue hi = (unitsOfMag hi.toNat : Int) := by
    rw [fValue, fNeg_eq_false_iff.2 (by omega), fUnits, hm]; rfl
  have hz : fValue 0#32 = 0 := by decide +kernel
  have hn : fIsNan hi = false := by simp only [fIsNan, hm, decide_eq_false_iff_not]; omega
  have hn0 : fIsNan 0#32 = false := by decide
  have hlt := v.isLt
  have h80 : v = 0x80000000#32 ↔ v.toNat = 2 ^ 31 := by
    rw [← BitVec.toNat_inj]; rfl
  simp only [inClosed, fle, hn, hn0, hz, hv, Bool.not_false, Bool.true_and, Bool.and_true, Bool.and_eq_true,
    decide_eq_true_eq, h80]
  rcases Nat.lt_or_ge v.toNat (2 ^ 31) with h | h
  · have hvm : fMag v = v.toNat := Nat.mod_eq_of_lt h
    have hvv : fValue v = (unitsOfMag v.toNat : Int) := by
      rw [fValue, fNeg_eq_false_iff.2 h, fUnits, hvm]; rfl
    rw [hvv, Int.ofNat_le, unitsOfMag_le_iff]
    simp only [fIsNan, hvm, Bool.not_eq_true', decide_eq_false_iff_not]
    omega
  · have hneg : fNeg v = true := by simp only [fNeg, decide_eq_true_eq]; exact h
    have hvv : fValue v = -(unitsOfMag (fMag v) : Int) := by rw [fValue, hneg]; rfl
    have hvm : fMag v = v.toNat - 2 ^ 31 := by unfold fMag; omega
    rw [hvv]
    constructor
    · rintro ⟨⟨_, h1⟩, _⟩
      have : unitsOfMag (fMag v) = 0 := by omega
      rw [unitsOfMag_eq_zero_iff] at this
      omega
    · intro hc
      have h0 : fMag v = 0 := by omega
      have hu : unitsOfMag (fMag v) = 0 := unitsOfMag_eq_zero_iff.2 h0
      simp only [fIsNan, h0]
      rw [h0] at hu
      exact ⟨⟨by decide, by simp [hu]⟩, by decide, by simp [hu]⟩

/-! ### Integers to binary32 -/

theorem u2f_eq (n : Word) : u2f n = fPack false (roundMag (n.toNat * 2 ^ 149) 1) := by
  unfold u2f f32OfRatio
  split
  · next h => subst h; decide +kernel
  · rfl

/-- The encoding of a power of two of units, times 2^23 to 2^24. -/
theorem unitsOfMag_two_pow (k : Nat) : unitsOfMag ((k + 1) * 2 ^ 23) = 2 ^ (23 + k) := by
  have : (k + 1) * 2 ^ 23 = k * 2 ^ 23 + 2 ^ 23 := by ring
  rw [this, unitsOfMag_scaled (le_refl _) (by norm_num), ← pow_add]

/-- A conversion never rounds up past 2^32. -/
theorem roundMag_u32_le {n : Nat} (h : n ≤ 2 ^ 32) : roundMag (n * 2 ^ 149) 1 ≤ 0x4F800000 := by
  refine roundMag_le_of_units (by norm_num) (by norm_num) ?_
  have : unitsOfMag 0x4F800000 = 2 ^ 181 := by decide +kernel
  rw [this, Nat.mul_one]
  calc n * 2 ^ 149 ≤ 2 ^ 32 * 2 ^ 149 := Nat.mul_le_mul_right _ h
    _ = 2 ^ 181 := by norm_num

theorem u2f_finite (n : Word) : fIsFinite (u2f n) = true := by
  rw [u2f_eq]
  have := roundMag_u32_le (Nat.le_of_lt n.isLt)
  exact fIsFinite_fPack (by omega)

theorem fNeg_u2f (n : Word) : fNeg (u2f n) = false := by
  rw [u2f_eq]
  have := roundMag_u32_le (Nat.le_of_lt n.isLt)
  exact fNeg_fPack (by omega)

theorem fUnits_u2f (n : Word) : fUnits (u2f n) = unitsOfMag (roundMag (n.toNat * 2 ^ 149) 1) := by
  rw [u2f_eq]
  have := roundMag_u32_le (Nat.le_of_lt n.isLt)
  exact fUnits_fPack (by omega)

/-- A greater integer converts to no smaller value. -/
theorem fUnits_u2f_mono {m n : Word} (h : m.toNat ≤ n.toNat) : fUnits (u2f m) ≤ fUnits (u2f n) := by
  rw [fUnits_u2f, fUnits_u2f, unitsOfMag_le_iff]
  exact roundMag_mono (by norm_num) (by norm_num) (by rw [Nat.mul_one, Nat.mul_one]; exact Nat.mul_le_mul_right _ h)

/-- Every integer below 2^24, scaled by a power of two, is a number of units with an encoding. -/
theorem exists_mag_of_scaled {n k : Nat} (h0 : 0 < n) (h : n < 2 ^ 24) (hk : 23 ≤ k) (hk' : k ≤ 252) :
    ∃ m, m < 0x7F800000 ∧ unitsOfMag m = n * 2 ^ k := by
  have hl : n.log2 < 24 := (Nat.log2_lt (by omega)).2 h
  have h1 : 2 ^ n.log2 ≤ n := Nat.log2_self_le (by omega)
  have h2 : n < 2 ^ (n.log2 + 1) := Nat.lt_log2_self
  refine ⟨(k + n.log2 - 23) * 2 ^ 23 + n * 2 ^ (23 - n.log2), ?_, ?_⟩
  · have hr : n * 2 ^ (23 - n.log2) < 2 ^ 24 := by
      calc n * 2 ^ (23 - n.log2) < 2 ^ (n.log2 + 1) * 2 ^ (23 - n.log2) :=
            Nat.mul_lt_mul_of_pos_right h2 (by positivity)
        _ = 2 ^ 24 := by rw [← pow_add]; congr 1; omega
    have : (k + n.log2 - 23) ≤ 252 := by omega
    omega
  · rw [unitsOfMag_scaled]
    · rw [Nat.mul_assoc, ← pow_add]; congr 2; omega
    · calc 2 ^ 23 = 2 ^ n.log2 * 2 ^ (23 - n.log2) := by rw [← pow_add]; congr 1; omega
        _ ≤ n * 2 ^ (23 - n.log2) := Nat.mul_le_mul_right _ h1
    · calc n * 2 ^ (23 - n.log2) < 2 ^ (n.log2 + 1) * 2 ^ (23 - n.log2) :=
            Nat.mul_lt_mul_of_pos_right h2 (by positivity)
        _ = 2 ^ 24 := by rw [← pow_add]; congr 1; omega

/-- An integer below 2^24 converts exactly. -/
theorem fUnits_u2f_exact {n : Word} (h : n.toNat < 2 ^ 24) : fUnits (u2f n) = n.toNat * 2 ^ 149 := by
  rw [fUnits_u2f]
  rcases Nat.eq_zero_or_pos n.toNat with h0 | h0
  · rw [h0]; decide +kernel
  · obtain ⟨m, hm, hu⟩ := exists_mag_of_scaled h0 h (k := 149) (by norm_num) (by norm_num)
    rw [← hu, ← Nat.mul_one (unitsOfMag m), roundMag_exact (by norm_num) (by omega), Nat.mul_one]

/-! ### Products -/

/-- A product with a factor of magnitude at most 1.0 is no larger than the other factor. -/
theorem fUnits_fmul_le {a b : Word} (ha : fIsFinite a = true) (hb : fIsFinite b = true)
    (h1 : fUnits a ≤ 2 ^ 149) : fIsFinite (fmul a b) = true ∧ fUnits (fmul a b) ≤ fUnits b := by
  have hm : roundMag (fUnits a * fUnits b) (2 ^ 149) ≤ fMag b := by
    refine roundMag_le_of_units (by positivity) (by rw [fIsFinite_iff] at hb; omega) ?_
    show fUnits a * fUnits b ≤ fUnits b * 2 ^ 149
    rw [Nat.mul_comm (fUnits b)]
    exact Nat.mul_le_mul_right _ h1
  have hlt : fMag b < 0x7F800000 := fIsFinite_iff.1 hb
  rw [fmul_finite ha hb]
  refine ⟨fIsFinite_fPack (by omega), ?_⟩
  rw [fUnits_fPack (by omega)]
  exact unitsOfMag_le_iff.2 hm

/-- A product of finite factors grows with the second one. -/
theorem fUnits_fmul_mono {a a' b b' : Word} (ha : fIsFinite a = true) (hb : fIsFinite b = true)
    (ha' : fIsFinite a' = true) (hb' : fIsFinite b' = true) (h1 : fUnits a ≤ fUnits a')
    (h2 : fUnits b ≤ fUnits b') : fUnits (fmul a b) ≤ fUnits (fmul a' b') := by
  have l1 := roundMag_le (fUnits a * fUnits b) (2 ^ 149)
  have l2 := roundMag_le (fUnits a' * fUnits b') (2 ^ 149)
  rw [fmul_finite ha hb, fmul_finite ha' hb', fUnits_fPack (by omega), fUnits_fPack (by omega), unitsOfMag_le_iff]
  exact roundMag_mono (by positivity) (by positivity) (Nat.mul_le_mul_right _ (Nat.mul_le_mul h1 h2))

theorem fNeg_fmul {a b : Word} (ha : fIsFinite a = true) (hb : fIsFinite b = true) :
    fNeg (fmul a b) = (fNeg a != fNeg b) := by
  have l1 := roundMag_le (fUnits a * fUnits b) (2 ^ 149)
  rw [fmul_finite ha hb, fNeg_fPack (by omega)]

/-! ### Quotients -/

/-- A greater fraction of finite operands is no smaller a quotient. -/
theorem fUnits_fdiv_mono {a a' b b' : Word} (ha : fIsFinite a = true) (hb : fIsFinite b = true)
    (ha' : fIsFinite a' = true) (hb' : fIsFinite b' = true) (h0 : fMag b ≠ 0) (h0' : fMag b' ≠ 0)
    (h : fUnits a * fUnits b' ≤ fUnits a' * fUnits b) : fUnits (fdiv a b) ≤ fUnits (fdiv a' b') := by
  have l1 := roundMag_le (fUnits a * 2 ^ 149) (fUnits b)
  have l2 := roundMag_le (fUnits a' * 2 ^ 149) (fUnits b')
  have p1 : 0 < fUnits b := Nat.pos_of_ne_zero fun e => h0 (unitsOfMag_eq_zero_iff.1 e)
  have p2 : 0 < fUnits b' := Nat.pos_of_ne_zero fun e => h0' (unitsOfMag_eq_zero_iff.1 e)
  rw [fdiv_finite ha hb h0, fdiv_finite ha' hb' h0', fUnits_fPack (by omega), fUnits_fPack (by omega),
    unitsOfMag_le_iff]
  refine roundMag_mono p1 p2 ?_
  calc fUnits a * 2 ^ 149 * fUnits b' = fUnits a * fUnits b' * 2 ^ 149 := by ring
    _ ≤ fUnits a' * fUnits b * 2 ^ 149 := Nat.mul_le_mul_right _ h
    _ = fUnits a' * 2 ^ 149 * fUnits b := by ring

/-! ### Rounding to integers -/

/-- A magnitude of at most k rounds to an integer of magnitude at most k. -/
theorem roundInt_abs_le {x : Word} {k : Nat} (h : fUnits x ≤ k * 2 ^ 149) : |roundInt x| ≤ k := by
  have : nearestEven (fUnits x) (2 ^ 149) ≤ k := by
    have h2 := nearestEven_mono (n1 := fUnits x) (d1 := 2 ^ 149) (n2 := k * 2 ^ 149) (d2 := 2 ^ 149) (by positivity)
      (by positivity) (Nat.mul_le_mul_right _ h)
    rwa [nearestEven_mul _ _ (by positivity)] at h2
  unfold roundInt
  split
  · rw [abs_neg, Nat.abs_cast]; exact_mod_cast this
  · rw [Nat.abs_cast]; exact_mod_cast this

theorem roundInt_nonneg {x : Word} (h : fNeg x = false ∨ fUnits x = 0) : 0 ≤ roundInt x := by
  unfold roundInt
  rcases h with h | h
  · simp [h]
  · have h0 : nearestEven 0 (2 ^ 149) = 0 := by decide +kernel
    rw [h, h0]; split <;> simp

/-- Twice a rounded magnitude is at most one above the floor of its double (the last step of R118). -/
theorem two_nearestEven_le (num den : Nat) (hd : 0 < den) : 2 * nearestEven num den ≤ 2 * num / den + 1 := by
  have hdm := Nat.div_add_mod num den
  have hlt := Nat.mod_lt num hd
  have e0 : 2 * (num / den) * den = 2 * (den * (num / den)) := by ring
  have e1 : (2 * (num / den) + 1) * den = 2 * (den * (num / den)) + den := by ring
  unfold nearestEven
  split_ifs with h1 h2
  · have : 2 * (num / den) ≤ 2 * num / den := by
      rw [Nat.le_div_iff_mul_le hd]; omega
    omega
  · have : 2 * (num / den) + 1 ≤ 2 * num / den := by
      rw [Nat.le_div_iff_mul_le hd]; omega
    omega
  · have : 2 * (num / den) + 1 ≤ 2 * num / den := by
      rw [Nat.le_div_iff_mul_le hd]; omega
    omega

theorem roundS32_eq {x : Word} (hf : fIsFinite x = true) (h1 : -2147483648 ≤ roundInt x)
    (h2 : roundInt x < 2147483648) : roundS32 x = BitVec.ofInt 32 (roundInt x) := by
  unfold roundS32
  rw [if_pos]
  simp [roundsWithin, hf, h1, h2]

theorem roundU32_eq {x : Word} (hf : fIsFinite x = true) (h1 : 0 ≤ roundInt x)
    (h2 : roundInt x < 4294967296) : roundU32 x = BitVec.ofInt 32 (roundInt x) := by
  unfold roundU32
  rw [if_pos]
  simp [roundsWithin, hf, h1, h2]

end Sys2Proof.Machine
end

