-- ==== Sys2Proof/Laws/Lfo.lean ====
section
/-!
SUPPORT. The bounds of 43_lfo.md R146: what the product of the scale and a counter can be, that both waveform values lie
in [-1.0, 1.0], and what a delay then is.
-/
namespace Sys2Proof.Machine

/-! ### Rounding up by less than one part in 2^24 -/

theorem two_nearestEven_mul_le {num den : Nat} (hd : 0 < den) : 2 * (nearestEven num den * den) ≤ 2 * num + den := by
  have hdm := Nat.div_add_mod num den
  have hlt := Nat.mod_lt num hd
  have e0 : num / den * den = den * (num / den) := Nat.mul_comm _ _
  have e1 : (num / den + 1) * den = den * (num / den) + den := by ring
  unfold nearestEven
  split_ifs with h1 h2
  · omega
  · omega
  · rcases Nat.mod_two_eq_zero_or_one (num / den) with h | h
    · rw [h, Nat.add_zero, e0]; omega
    · rw [h, e1]; omega

/-- The units of a magnitude given by its quantum and its count, a count of 2^24 included. -/
theorem unitsOfMag_count {s r : Nat} (h1 : 2 ^ 23 ≤ r) (h2 : r ≤ 2 ^ 24) : unitsOfMag (s * 2 ^ 23 + r) = r * 2 ^ s := by
  rcases Nat.lt_or_ge r (2 ^ 24) with h | h
  · exact unitsOfMag_scaled h1 h
  · obtain rfl : r = 2 ^ 24 := by omega
    have e : s * 2 ^ 23 + 2 ^ 24 = (s + 1) * 2 ^ 23 + 2 ^ 23 := by ring
    rw [e, unitsOfMag_scaled (le_refl _) (by norm_num)]
    ring

/-- A fraction that is not subnormal rounds to at most 1 + 2^-24 times itself. -/
theorem units_roundMag_le {num den : Nat} (hd : 0 < den) (hn : 2 ^ 23 * den ≤ num)
    (hf : roundMag num den < 0x7F800000) : unitsOfMag (roundMag num den) * den * 2 ^ 24 ≤ num * (2 ^ 24 + 1) := by
  obtain ⟨hlt, hpos⟩ := quantum_bounds num den
  set s := quantum num den with hs
  have hD : 0 < den * 2 ^ s := by positivity
  have hge : 2 ^ 23 ≤ num / (den * 2 ^ s) := by
    rcases Nat.eq_zero_or_pos s with h | h
    · rw [h, pow_zero, Nat.mul_one, Nat.le_div_iff_mul_le hd]; exact hn
    · exact hpos h
  have hle : 2 ^ 23 * (den * 2 ^ s) ≤ num := (Nat.le_div_iff_mul_le hD).1 hge
  have hr1 := nearestEven_ge_floor num (den * 2 ^ s)
  have hr2 := nearestEven_le_succ num (den * 2 ^ s)
  have hrm : roundMag num den = s * 2 ^ 23 + nearestEven num (den * 2 ^ s) := by
    rw [roundMag_eq] at hf ⊢
    rw [← hs] at hf ⊢
    omega
  rw [hrm, unitsOfMag_count (by omega) (by omega)]
  have hkey := two_nearestEven_mul_le (num := num) hD
  have e : nearestEven num (den * 2 ^ s) * 2 ^ s * den = nearestEven num (den * 2 ^ s) * (den * 2 ^ s) := by ring
  rw [e]
  omega

/-! ### The counter's product -/

/-- A conversion of a positive integer is at least 1.0. -/
theorem le_fUnits_u2f {n : Word} (h : 0 < n.toNat) : 2 ^ 149 ≤ fUnits (u2f n) := by
  rw [fUnits_u2f]
  have h1 : unitsOfMag 0x3F800000 = 2 ^ 149 := by decide +kernel
  rw [← h1, unitsOfMag_le_iff]
  refine le_roundMag_of_units (by norm_num) (by norm_num) ?_
  rw [h1, Nat.mul_one]
  exact Nat.le_mul_of_pos_left _ h

theorem fUnits_u2f_le (n : Word) : fUnits (u2f n) ≤ 2 ^ 181 := by
  have h := roundMag_u32_le (Nat.le_of_lt n.isLt)
  rw [fUnits_u2f, show 2 ^ 181 = unitsOfMag 0x4F800000 by decide +kernel]
  exact unitsOfMag_le_iff.2 h

/-- The scale of a numerator k from 1.0 to 8.0 times a counter below the cycle length is at most k rounded up by
2^-24, and not negative. -/
theorem scale_mul_counter {k c o : Word} (hk : fIsFinite k = true) (hkn : fNeg k = false)
    (hk1 : 2 ^ 149 ≤ fUnits k) (hk2 : fUnits k ≤ 2 ^ 152) (h0 : 0 < c.toNat) (ho : o.toNat ≤ c.toNat) :
    fIsFinite (fmul (fdiv k (u2f c)) (u2f o)) = true ∧ fNeg (fmul (fdiv k (u2f c)) (u2f o)) = false ∧
      fMag (fmul (fdiv k (u2f c)) (u2f o)) ≤ roundMag (fUnits k * (2 ^ 24 + 1)) (2 ^ 24) := by
  have hc1 := le_fUnits_u2f h0
  have hc2 := fUnits_u2f_le c
  have hco := fUnits_u2f_mono ho
  have hcm : fMag (u2f c) ≠ 0 := by
    intro h
    have : fUnits (u2f c) = 0 := unitsOfMag_eq_zero_iff.2 h
    omega
  have hcpos : 0 < fUnits (u2f c) := by have : 0 < 2 ^ 149 := by positivity
                                        omega
  have hq : roundMag (fUnits k * 2 ^ 149) (fUnits (u2f c)) ≤ 0x41000000 := by
    refine roundMag_le_of_units hcpos (by norm_num) ?_
    rw [show unitsOfMag 0x41000000 = 2 ^ 152 by decide +kernel]
    exact Nat.mul_le_mul hk2 hc1
  have hsc : fdiv k (u2f c) = fPack false (roundMag (fUnits k * 2 ^ 149) (fUnits (u2f c))) := by
    rw [fdiv_finite hk (u2f_finite c) hcm, hkn, fNeg_u2f]; rfl
  have hscf : fIsFinite (fdiv k (u2f c)) = true := by rw [hsc]; exact fIsFinite_fPack (by omega)
  have hscn : fNeg (fdiv k (u2f c)) = false := by rw [hsc]; exact fNeg_fPack (by omega)
  have hscu : fUnits (fdiv k (u2f c)) = unitsOfMag (roundMag (fUnits k * 2 ^ 149) (fUnits (u2f c))) := by
    rw [hsc]; exact fUnits_fPack (by omega)
  have hnorm : 2 ^ 23 * fUnits (u2f c) ≤ fUnits k * 2 ^ 149 := by
    calc 2 ^ 23 * fUnits (u2f c) ≤ 2 ^ 23 * 2 ^ 181 := Nat.mul_le_mul_left _ hc2
      _ ≤ 2 ^ 149 * 2 ^ 149 := by norm_num
      _ ≤ fUnits k * 2 ^ 149 := Nat.mul_le_mul_right _ hk1
  have hrel := units_roundMag_le hcpos hnorm (by omega)
  rw [← hscu] at hrel
  have hprod : fUnits (fdiv k (u2f c)) * fUnits (u2f o) * 2 ^ 24 ≤ fUnits k * (2 ^ 24 + 1) * 2 ^ 149 := by
    calc fUnits (fdiv k (u2f c)) * fUnits (u2f o) * 2 ^ 24
        ≤ fUnits (fdiv k (u2f c)) * fUnits (u2f c) * 2 ^ 24 :=
          Nat.mul_le_mul_right _ (Nat.mul_le_mul_left _ hco)
      _ ≤ fUnits k * 2 ^ 149 * (2 ^ 24 + 1) := hrel
      _ = fUnits k * (2 ^ 24 + 1) * 2 ^ 149 := by ring
  have hmag := roundMag_mono (n1 := fUnits (fdiv k (u2f c)) * fUnits (u2f o)) (d1 := 2 ^ 149)
    (n2 := fUnits k * (2 ^ 24 + 1)) (d2 := 2 ^ 24) (by positivity) (by positivity) hprod
  have htop : roundMag (fUnits k * (2 ^ 24 + 1)) (2 ^ 24) ≤ 0x41000001 := by
    refine roundMag_le_of_units (by positivity) (by norm_num) ?_
    rw [show unitsOfMag 0x41000001 = 2 ^ 152 + 2 ^ 129 by decide +kernel]
    exact le_trans (Nat.mul_le_mul_right _ hk2) (by norm_num)
  rw [fmul_finite hscf (u2f_finite o), hscn, fNeg_u2f, fMag_fPack (by omega)]
  exact ⟨fIsFinite_fPack (by omega), by rw [fNeg_fPack (by omega)]; rfl, hmag⟩

/-! ### Sums -/

/-- A sum of finite operands whose exact value is within a finite magnitude stays within it. -/
theorem fadd_bound {a b : Word} {m : Nat} (ha : fIsFinite a = true) (hb : fIsFinite b = true) (hm : m < 0x7F800000)
    (h : (fValue a + fValue b).natAbs ≤ unitsOfMag m) :
    fIsFinite (fadd a b) = true ∧ fUnits (fadd a b) ≤ unitsOfMag m := by
  by_cases h0 : fValue a + fValue b = 0
  · have e : fadd a b = fPack (fNeg a && fNeg b) 0 := by
      simp only [fadd, fIsNan_of_finite ha, fIsNan_of_finite hb, fIsInf_of_finite ha, fIsInf_of_finite hb,
        Bool.or_self, Bool.false_eq_true, if_false, h0, if_true]
    rw [e]
    refine ⟨fIsFinite_fPack (by norm_num), ?_⟩
    rw [fUnits_fPack (by norm_num), unitsOfMag_eq_zero_iff.2 rfl]
    exact Nat.zero_le _
  · have hr : roundMag (fValue a + fValue b).natAbs 1 ≤ m :=
      roundMag_le_of_units (by norm_num) (by omega) (by rw [Nat.mul_one]; exact h)
    rw [fadd_finite ha hb h0]
    refine ⟨fIsFinite_fPack (by omega), ?_⟩
    rw [fUnits_fPack (by omega)]
    exact unitsOfMag_le_iff.2 hr

theorem fMag_fneg (x : Word) : fMag (fneg x) = fMag x := by
  unfold fMag fneg
  rw [BitVec.toNat_xor, Nat.xor_mod_two_pow]
  have : (0x80000000#32).toNat % 2 ^ 31 = 0 := by decide
  rw [this, Nat.xor_zero]

theorem fNeg_fneg (x : Word) : fNeg (fneg x) = !fNeg x := by
  have hx := x.isLt
  have hd : ∀ y : Word, fNeg y = decide (y.toNat / 2 ^ 31 = 1) := by
    intro y
    have := y.isLt
    unfold fNeg
    exact decide_eq_decide.2 (by omega)
  rw [hd, hd]
  unfold fneg
  rw [BitVec.toNat_xor, Nat.xor_div_two_pow]
  have h1 : (0x80000000#32).toNat / 2 ^ 31 = 1 := by decide
  rw [h1]
  have h2 : x.toNat / 2 ^ 31 = 0 ∨ x.toNat / 2 ^ 31 = 1 := by omega
  rcases h2 with h | h <;> rw [h] <;> decide

theorem fValue_fneg (x : Word) : fValue (fneg x) = -fValue x := by
  unfold fValue
  rw [fNeg_fneg, fUnits, fMag_fneg, ← fUnits]
  cases fNeg x <;> simp

theorem fIsFinite_fneg {x : Word} (h : fIsFinite x = true) : fIsFinite (fneg x) = true := by
  rw [fIsFinite_iff, fMag_fneg]; exact fIsFinite_iff.1 h

/-! ### The two waveforms (R143, R144) -/

theorem fabs_eq (x : Word) : fabs x = fPack false (fMag x) := by
  unfold fabs fPack; simp

theorem fValue_fabs (x : Word) : fValue (fabs x) = (fUnits x : Int) := by
  rw [fabs_eq, fValue_fPack (fMag_lt x)]; rfl

theorem fIsFinite_fabs {x : Word} (h : fIsFinite x = true) : fIsFinite (fabs x) = true := by
  rw [fabs_eq]; exact fIsFinite_fPack (fIsFinite_iff.1 h)

/-- The triangle of a product from 0.0 to 4.0 lies in [-1.0, 1.0]. -/
theorem triangle_bound {x : Word} (hf : fIsFinite x = true) (hn : fNeg x = false) (hm : fMag x ≤ 0x40800000) :
    fIsFinite (fsub 0x3F800000#32 (fabs (fsub 0x40000000#32 x))) = true ∧
      fUnits (fsub 0x3F800000#32 (fabs (fsub 0x40000000#32 x))) ≤ 2 ^ 149 := by
  have u1 : unitsOfMag 0x3F800000 = 2 ^ 149 := by decide +kernel
  have u2 : unitsOfMag 0x40000000 = 2 ^ 150 := by decide +kernel
  have u4 : unitsOfMag 0x40800000 = 2 ^ 151 := by decide +kernel
  have v1 : fValue 0x3F800000#32 = 2 ^ 149 := by decide +kernel
  have v2 : fValue 0x40000000#32 = 2 ^ 150 := by decide +kernel
  have hx0 : (0 : Int) ≤ fValue x := by rw [fValue, hn]; simp
  have hx4 : fValue x ≤ 2 ^ 151 := by
    rw [fValue, hn]
    have : fUnits x ≤ 2 ^ 151 := by rw [← u4]; exact unitsOfMag_le_iff.2 hm
    simpa using (by exact_mod_cast this : (fUnits x : Int) ≤ 2 ^ 151)
  obtain ⟨f1, b1⟩ := fadd_bound (a := 0x40000000#32) (b := fneg x) (m := 0x40000000) (by decide)
    (fIsFinite_fneg hf) (by norm_num) (by rw [fValue_fneg, v2, u2]; omega)
  rw [u2] at b1
  change fIsFinite (fadd 0x3F800000#32 (fneg (fabs (fadd 0x40000000#32 (fneg x))))) = true ∧
    fUnits (fadd 0x3F800000#32 (fneg (fabs (fadd 0x40000000#32 (fneg x))))) ≤ 2 ^ 149
  rw [← u1]
  refine fadd_bound (by decide) (fIsFinite_fneg (fIsFinite_fabs f1)) (by norm_num) ?_
  rw [fValue_fneg, fValue_fabs, v1, u1]
  omega

/-- A value in [-1.0, 1.0] by the IEEE comparisons is finite with a magnitude of at most 1.0. -/
theorem unit_interval {v : Word} (h : inClosed 0xBF800000#32 0x3F800000#32 v = true) :
    fIsFinite v = true ∧ fUnits v ≤ 2 ^ 149 := by
  have u1 : unitsOfMag 0x3F800000 = 2 ^ 149 := by decide +kernel
  have v1 : fValue 0x3F800000#32 = 2 ^ 149 := by decide +kernel
  have v2 : fValue 0xBF800000#32 = -2 ^ 149 := by decide +kernel
  simp only [inClosed, fle, Bool.and_eq_true, decide_eq_true_eq, v1, v2] at h
  have hu : fUnits v ≤ 2 ^ 149 := by rw [← natAbs_fValue]; omega
  refine ⟨fIsFinite_iff.2 ?_, hu⟩
  have : fMag v ≤ 0x3F800000 := by rw [← unitsOfMag_le_iff, u1]; exact hu
  omega

/-- The sine of a product from 0.0 to 6.3 lies in [-1.0, 1.0] (R145). -/
theorem sinF32_bound {x : Word} (hn : fNeg x = false) (hm : fMag x ≤ 0x40C99999) :
    fIsFinite (sinF32 x) = true ∧ fUnits (sinF32 x) ≤ 2 ^ 149 := by
  have hx : x.toNat < 2 ^ 31 := fNeg_eq_false_iff.1 hn
  have hxm : fMag x = x.toNat := Nat.mod_eq_of_lt hx
  have hd : sineDomain x = true := (inClosed_zero_iff (by decide)).2 (.inl (by rw [hxm] at hm; exact hm))
  have hz : fIsFinite posZero = true ∧ fUnits posZero ≤ 2 ^ 149 := by decide +kernel
  unfold sinF32
  split_ifs with h1 h2
  · exact hz
  · exact hz
  · refine unit_interval ?_
    simpa [hd] using h2

/-- The waveform value of a counter within the cycle, at the scale of that cycle, lies in [-1.0, 1.0] (R146). -/
theorem waveValue_bound {wave c : Word} {o : Nat} (h0 : 0 < c.toNat) (ho : o ≤ c.toNat) :
    fIsFinite (waveValue sinF32 wave (Safety.scaleFor wave c) o) = true ∧
      fUnits (waveValue sinF32 wave (Safety.scaleFor wave c) o) ≤ 2 ^ 149 := by
  have hlt := c.isLt
  have ho' : (BitVec.ofNat 32 o).toNat ≤ c.toNat := by
    rw [BitVec.toNat_ofNat, Nat.mod_eq_of_lt (by omega)]; exact ho
  unfold waveValue Safety.scaleFor
  split_ifs with hw
  · obtain ⟨f, n, m⟩ := scale_mul_counter (k := 0x40800000#32) (by decide) (by decide) (by decide +kernel)
      (by decide +kernel) h0 ho'
    exact triangle_bound f n (le_trans m (by decide +kernel))
  · obtain ⟨f, n, m⟩ := scale_mul_counter (k := Config.tauF32) (by decide) (by decide) (by decide +kernel)
      (by decide +kernel) h0 ho'
    exact sinF32_bound n (le_trans m (by decide +kernel))

/-- The waveform value of the disabled LFO: -1.0 for the triangle, +0.0 for the sinusoid (R148). -/
theorem waveValue_disabled (wave : Word) :
    waveValue sinF32 wave posZero 0 = if wave = 1#32 then 0xBF800000#32 else posZero := by
  unfold waveValue
  split_ifs
  · decide +kernel
  · have : fmul posZero (u2f (BitVec.ofNat 32 0)) = posZero := by decide +kernel
    unfold sineWave
    rw [this]
    exact if_pos rfl

/-! ### Delays -/

/-- With a waveform value in [-1.0, 1.0] and a depth no larger than the base delay, the delay is from 0 to twice the
base delay (R146). -/
theorem delayOf_bound {ds base w : Word} (hw : fIsFinite w = true) (hw1 : fUnits w ≤ 2 ^ 149)
    (hds : fIsFinite ds = true) (hd : fUnits ds ≤ base.toNat * 2 ^ 149) (hb : base.toNat < 2 ^ 30) :
    (delayOf ds base w).toNat ≤ 2 * base.toNat := by
  obtain ⟨hf, hu⟩ := fUnits_fmul_le hw hds hw1
  have habs := abs_le.1 (roundInt_abs_le (le_trans hu hd))
  unfold delayOf
  rw [roundS32_eq hf (by omega) (by omega), BitVec.toNat_add, BitVec.toNat_ofInt]
  omega

end Sys2Proof.Machine
end

