-- ==== Sys2Proof/Laws/Memory.lean ====
section
/-!
SUPPORT. Laws of the buffers: what reading finds after a write or a clear, and that every memory operation keeps the
canonical form.
-/
namespace Sys2Proof.Machine

/-! ### One byte -/

@[simp] theorem byteAt_nil (a : Nat) : byteAt [] a = unlisted a := rfl

theorem byteAt_cons (a' : Nat) (b : Byte) (m : Memory) (a : Nat) :
    byteAt ((a', b) :: m) a = if a = a' then some b else byteAt m a := rfl

theorem memoryWf_cons {a : Nat} {b : Byte} {m : Memory} :
    memoryWf ((a, b) :: m) = true ↔ (∀ c ∈ m, a < c.1) ∧ unlisted a ≠ some b ∧ memoryWf m = true := by
  simp [memoryWf, and_assoc]

/-- An address no entry lists reads as an unlisted one. -/
theorem byteAt_of_not_mem {m : Memory} {a : Nat} (h : ∀ c ∈ m, c.1 ≠ a) : byteAt m a = unlisted a := by
  induction m with
  | nil => rfl
  | cons c m ih =>
    obtain ⟨a', b⟩ := c
    have h1 : a ≠ a' := fun e => h (a', b) (by simp) e.symm
    rw [byteAt_cons, if_neg h1]
    exact ih fun c hc => h c (by simp [hc])

/-- A write of a byte leaves every other address alone, in any memory. -/
theorem byteAt_putByte_ne {a a' : Nat} (h : a' ≠ a) (b : Byte) (m : Memory) :
    byteAt (putByte a b m) a' = byteAt m a' := by
  induction m with
  | nil => by_cases hu : unlisted a = some b <;> simp [putByte, hu, byteAt_cons, h]
  | cons c m ih =>
    obtain ⟨x, y⟩ := c
    rw [putByte]
    split
    · split
      · rfl
      · rw [byteAt_cons, if_neg h]
    · split
      · next h2 =>
        subst h2
        split <;> simp [byteAt_cons, h]
      · rw [byteAt_cons, byteAt_cons, ih]

/-- A byte written is the byte read. -/
theorem byteAt_putByte_same {m : Memory} (hm : memoryWf m = true) (a : Nat) (b : Byte) :
    byteAt (putByte a b m) a = some b := by
  induction m with
  | nil => by_cases hu : unlisted a = some b <;> simp [putByte, hu, byteAt_cons]
  | cons c m ih =>
    obtain ⟨x, y⟩ := c
    obtain ⟨hlt, -, hw⟩ := memoryWf_cons.1 hm
    rw [putByte]
    split
    · next h1 =>
      split
      · next hu =>
        rw [← hu]
        refine byteAt_of_not_mem fun c hc => ?_
        rcases List.mem_cons.1 hc with rfl | hc
        · exact (Nat.ne_of_lt h1).symm
        · have := hlt c hc; omega
      · simp [byteAt_cons]
    · split
      · next h2 =>
        subst h2
        split
        · next hu =>
          rw [← hu]
          exact byteAt_of_not_mem fun c hc => by have := hlt c hc; omega
        · simp [byteAt_cons]
      · next h2 => rw [byteAt_cons, if_neg h2, ih hw]

theorem mem_putByte {a : Nat} {b : Byte} {m : Memory} {c : Host.Cell} (h : c ∈ putByte a b m) :
    c = (a, b) ∨ c ∈ m := by
  induction m with
  | nil =>
    by_cases hu : unlisted a = some b
    · simp [putByte, hu] at h
    · simp [putByte, hu] at h; exact Or.inl h
  | cons d m ih =>
    obtain ⟨x, y⟩ := d
    rw [putByte] at h
    split at h
    · split at h
      · exact Or.inr h
      · simpa using h
    · split at h
      · split at h
        · exact Or.inr (by simp [h])
        · rcases List.mem_cons.1 h with h | h
          · exact Or.inl h
          · exact Or.inr (by simp [h])
      · rcases List.mem_cons.1 h with h | h
        · exact Or.inr (by simp [h])
        · rcases ih h with h | h
          · exact Or.inl h
          · exact Or.inr (by simp [h])

/-- Writing a byte keeps the canonical form. -/
theorem memoryWf_putByte {m : Memory} (hm : memoryWf m = true) (a : Nat) (b : Byte) :
    memoryWf (putByte a b m) = true := by
  induction m with
  | nil => by_cases hu : unlisted a = some b <;> simp [putByte, hu, memoryWf]
  | cons c m ih =>
    obtain ⟨x, y⟩ := c
    obtain ⟨hlt, hne, hw⟩ := memoryWf_cons.1 hm
    rw [putByte]
    split
    · next h1 =>
      split
      · exact hm
      · next hu =>
        refine memoryWf_cons.2 ⟨fun c hc => ?_, hu, hm⟩
        rcases List.mem_cons.1 hc with rfl | hc
        · exact h1
        · have := hlt c hc; omega
    · split
      · next h2 =>
        subst h2
        split
        · exact hw
        · next hu => exact memoryWf_cons.2 ⟨hlt, hu, hw⟩
      · next h1 h2 =>
        refine memoryWf_cons.2 ⟨fun c hc => ?_, hne, ih hw⟩
        rcases mem_putByte hc with rfl | hc
        · omega
        · exact hlt c hc

/-! ### A range of bytes -/

/-- After a range is forgotten its addresses read as unlisted ones, and every other address as before. -/
theorem byteAt_forgetRange (lo hi : Nat) (m : Memory) (a : Nat) :
    byteAt (forgetRange lo hi m) a = if lo ≤ a ∧ a < hi then unlisted a else byteAt m a := by
  induction m with
  | nil => simp [forgetRange]
  | cons c m ih =>
    obtain ⟨x, y⟩ := c
    have hstep : forgetRange lo hi ((x, y) :: m) =
        if lo ≤ x ∧ x < hi then forgetRange lo hi m else (x, y) :: forgetRange lo hi m := by
      by_cases h : lo ≤ x ∧ x < hi
      · simp [forgetRange, h]
      · rw [if_neg h, forgetRange, List.filter_cons, if_pos]
        · rfl
        · simpa only [← Bool.decide_and, Bool.not_eq_true', decide_eq_false_iff_not] using h
    rw [hstep]
    split
    · next hx =>
      rw [ih, byteAt_cons]
      split
      · rfl
      · next ha =>
        rw [if_neg]
        rintro rfl
        exact ha hx
    · next hx =>
      rw [byteAt_cons, byteAt_cons, ih]
      by_cases hax : a = x
      · subst hax; simp [hx]
      · simp [hax]

theorem mem_forgetRange {lo hi : Nat} {m : Memory} {c : Host.Cell} (h : c ∈ forgetRange lo hi m) : c ∈ m :=
  List.mem_of_mem_filter h

/-- Forgetting a range keeps the canonical form. -/
theorem memoryWf_forgetRange (lo hi : Nat) {m : Memory} (hm : memoryWf m = true) :
    memoryWf (forgetRange lo hi m) = true := by
  induction m with
  | nil => rfl
  | cons c m ih =>
    obtain ⟨x, y⟩ := c
    obtain ⟨hlt, hne, hw⟩ := memoryWf_cons.1 hm
    rw [forgetRange, List.filter_cons]
    split
    · exact memoryWf_cons.2 ⟨fun c hc => hlt c (List.mem_of_mem_filter hc), hne, ih hw⟩
    · exact ih hw

/-! ### Words -/

/-- A word is the word of its four bytes (R65). -/
@[simp] theorem wordOf_byteOf (w : Word) : wordOf (byteOf w 0) (byteOf w 1) (byteOf w 2) (byteOf w 3) = w := by
  apply BitVec.eq_of_getLsbD_eq
  intro i hi
  simp only [wordOf, byteOf, BitVec.getLsbD_append, BitVec.getLsbD_extractLsb']
  rcases Nat.lt_or_ge i 8 with h | h
  · simp [h]
  rcases Nat.lt_or_ge i 16 with h2 | h2
  · have : ¬ i < 8 := by omega
    have e : 8 + (i - 8) = i := by omega
    simp [this, e, show i - 8 < 8 by omega]
  rcases Nat.lt_or_ge i 24 with h3 | h3
  · have e : 16 + (i - 8 - 8) = i := by omega
    simp [show ¬ i < 8 by omega, show ¬ i - 8 < 8 by omega, e, show i - 8 - 8 < 8 by omega]
  · have e : 24 + (i - 8 - 8 - 8) = i := by omega
    simp [show ¬ i < 8 by omega, show ¬ i - 8 < 8 by omega, show ¬ i - 8 - 8 < 8 by omega, e,
      show i - 8 - 8 - 8 < 8 by omega]

/-- A write of a word leaves every byte outside its four alone. -/
theorem byteAt_putWord_ne {a x : Nat} (h : x < a ∨ a + 4 ≤ x) (w : Word) (m : Memory) :
    byteAt (putWord a w m) x = byteAt m x := by
  simp only [putWord]
  rw [byteAt_putByte_ne (by omega), byteAt_putByte_ne (by omega), byteAt_putByte_ne (by omega),
    byteAt_putByte_ne (by omega)]

/-- Byte i of a word written stands at its address plus i (R65). -/
theorem byteAt_putWord_same {m : Memory} (hm : memoryWf m = true) (a : Nat) (w : Word) {i : Nat} (hi : i < 4) :
    byteAt (putWord a w m) (a + i) = some (byteOf w i) := by
  have h0 := memoryWf_putByte hm a (byteOf w 0)
  have h1 := memoryWf_putByte h0 (a + 1) (byteOf w 1)
  have h2 := memoryWf_putByte h1 (a + 2) (byteOf w 2)
  simp only [putWord]
  interval_cases i
  · rw [byteAt_putByte_ne (by omega), byteAt_putByte_ne (by omega), byteAt_putByte_ne (by omega)]
    exact byteAt_putByte_same hm a _
  · rw [byteAt_putByte_ne (by omega), byteAt_putByte_ne (by omega)]
    exact byteAt_putByte_same h0 _ _
  · rw [byteAt_putByte_ne (by omega)]
    exact byteAt_putByte_same h1 _ _
  · exact byteAt_putByte_same h2 _ _

theorem memoryWf_putWord {m : Memory} (hm : memoryWf m = true) (a : Nat) (w : Word) :
    memoryWf (putWord a w m) = true :=
  memoryWf_putByte (memoryWf_putByte (memoryWf_putByte (memoryWf_putByte hm _ _) _ _) _ _) _ _

/-- A word written is the word read. -/
theorem wordAt_putWord_same {m : Memory} (hm : memoryWf m = true) (a : Nat) (w : Word) :
    wordAt (putWord a w m) a = some w := by
  have h0 := byteAt_putWord_same hm a w (i := 0) (by omega)
  have h1 := byteAt_putWord_same hm a w (i := 1) (by omega)
  have h2 := byteAt_putWord_same hm a w (i := 2) (by omega)
  have h3 := byteAt_putWord_same hm a w (i := 3) (by omega)
  rw [Nat.add_zero] at h0
  rw [wordAt, h0, h1, h2, h3]
  simp

/-- Words that agree byte by byte are the same word. -/
theorem wordAt_congr {m m' : Memory} {a : Nat} (h : ∀ x, a ≤ x → x < a + 4 → byteAt m x = byteAt m' x) :
    wordAt m a = wordAt m' a := by
  unfold wordAt
  rw [h a (by omega) (by omega), h (a + 1) (by omega) (by omega), h (a + 2) (by omega) (by omega),
    h (a + 3) (by omega) (by omega)]

/-- A write of a word leaves every word apart from it alone. -/
theorem wordAt_putWord_ne {a x : Nat} (h : x + 4 ≤ a ∨ a + 4 ≤ x) (w : Word) (m : Memory) :
    wordAt (putWord a w m) x = wordAt m x :=
  wordAt_congr fun y _ _ => byteAt_putWord_ne (by omega) w m

theorem mem_putWord {a : Nat} {w : Word} {m : Memory} {c : Host.Cell} (h : c ∈ putWord a w m) :
    (a ≤ c.1 ∧ c.1 < a + 4) ∨ c ∈ m := by
  rcases mem_putByte h with rfl | h
  · exact Or.inl ⟨by simp, by simp⟩
  rcases mem_putByte h with rfl | h
  · exact Or.inl ⟨by simp, by simp⟩
  rcases mem_putByte h with rfl | h
  · exact Or.inl ⟨by simp, by simp⟩
  rcases mem_putByte h with rfl | h
  · exact Or.inl ⟨by simp, by simp⟩
  exact Or.inr h

/-! ### The DL words -/

/-- A cleared DL word is +0.0 (R114). -/
theorem wordAt_clearDl_inside {count k : Nat} (hk : k < count) (hw : count ≤ 65536) (m : Memory) :
    wordAt (clearDl count m) (dlAddr k) = some 0#32 := by
  have h : ∀ i, i < 4 → byteAt (clearDl count m) (dlAddr k + i) = some 0#8 := by
    intro i hi
    have h1 : dlBase ≤ dlAddr k + i ∧ dlAddr k + i < dlBase + 4 * count := by unfold dlAddr; omega
    have h2 : dlBase ≤ dlAddr k + i ∧ dlAddr k + i < busEnd := by simp only [dlAddr, dlBase, busEnd]; omega
    rw [clearDl, byteAt_forgetRange, if_pos h1, unlisted, if_pos h2]
  have h0 := h 0 (by omega)
  rw [Nat.add_zero] at h0
  rw [wordAt, h0, h 1 (by omega), h 2 (by omega), h 3 (by omega)]
  rfl

/-- A clear of the DL words leaves every other byte alone. -/
theorem byteAt_clearDl_outside {count a : Nat} (h : a < dlBase ∨ dlBase + 4 * count ≤ a) (m : Memory) :
    byteAt (clearDl count m) a = byteAt m a := by
  rw [clearDl, byteAt_forgetRange, if_neg (by omega)]

theorem memoryWf_clearDl (count : Nat) {m : Memory} (hm : memoryWf m = true) : memoryWf (clearDl count m) = true :=
  memoryWf_forgetRange _ _ hm

/-- Every DL word of the window holds a value, whatever has been written. -/
theorem byteAt_dl_isSome {a : Nat} (h : dlBase ≤ a ∧ a < busEnd) (m : Memory) : (byteAt m a).isSome = true := by
  induction m with
  | nil => simp [unlisted, h]
  | cons c m ih =>
    obtain ⟨x, y⟩ := c
    rw [byteAt_cons]
    split
    · rfl
    · exact ih

theorem wordAt_dl_isSome {k : Nat} (h : k < 65536) (m : Memory) : ∃ w, wordAt m (dlAddr k) = some w := by
  have g : ∀ i, i < 4 → ∃ b, byteAt m (dlAddr k + i) = some b := by
    intro i hi
    refine Option.isSome_iff_exists.1 (byteAt_dl_isSome ?_ m)
    simp only [dlAddr, dlBase, busEnd]
    omega
  obtain ⟨b0, h0⟩ := g 0 (by omega)
  obtain ⟨b1, h1⟩ := g 1 (by omega)
  obtain ⟨b2, h2⟩ := g 2 (by omega)
  obtain ⟨b3, h3⟩ := g 3 (by omega)
  rw [Nat.add_zero] at h0
  exact ⟨_, by rw [wordAt, h0, h1, h2, h3]⟩

theorem dlCap_le (p : Params) : p.dlCap ≤ 32768 := by
  have h : p.dlCapLog.val ≤ 15 := by omega
  calc p.dlCap = 2 ^ p.dlCapLog.val := rfl
    _ ≤ 2 ^ 15 := Nat.pow_le_pow_right (by omega) h
    _ = 32768 := by norm_num

/-! ### The core's accesses, each said once -/

/-- readDl answers exactly for the words of the RAM. -/
theorem readDl_eq (p : Params) (m : Memory) (k : Nat) :
    readDl p m k = if k < 2 * p.dlCap then .ok ((wordAt m (dlAddr k)).getD 0#32) else .error (.noDlWord k) := by
  unfold readDl
  split
  · next h =>
    obtain ⟨w, hw⟩ := wordAt_dl_isSome (k := k) (by have := dlCap_le p; omega) m
    simp [hw]
  · rfl

theorem readIn_ok_iff {m : Memory} {i : Nat} {w : Word} : readIn m i = .ok w ↔ wordAt m (inAddr i) = some w := by
  unfold readIn
  cases wordAt m (inAddr i) <;> simp

theorem readOut_ok_iff {m : Memory} {c i : Nat} {w : Word} :
    readOut m c i = .ok w ↔ wordAt m (outAddr c i) = some w := by
  unfold readOut
  cases wordAt m (outAddr c i) <;> simp

end Sys2Proof.Machine
end

