-- ==== Sys2Proof/Laws/PerInstr.lean ====
section
/-!
SUPPORT. A property of every command as syntax: its command word has RSV 0 and an OP from 1 to 7 (30_encoding.md R80,
R82), so no valid command is one of the reserved words of R88.
-/
namespace Sys2Proof.Laws.CommandWord

/-- The word of a well-formed command keeps clear of the reserved values of OP and RSV. -/
def Statement (i : Instr) : Prop :=
  WellFormed i → fieldRsv (encode i) = 0 ∧ 1 ≤ fieldOp (encode i) ∧ fieldOp (encode i) ≤ 7

theorem reset : Statement .reset := by unfold Statement; decide
theorem release : Statement .release := by unfold Statement; decide
theorem devchg : Statement .devchg := by unfold Statement; decide
theorem update : Statement .update := by unfold Statement; decide

theorem process (n nch : Nat) : Statement (.process n nch) := by
  intro h
  simp only [WellFormed, Instr.encodable, Bool.and_eq_true, decide_eq_true_eq] at h
  simp only [fieldRsv, fieldOp, encode, formatC, BitVec.toNat_ofNat]
  omega

theorem setpWaveform : Statement .setpWaveform := by unfold Statement; decide
theorem setpPhase : Statement .setpPhase := by unfold Statement; decide
theorem setpRate : Statement .setpRate := by unfold Statement; decide
theorem setpDepth : Statement .setpDepth := by unfold Statement; decide
theorem setpFeedback : Statement .setpFeedback := by unfold Statement; decide
theorem setpDelay : Statement .setpDelay := by unfold Statement; decide
theorem getpWaveform : Statement .getpWaveform := by unfold Statement; decide
theorem getpPhase : Statement .getpPhase := by unfold Statement; decide
theorem getpRate : Statement .getpRate := by unfold Statement; decide
theorem getpDepth : Statement .getpDepth := by unfold Statement; decide
theorem getpFeedback : Statement .getpFeedback := by unfold Statement; decide
theorem getpDelay : Statement .getpDelay := by unfold Statement; decide

end Sys2Proof.Laws.CommandWord
end

