-- ==== Sys2Proof/Laws/Process.lean ====
section
/-!
SUPPORT. The loops of PROCESS, each said once: what a loop that succeeds has done to the CURSOR, to the bytes outside
the words it stores, to the canonical form, and when a loop cannot fail.
-/
namespace Sys2Proof.Machine

open Sys2Proof.Safety

/-! ### Bind in Except, once -/

theorem except_bind_ok_iff {α β : Type} {x : Except Fault α} {f : α → Except Fault β} {b : β} :
    (x >>= f) = .ok b ↔ ∃ a, x = .ok a ∧ f a = .ok b := by
  cases x with
  | error e =>
    constructor
    · intro h; cases h
    · rintro ⟨_, h, _⟩; cases h
  | ok a =>
    constructor
    · intro h; exact ⟨a, rfl, h⟩
    · rintro ⟨_, h, h'⟩; cases h; exact h'

theorem except_bind_ok {α β : Type} (a : α) (f : α → Except Fault β) : (Except.ok a >>= f) = f a := rfl

theorem except_pure_ok_iff {α : Type} {a b : α} : (pure a : Except Fault α) = .ok b ↔ a = b := by
  constructor
  · intro h; cases h; rfl
  · rintro rfl; rfl

/-! ### Presence of a word -/

/-- In IN and OUT, where an unlisted address holds nothing, a byte written is there in any memory. -/
theorem byteAt_putByte_isSome {a : Nat} {b : Byte} (h : unlisted a ≠ some b) (m : Memory) :
    byteAt (putByte a b m) a = some b := by
  induction m with
  | nil => simp [putByte, h, byteAt_cons]
  | cons c m ih =>
    obtain ⟨x, y⟩ := c
    rw [putByte]
    simp only [if_neg h]
    split
    · rw [byteAt_cons, if_pos rfl]
    · split
      · rw [byteAt_cons, if_pos rfl]
      · next h2 => rw [byteAt_cons, if_neg h2, ih]

/-- A write of a byte makes no byte absent. -/
theorem byteAt_isSome_putByte {a : Nat} {b : Byte} {m : Memory} {x : Nat} (h : (byteAt m x).isSome = true) :
    (byteAt (putByte a b m) x).isSome = true := by
  by_cases hx : x = a
  · subst hx
    by_cases hu : unlisted x = some b
    · have hw : dlBase ≤ x ∧ x < busEnd := by
        unfold unlisted at hu
        split at hu
        · assumption
        · cases hu
      exact byteAt_dl_isSome hw _
    · rw [byteAt_putByte_isSome hu]; rfl
  · rwa [byteAt_putByte_ne hx]

theorem byteAt_isSome_putWord {a : Nat} {w : Word} {m : Memory} {x : Nat} (h : (byteAt m x).isSome = true) :
    (byteAt (putWord a w m) x).isSome = true :=
  byteAt_isSome_putByte (byteAt_isSome_putByte (byteAt_isSome_putByte (byteAt_isSome_putByte h)))

theorem wordAt_isSome_iff {m : Memory} {a : Nat} :
    (wordAt m a).isSome = true ↔ ∀ i, i < 4 → (byteAt m (a + i)).isSome = true := by
  constructor
  · intro h i hi
    unfold wordAt at h
    split at h
    · next h0 h1 h2 h3 => interval_cases i <;> simp_all
    · cases h
  · intro h
    obtain ⟨b0, h0⟩ := Option.isSome_iff_exists.1 (h 0 (by omega))
    obtain ⟨b1, h1⟩ := Option.isSome_iff_exists.1 (h 1 (by omega))
    obtain ⟨b2, h2⟩ := Option.isSome_iff_exists.1 (h 2 (by omega))
    obtain ⟨b3, h3⟩ := Option.isSome_iff_exists.1 (h 3 (by omega))
    rw [Nat.add_zero] at h0
    rw [wordAt, h0, h1, h2, h3]; rfl

/-- A write of a word makes no word absent. -/
theorem wordAt_isSome_putWord {a : Nat} {w : Word} {m : Memory} {x : Nat} (h : (wordAt m x).isSome = true) :
    (wordAt (putWord a w m) x).isSome = true :=
  wordAt_isSome_iff.2 fun i hi => byteAt_isSome_putWord (wordAt_isSome_iff.1 h i hi)

/-! ### What a loop keeps -/

/-- From buffers m to buffers m': the canonical form is kept, no word goes absent, and a byte that `stored` does not
name reads as before. -/
structure Keeps (stored : Nat → Prop) (m m' : Memory) : Prop where
  wf : memoryWf m = true → memoryWf m' = true
  present : ∀ a, (wordAt m a).isSome = true → (wordAt m' a).isSome = true
  frame : ∀ a, ¬ stored a → byteAt m' a = byteAt m a
  listed : ∀ c ∈ m', stored c.1 ∨ c ∈ m

theorem Keeps.refl (stored : Nat → Prop) (m : Memory) : Keeps stored m m :=
  ⟨id, fun _ h => h, fun _ _ => rfl, fun _ h => Or.inr h⟩

theorem Keeps.trans {stored : Nat → Prop} {m m' m'' : Memory} (h : Keeps stored m m') (h' : Keeps stored m' m'') :
    Keeps stored m m'' where
  wf := h'.wf ∘ h.wf
  present a ha := h'.present a (h.present a ha)
  frame a ha := (h'.frame a ha).trans (h.frame a ha)
  listed c hc := (h'.listed c hc).elim Or.inl (h.listed c)

theorem Keeps.mono {p q : Nat → Prop} {m m' : Memory} (h : Keeps p m m') (hpq : ∀ a, p a → q a) : Keeps q m m' where
  wf := h.wf
  present := h.present
  frame a ha := h.frame a fun hp => ha (hpq a hp)
  listed c hc := (h.listed c hc).imp_left (hpq _)

theorem keeps_putWord (a : Nat) (w : Word) (m : Memory) : Keeps (inWord a) m (putWord a w m) where
  wf h := memoryWf_putWord h a w
  present _ h := wordAt_isSome_putWord h
  frame x hx := byteAt_putWord_ne (by unfold inWord at hx; omega) w m
  listed c hc := mem_putWord hc

/-! ### The comb step -/

/-- A comb step that succeeds (R164, R165): its slots are in the RAM, the slot takes the input and then input plus
scaled tap, and the wet sample is the scaled tap. -/
theorem combStep_ok {s : State} {cur x d : Word} {line : Nat} {m m' : Memory} {wet : Word}
    (h : combStep s cur line x d m = .ok (m', wet)) :
    dlSlot s.dlLen line cur < 2 * s.params.dlCap ∧ dlSlot s.dlLen line (cur - d) < 2 * s.params.dlCap ∧
    wet = fmul ((wordAt (putWord (dlAddr (dlSlot s.dlLen line cur)) x m)
      (dlAddr (dlSlot s.dlLen line (cur - d)))).getD 0#32) s.feedbackRt ∧
    m' = putWord (dlAddr (dlSlot s.dlLen line cur))
      (fadd ((wordAt (putWord (dlAddr (dlSlot s.dlLen line cur)) x m)
        (dlAddr (dlSlot s.dlLen line cur))).getD 0#32) wet)
      (putWord (dlAddr (dlSlot s.dlLen line cur)) x m) := by
  simp only [combStep, writeDl, readDl_eq] at h
  by_cases h1 : dlSlot s.dlLen line cur < 2 * s.params.dlCap
  · by_cases h2 : dlSlot s.dlLen line (cur - d) < 2 * s.params.dlCap
    · simp only [h1, h2, if_true, except_bind_ok, except_pure_ok_iff, Prod.mk.injEq] at h
      exact ⟨h1, h2, h.2.symm, by rw [← h.1, ← h.2]⟩
    · simp only [h1, h2, if_true, if_false, except_bind_ok] at h
      cases h
  · simp only [h1, if_false] at h
    cases h

/-- A comb step whose slots are in the RAM succeeds. -/
theorem combStep_total {s : State} {cur d : Word} {line : Nat} (x : Word) (m : Memory)
    (h1 : dlSlot s.dlLen line cur < 2 * s.params.dlCap) (h2 : dlSlot s.dlLen line (cur - d) < 2 * s.params.dlCap) :
    ∃ r, combStep s cur line x d m = .ok r := by
  simp only [combStep, writeDl, readDl_eq, h1, h2, if_true, except_bind_ok]
  exact ⟨_, rfl⟩

theorem combStep_keeps {s : State} {cur x d : Word} {line : Nat} {m m' : Memory} {wet : Word}
    (h : combStep s cur line x d m = .ok (m', wet)) :
    Keeps (inWord (dlAddr (dlSlot s.dlLen line cur))) m m' := by
  obtain ⟨-, -, -, rfl⟩ := combStep_ok h
  exact (keeps_putWord _ _ _).trans (keeps_putWord _ _ _)

/-! ### A sample, and the samples of a sub-block -/

/-- The bytes of the slots of k samples from a cursor on. -/
def slotBytes (s : State) (cur : Word) (k a : Nat) : Prop :=
  ∃ line j, line < 2 ∧ j < k ∧ inWord (dlAddr (dlSlot s.dlLen line (cur + BitVec.ofNat 32 j))) a

theorem slotBytes_mono {s : State} {cur : Word} {k k' a : Nat} (h : k ≤ k') (ha : slotBytes s cur k a) :
    slotBytes s cur k' a := by
  obtain ⟨l, j, hl, hj, hw⟩ := ha
  exact ⟨l, j, hl, by omega, hw⟩

theorem cursor_shift (cur : Word) (b j : Nat) :
    cur + BitVec.ofNat 32 b + BitVec.ofNat 32 j = cur + BitVec.ofNat 32 (b + j) := by
  rw [BitVec.add_assoc, ← BitVec.ofNat_add]

theorem slotBytes_shift {s : State} {cur : Word} {b k a : Nat} (ha : slotBytes s (cur + BitVec.ofNat 32 b) k a) :
    slotBytes s cur (b + k) a := by
  obtain ⟨l, j, hl, hj, hw⟩ := ha
  exact ⟨l, b + j, hl, by omega, by rwa [cursor_shift] at hw⟩

/-- A sample that succeeds: it read its IN word, ran the two comb steps in order and moved the CURSOR (R163, R166). -/
theorem sampleStep_ok {s : State} {i : Nat} {d w : Word × Word} {wk wk' : Work}
    (h : sampleStep s i d wk = .ok (wk', w)) :
    ∃ x m0, readIn wk.mem i = .ok x ∧ combStep s wk.cursor 0 x d.1 wk.mem = .ok (m0, w.1) ∧
      combStep s wk.cursor 1 x d.2 m0 = .ok (wk'.mem, w.2) ∧ wk'.cursor = wk.cursor + 1#32 := by
  unfold sampleStep at h
  obtain ⟨x, hx, h⟩ := except_bind_ok_iff.1 h
  obtain ⟨⟨m0, w0⟩, h0, h⟩ := except_bind_ok_iff.1 h
  obtain ⟨⟨m1, w1⟩, h1, h⟩ := except_bind_ok_iff.1 h
  have h := except_pure_ok_iff.1 h
  simp only [Prod.mk.injEq] at h
  obtain ⟨rfl, rfl⟩ := h
  exact ⟨x, m0, hx, h0, h1, rfl⟩

theorem sampleStep_keeps {s : State} {i : Nat} {d w : Word × Word} {wk wk' : Work}
    (h : sampleStep s i d wk = .ok (wk', w)) :
    wk'.cursor = wk.cursor + 1#32 ∧ Keeps (slotBytes s wk.cursor 1) wk.mem wk'.mem := by
  obtain ⟨x, m0, -, h0, h1, hc⟩ := sampleStep_ok h
  refine ⟨hc, ((combStep_keeps h0).mono fun a ha => ?_).trans ((combStep_keeps h1).mono fun a ha => ?_)⟩
  · exact ⟨0, 0, by omega, by omega, by simpa using ha⟩
  · exact ⟨1, 0, by omega, by omega, by simpa using ha⟩

/-- The samples of a run: one wet pair each, the CURSOR advanced by their number, only their slots stored. -/
theorem runSamples_keeps {s : State} {ds : List (Word × Word)} {i : Nat} {wk wk' : Work} {ws : List (Word × Word)}
    (h : runSamples s i ds wk = .ok (wk', ws)) :
    ws.length = ds.length ∧ wk'.cursor = wk.cursor + BitVec.ofNat 32 ds.length ∧
      Keeps (slotBytes s wk.cursor ds.length) wk.mem wk'.mem := by
  induction ds generalizing i wk ws with
  | nil =>
    simp only [runSamples, Except.ok.injEq, Prod.mk.injEq] at h
    obtain ⟨rfl, rfl⟩ := h
    exact ⟨rfl, by simp, Keeps.refl _ _⟩
  | cons d ds ih =>
    rw [runSamples] at h
    obtain ⟨⟨wk1, w⟩, h1, h⟩ := except_bind_ok_iff.1 h
    obtain ⟨⟨wk2, ws2⟩, h2, h⟩ := except_bind_ok_iff.1 h
    have h := except_pure_ok_iff.1 h
    simp only [Prod.mk.injEq] at h
    obtain ⟨rfl, rfl⟩ := h
    obtain ⟨hc1, k1⟩ := sampleStep_keeps h1
    obtain ⟨hl, hc2, k2⟩ := ih h2
    rw [hc1] at hc2 k2
    have e : (1#32 : Word) = BitVec.ofNat 32 1 := rfl
    rw [e] at hc2 k2
    refine ⟨by simp [hl], by rw [hc2, cursor_shift, List.length_cons, Nat.add_comm], ?_⟩
    refine (k1.mono fun a ha => slotBytes_mono (by simp) ha).trans (k2.mono fun a ha => ?_)
    have := slotBytes_shift ha
    rwa [List.length_cons, Nat.add_comm]

/-! ### The mixer -/

/-- The bytes of k words of an OUT channel from sample i on. -/
def outBytes (c i k a : Nat) : Prop := ∃ j, j < k ∧ inWord (outAddr c (i + j)) a

theorem accumulate_keeps {g : Word} {c : Nat} {ws : List Word} {i : Nat} {m m' : Memory}
    (h : accumulate g c i ws m = .ok m') : Keeps (outBytes c i ws.length) m m' := by
  induction ws generalizing i m with
  | nil =>
    simp only [accumulate, Except.ok.injEq] at h
    exact h ▸ Keeps.refl _ _
  | cons w ws ih =>
    rw [accumulate] at h
    obtain ⟨o, -, h⟩ := except_bind_ok_iff.1 h
    refine ((keeps_putWord (outAddr c i) _ m).mono fun a ha => ⟨0, by simp, by simpa using ha⟩).trans
      ((ih h).mono fun a ha => ?_)
    obtain ⟨j, hj, hw⟩ := ha
    exact ⟨j + 1, by simp; omega, by rwa [show i + (j + 1) = i + 1 + j by omega]⟩

/-- Accumulating into words that are there succeeds. -/
theorem accumulate_total {g : Word} {c : Nat} {ws : List Word} {i : Nat} {m : Memory}
    (h : ∀ j, j < ws.length → (wordAt m (outAddr c (i + j))).isSome = true) : ∃ m', accumulate g c i ws m = .ok m' := by
  induction ws generalizing i m with
  | nil => exact ⟨m, rfl⟩
  | cons w ws ih =>
    obtain ⟨o, ho⟩ := Option.isSome_iff_exists.1 (h 0 (by simp))
    rw [Nat.add_zero] at ho
    rw [accumulate, readOut_ok_iff.2 ho, except_bind_ok]
    refine ih fun j hj => wordAt_isSome_putWord ?_
    have := h (j + 1) (by simp; omega)
    rwa [show i + (j + 1) = i + 1 + j by omega] at this

/-- A channel's words are stored only where one of its gains is audible (R168). -/
def mixedBytes (s : State) (nch i k a : Nat) : Prop :=
  ∃ c, c < nch ∧ (audible (gainAt s.gainRt0 c) = true ∨ audible (gainAt s.gainRt1 c) = true) ∧ outBytes c i k a

theorem mixLine_keeps {g : Word} {c i : Nat} {ws : List Word} {m m' : Memory} (h : mixLine g c i ws m = .ok m') :
    Keeps (fun a => audible g = true ∧ outBytes c i ws.length a) m m' := by
  unfold mixLine at h
  split at h
  · next hg => exact (accumulate_keeps h).mono fun a ha => ⟨hg, ha⟩
  · cases h; exact Keeps.refl _ _

theorem mixChannels_keeps {s : State} {nch i : Nat} {wet : List (Word × Word)} {cs : List Nat} {m m' : Memory}
    (hcs : ∀ c ∈ cs, c < nch) (h : mixChannels s i wet cs m = .ok m') :
    Keeps (mixedBytes s nch i wet.length) m m' := by
  induction cs generalizing m with
  | nil => cases h; exact Keeps.refl _ _
  | cons c cs ih =>
    rw [mixChannels] at h
    obtain ⟨m1, h1, h2⟩ := except_bind_ok_iff.1 h
    rw [mixChannel] at h1
    obtain ⟨m0, h0, h1⟩ := except_bind_ok_iff.1 h1
    have hc : c < nch := hcs c (by simp)
    refine Keeps.trans (Keeps.trans ((mixLine_keeps h0).mono ?_) ((mixLine_keeps h1).mono ?_))
      (ih (fun c' hc' => hcs c' (by simp [hc'])) h2)
    · rintro a ⟨hg, ha⟩
      exact ⟨c, hc, Or.inl hg, by simpa using ha⟩
    · rintro a ⟨hg, ha⟩
      exact ⟨c, hc, Or.inr hg, by simpa using ha⟩

theorem mixLine_total {g : Word} {c i : Nat} {ws : List Word} {m : Memory}
    (h : audible g = true → ∀ j, j < ws.length → (wordAt m (outAddr c (i + j))).isSome = true) :
    ∃ m', mixLine g c i ws m = .ok m' := by
  unfold mixLine
  split
  · next hg => exact accumulate_total (h hg)
  · exact ⟨m, rfl⟩

theorem mixChannels_total {s : State} {i : Nat} {wet : List (Word × Word)} {cs : List Nat} {m : Memory}
    (h : ∀ c ∈ cs, (audible (gainAt s.gainRt0 c) = true ∨ audible (gainAt s.gainRt1 c) = true) →
      ∀ j, j < wet.length → (wordAt m (outAddr c (i + j))).isSome = true) :
    ∃ m', mixChannels s i wet cs m = .ok m' := by
  induction cs generalizing m with
  | nil => exact ⟨m, rfl⟩
  | cons c cs ih =>
    obtain ⟨m0, h0⟩ := mixLine_total (g := gainAt s.gainRt0 c) (c := c) (i := i) (ws := wet.map Prod.fst) (m := m)
      fun hg j hj => h c (by simp) (Or.inl hg) j (by simpa using hj)
    have p0 := (mixLine_keeps h0).present
    obtain ⟨m1, h1⟩ := mixLine_total (g := gainAt s.gainRt1 c) (c := c) (i := i) (ws := wet.map Prod.snd) (m := m0)
      fun hg j hj => p0 _ (h c (by simp) (Or.inr hg) j (by simpa using hj))
    have p1 := (mixLine_keeps h1).present
    obtain ⟨m2, h2⟩ := ih (m := m1) fun c' hc' hg j hj => p1 _ (p0 _ (h c' (by simp [hc']) hg j hj))
    exact ⟨m2, by rw [mixChannels, mixChannel, h0, except_bind_ok, h1, except_bind_ok, h2]⟩

/-! ### Sub-blocks -/

theorem lfoRun_length (s : State) (o0 n : Nat) : (lfoRun s o0 n).length = n := by simp [lfoRun, lfo]

/-- The delays a sub-block that starts at a cursor runs with (R162). -/
def blockDelays (s : State) (cur : Word) (k : Nat) : List (Word × Word) :=
  (lfoRun s (startCounter0 s cur) k).zip (lfoRun s (startCounter1 s cur) k)

theorem blockDelays_length (s : State) (cur : Word) (k : Nat) : (blockDelays s cur k).length = k := by
  simp [blockDelays, lfoRun_length]

/-- A sub-block is its samples and then its mix (R161). -/
theorem subBlock_ok {s : State} {nch : Nat} {blk : Nat × Nat} {wk wk' : Work} (h : subBlock s nch blk wk = .ok wk') :
    ∃ wk1 wet, runSamples s blk.1 (blockDelays s wk.cursor blk.2) wk = .ok (wk1, wet) ∧
      mixChannels s blk.1 wet (List.range nch) wk1.mem = .ok wk'.mem ∧ wk'.cursor = wk1.cursor := by
  unfold subBlock at h
  obtain ⟨⟨wk1, wet⟩, h1, h⟩ := except_bind_ok_iff.1 h
  obtain ⟨m, h2, h⟩ := except_bind_ok_iff.1 h
  have h := except_pure_ok_iff.1 h
  subst h
  exact ⟨wk1, wet, h1, h2, rfl⟩

theorem subBlock_keeps {s : State} {nch : Nat} {blk : Nat × Nat} {wk wk' : Work}
    (h : subBlock s nch blk wk = .ok wk') :
    wk'.cursor = wk.cursor + BitVec.ofNat 32 blk.2 ∧
      Keeps (fun a => slotBytes s wk.cursor blk.2 a ∨ mixedBytes s nch blk.1 blk.2 a) wk.mem wk'.mem := by
  obtain ⟨wk1, wet, h1, h2, hc⟩ := subBlock_ok h
  obtain ⟨hl, hc1, k1⟩ := runSamples_keeps h1
  rw [blockDelays_length] at hl hc1 k1
  have k2 := mixChannels_keeps (nch := nch) (by simp) h2
  rw [hl] at k2
  exact ⟨hc.trans hc1, (k1.mono fun a => Or.inl).trans (k2.mono fun a => Or.inr)⟩

/-- Sub-blocks that follow one another from sample b on, k samples in all. -/
def Chained : Nat → Nat → List (Nat × Nat) → Prop
  | _, k, [] => k = 0
  | b, k, blk :: rest => blk.1 = b ∧ blk.2 ≤ k ∧ Chained (b + blk.2) (k - blk.2) rest

theorem mixedBytes_widen {s : State} {nch i k i' k' a : Nat} (h1 : i' ≤ i) (h2 : i + k ≤ i' + k')
    (h : mixedBytes s nch i k a) : mixedBytes s nch i' k' a := by
  obtain ⟨c, hc, hg, j, hj, hw⟩ := h
  exact ⟨c, hc, hg, i - i' + j, by omega, by rwa [show i' + (i - i' + j) = i + j by omega]⟩

theorem runSubBlocks_keeps {s : State} {nch : Nat} {bs : List (Nat × Nat)} {b k : Nat} {wk wk' : Work}
    (hb : Chained b k bs) (h : runSubBlocks s nch bs wk = .ok wk') :
    wk'.cursor = wk.cursor + BitVec.ofNat 32 k ∧
      Keeps (fun a => slotBytes s wk.cursor k a ∨ mixedBytes s nch b k a) wk.mem wk'.mem := by
  induction bs generalizing b k wk with
  | nil =>
    obtain rfl : k = 0 := hb
    cases h
    exact ⟨by simp, Keeps.refl _ _⟩
  | cons blk bs ih =>
    obtain ⟨rfl, hk, hb⟩ := hb
    rw [runSubBlocks] at h
    obtain ⟨wk1, h1, h2⟩ := except_bind_ok_iff.1 h
    obtain ⟨c1, k1⟩ := subBlock_keeps h1
    obtain ⟨c2, k2⟩ := ih hb h2
    rw [c1] at c2 k2
    have e : blk.2 + (k - blk.2) = k := by omega
    refine ⟨by rw [c2, cursor_shift, e], (k1.mono fun a ha => ?_).trans (k2.mono fun a ha => ?_)⟩
    · exact ha.imp (slotBytes_mono hk) (mixedBytes_widen (by omega) (by omega))
    · refine ha.imp (fun hs => ?_) (mixedBytes_widen (by omega) (by omega))
      have := slotBytes_shift hs
      rwa [e] at this

/-- The sub-blocks of PROCESS follow one another from sample 0 to n (R161). -/
theorem subBlocks_chained (n : Nat) : Chained 0 n (subBlocks n) := by
  have key : ∀ q j, Config.subBlock * j ≤ n → j + q = (n + (Config.subBlock - 1)) / Config.subBlock →
      Chained (Config.subBlock * j) (n - Config.subBlock * j)
        ((List.range' j q).map fun i => (Config.subBlock * i, min Config.subBlock (n - Config.subBlock * i))) := by
    intro q
    induction q with
    | zero =>
      intro j h1 h2
      simp only [List.range'_zero, List.map_nil, Chained]
      simp only [Config.subBlock] at *
      omega
    | succ q ih =>
      intro j h1 h2
      simp only [List.range'_succ, List.map_cons, Chained, true_and]
      refine ⟨min_le_right _ _, ?_⟩
      by_cases hlast : Config.subBlock * (j + 1) ≤ n
      · have := ih (j + 1) hlast (by omega)
        rw [min_eq_left (by simp only [Config.subBlock] at *; omega)]
        rwa [Nat.sub_sub, ← Nat.mul_succ]
      · have hq : q = 0 := by
          simp only [Config.subBlock] at *
          omega
        subst hq
        simp only [List.range'_zero, List.map_nil, Chained]
        simp only [Config.subBlock] at *
        omega
  have := key ((n + (Config.subBlock - 1)) / Config.subBlock) 0 (by omega) (by omega)
  rw [← List.range_eq_range'] at this
  simpa [subBlocks] using this

/-! ### When PROCESS cannot stop -/

/-- In a line of a power-of-two length that fits the RAM every slot is a word of the RAM (R110). -/
theorem dlSlot_lt {len : Word} {cap line : Nat} (h1 : PowerOfTwo len.toNat) (h2 : len.toNat ≤ cap) (hl : line < 2)
    (p : Word) : dlSlot len line p < 2 * cap := by
  obtain ⟨k, hk⟩ := h1
  have hpos : 0 < len.toNat := by rw [hk]; positivity
  have hand : (p &&& (len - 1#32)).toNat ≤ (len - 1#32).toNat := by
    rw [BitVec.toNat_and]; exact Nat.and_le_right
  have hm : (len - 1#32).toNat = len.toNat - 1 := by
    have := len.isLt
    rw [BitVec.toNat_sub]
    simp only [BitVec.toNat_ofNat]
    omega
  unfold dlSlot
  interval_cases line <;> omega

/-- PROCESS's samples run when the line fits the RAM and their IN words are there. -/
theorem runSamples_total {s : State} (h1 : PowerOfTwo s.dlLen.toNat) (h2 : s.dlLen.toNat ≤ s.params.dlCap)
    {ds : List (Word × Word)} {i : Nat} {wk : Work}
    (hin : ∀ j, j < ds.length → (wordAt wk.mem (inAddr (i + j))).isSome = true) :
    ∃ r, runSamples s i ds wk = .ok r := by
  induction ds generalizing i wk with
  | nil => exact ⟨_, rfl⟩
  | cons d ds ih =>
    obtain ⟨x, hx⟩ := Option.isSome_iff_exists.1 (hin 0 (by simp))
    rw [Nat.add_zero] at hx
    obtain ⟨⟨m0, w0⟩, e0⟩ := combStep_total (d := d.1) x wk.mem (dlSlot_lt h1 h2 (line := 0) (by omega) wk.cursor)
      (dlSlot_lt h1 h2 (line := 0) (by omega) _)
    obtain ⟨⟨m1, w1⟩, e1⟩ := combStep_total (d := d.2) x m0 (dlSlot_lt h1 h2 (line := 1) (by omega) wk.cursor)
      (dlSlot_lt h1 h2 (line := 1) (by omega) _)
    have hs : sampleStep s i d wk = .ok ({ mem := m1, cursor := wk.cursor + 1#32 }, (w0, w1)) := by
      simp only [sampleStep, readIn_ok_iff.2 hx, e0, e1, except_bind_ok]
      rfl
    obtain ⟨-, k⟩ := sampleStep_keeps hs
    obtain ⟨⟨wk2, ws⟩, h⟩ := ih (i := i + 1) (wk := { mem := m1, cursor := wk.cursor + 1#32 }) fun j hj =>
      k.present _ (by
        have := hin (j + 1) (by simp; omega)
        rwa [show i + (j + 1) = i + 1 + j by omega] at this)
    exact ⟨(wk2, (w0, w1) :: ws), by simp only [runSamples, hs, h, except_bind_ok]; rfl⟩

/-- PROCESS's sub-blocks run when the line fits the RAM and the words they use are there. -/
theorem runSubBlocks_total {s : State} (h1 : PowerOfTwo s.dlLen.toNat) (h2 : s.dlLen.toNat ≤ s.params.dlCap) {nch : Nat}
    {bs : List (Nat × Nat)} {b k : Nat} {wk : Work} (hb : Chained b k bs)
    (hin : ∀ j, j < k → (wordAt wk.mem (inAddr (b + j))).isSome = true)
    (hout : ∀ c, c < nch → (audible (gainAt s.gainRt0 c) = true ∨ audible (gainAt s.gainRt1 c) = true) →
      ∀ j, j < k → (wordAt wk.mem (outAddr c (b + j))).isSome = true) :
    ∃ wk', runSubBlocks s nch bs wk = .ok wk' := by
  induction bs generalizing b k wk with
  | nil => exact ⟨wk, rfl⟩
  | cons blk bs ih =>
    obtain ⟨rfl, hk, hb⟩ := hb
    obtain ⟨⟨wk1, wet⟩, e1⟩ := runSamples_total h1 h2 (ds := blockDelays s wk.cursor blk.2) (i := blk.1) (wk := wk)
      fun j hj => hin j (by rw [blockDelays_length] at hj; omega)
    obtain ⟨hl, -, p1⟩ := runSamples_keeps e1
    rw [blockDelays_length] at hl
    obtain ⟨m, e2⟩ := mixChannels_total (s := s) (i := blk.1) (wet := wet) (cs := List.range nch) (m := wk1.mem)
      fun c hc hg j hj => p1.present _ (hout c (by simpa using hc) hg j (by omega))
    have hs : subBlock s nch blk wk = .ok { wk1 with mem := m } := by
      unfold blockDelays at e1
      simp only [subBlock, e1, e2, except_bind_ok]
      rfl
    obtain ⟨-, p⟩ := subBlock_keeps hs
    obtain ⟨wk', e⟩ := ih hb
      (fun j hj => p.present _ (by
        have := hin (blk.2 + j) (by omega)
        rwa [← Nat.add_assoc] at this))
      (fun c hc hg j hj => p.present _ (by
        have := hout c hc hg (blk.2 + j) (by omega)
        rwa [← Nat.add_assoc] at this))
    exact ⟨wk', by rw [runSubBlocks, hs, except_bind_ok, e]⟩

end Sys2Proof.Machine
end

