-- ==== Sys2Proof/Laws/Samples.lean ====
section
/-!
SUPPORT. The words PROCESS leaves, loop by loop: a comb step, a sample, the samples of a run, an output channel, and a
whole sub-block, each against the account of Sys2Proof/Safety.lean that has no loop (44_block_processor.md R163 to
R168).
-/
namespace Sys2Proof.Machine

open Sys2Proof.Safety

/-! ### Places and addresses -/

theorem dlSlot_eq (s : State) (line : Nat) (p : Word) :
    dlSlot s.dlLen line p = line * s.dlLen.toNat + placeOf s p := rfl

theorem placeOf_lt {s : State} (h : PowerOfTwo s.dlLen.toNat) (p : Word) : placeOf s p < s.dlLen.toNat := by
  have := dlSlot_lt (line := 0) h (le_refl _) (by omega) p
  obtain ⟨k, hk⟩ := h
  have hpos : 0 < s.dlLen.toNat := by rw [hk]; positivity
  have hand : placeOf s p ≤ (s.dlLen - 1#32).toNat := by
    unfold placeOf; rw [BitVec.toNat_and]; exact Nat.and_le_right
  have hlt := s.dlLen.isLt
  have hm : (s.dlLen - 1#32).toNat = s.dlLen.toNat - 1 := by
    rw [BitVec.toNat_sub]
    simp only [BitVec.toNat_ofNat]
    omega
  omega

/-- Two words of memory have no byte in common. -/
def Apart (a x : Nat) : Prop := x + 4 ≤ a ∨ a + 4 ≤ x

theorem apart_dl {k k' : Nat} (h : k' ≠ k) : Apart (dlAddr k) (dlAddr k') := by
  unfold Apart dlAddr; omega

theorem apart_dl_in {i : Nat} (k : Nat) (h : i < 2048) : Apart (dlAddr k) (inAddr i) := by
  unfold Apart dlAddr inAddr dlBase inBase; omega

theorem apart_dl_out {c i : Nat} (k : Nat) (hc : c < 16) (hi : i < 2048) : Apart (dlAddr k) (outAddr c i) := by
  unfold Apart dlAddr outAddr dlBase outBase; omega

/-! ### A comb step -/

/-- A comb step in the RAM, in full (R164, R165): the slot takes the input plus the wet sample, the wet sample is the
scaled tap, and every word apart from the slot is kept. -/
theorem combStep_words {s : State} {m : Memory} (hm : memoryWf m = true) (cur x d : Word) {line : Nat}
    (h1 : dlSlot s.dlLen line cur < 2 * s.params.dlCap) (h2 : dlSlot s.dlLen line (cur - d) < 2 * s.params.dlCap) :
    ∃ m' wet, combStep s cur line x d m = .ok (m', wet) ∧ memoryWf m' = true ∧
      wet = fmul (if dlSlot s.dlLen line (cur - d) = dlSlot s.dlLen line cur then x
        else (wordAt m (dlAddr (dlSlot s.dlLen line (cur - d)))).getD 0#32) s.feedbackRt ∧
      wordAt m' (dlAddr (dlSlot s.dlLen line cur)) = some (fadd x wet) ∧
      ∀ a, Apart (dlAddr (dlSlot s.dlLen line cur)) a → wordAt m' a = wordAt m a := by
  obtain ⟨⟨m', wet⟩, h⟩ := combStep_total (d := d) x m h1 h2
  obtain ⟨-, -, hw, hm'⟩ := combStep_ok h
  have hx := wordAt_putWord_same hm (dlAddr (dlSlot s.dlLen line cur)) x
  have hwf := memoryWf_putWord hm (dlAddr (dlSlot s.dlLen line cur)) x
  refine ⟨m', wet, h, ?_, ?_, ?_, ?_⟩
  · rw [hm']; exact memoryWf_putWord hwf _ _
  · rw [hw]
    split
    · next e => rw [e, hx]; rfl
    · next e => rw [wordAt_putWord_ne (apart_dl e)]
  · rw [hm', wordAt_putWord_same hwf, hx]; rfl
  · intro a ha
    rw [hm', wordAt_putWord_ne ha, wordAt_putWord_ne ha]

/-! ### A sample -/

/-- The work of a PROCESS from s has its first j samples behind it: the CURSOR, the words of both lines, the IN words as
they were. -/
structure AtSample (s : State) (j : Nat) (wk : Work) : Prop where
  wf : memoryWf wk.mem = true
  cursor : wk.cursor = cursorAt s j
  lines : ∀ line k, line < 2 → k < s.dlLen.toNat →
    wordAt wk.mem (dlAddr (line * s.dlLen.toNat + k)) = some (lineAfter s line j k)
  inputs : ∀ i, i < 2048 → wordAt wk.mem (inAddr i) = wordAt s.mem (inAddr i)

/-- A PROCESS starts with no sample behind it. -/
theorem atSample_zero {s : State} (hm : memoryWf s.mem = true) (hc : s.dlLen.toNat ≤ s.params.dlCap) :
    AtSample s 0 { mem := s.mem, cursor := s.cursor } where
  wf := hm
  cursor := by simp [cursorAt]
  lines line k hl hk := by
    have := dlCap_le s.params
    have hlt : line * s.dlLen.toNat + k < 65536 := by interval_cases line <;> omega
    obtain ⟨w, hw⟩ := wordAt_dl_isSome hlt s.mem
    simp only [lineAfter, hw, Option.getD_some]
  inputs _ _ := rfl

/-- The slots of a line's comb step are distinct exactly when their places are. -/
theorem dlSlot_inj {s : State} {line : Nat} {p q : Word} :
    dlSlot s.dlLen line p = dlSlot s.dlLen line q ↔ placeOf s p = placeOf s q := by
  rw [dlSlot_eq, dlSlot_eq]; omega

/-- One line's comb step at sample j, from any buffers that hold that line's words before it. -/
theorem combStep_line {s : State} {m : Memory} {j line : Nat} (hm : memoryWf m = true) (hl : line < 2)
    (h1 : PowerOfTwo s.dlLen.toNat) (h2 : s.dlLen.toNat ≤ s.params.dlCap)
    (hw : ∀ k, k < s.dlLen.toNat → wordAt m (dlAddr (line * s.dlLen.toNat + k)) = some (lineAfter s line j k)) :
    ∃ m', combStep s (cursorAt s j) line (inputAt s j) (delayAt s line j) m = .ok (m', wetAt s line j) ∧
      memoryWf m' = true ∧
      (∀ k, k < s.dlLen.toNat → wordAt m' (dlAddr (line * s.dlLen.toNat + k)) = some (lineAfter s line (j + 1) k)) ∧
      ∀ a, Apart (dlAddr (dlSlot s.dlLen line (cursorAt s j))) a → wordAt m' a = wordAt m a := by
  obtain ⟨m', wet, h, hwf, hwet, hslot, hkeep⟩ := combStep_words hm (cursorAt s j) (inputAt s j) (delayAt s line j)
    (dlSlot_lt h1 h2 hl _) (dlSlot_lt h1 h2 hl _)
  have e : wet = wetAt s line j := by
    rw [hwet, wetAt, wetOver]
    simp only [dlSlot_inj]
    rw [dlSlot_eq s line (cursorAt s j - delayAt s line j), hw _ (placeOf_lt h1 _)]
    rfl
  refine ⟨m', by rw [h, e], hwf, fun k hk => ?_, hkeep⟩
  simp only [lineAfter]
  split
  · next hkp => rw [hkp, ← dlSlot_eq, hslot, e]; rfl
  · next hkp =>
    rw [hkeep _ (apart_dl ?_), hw k hk]
    rw [dlSlot_eq]; omega

/-- A sample whose IN word is there leads from j samples to j + 1, with the two wet samples (R163). -/
theorem sampleStep_words {s : State} {j : Nat} {wk : Work} (h1 : PowerOfTwo s.dlLen.toNat)
    (h2 : s.dlLen.toNat ≤ s.params.dlCap) (hj : j < 2048) (hi : (wordAt s.mem (inAddr j)).isSome = true)
    (h : AtSample s j wk) :
    ∃ wk', sampleStep s j (delayAt s 0 j, delayAt s 1 j) wk = .ok (wk', (wetAt s 0 j, wetAt s 1 j)) ∧
      AtSample s (j + 1) wk' ∧ ∀ c i, c < 16 → i < 2048 → wordAt wk'.mem (outAddr c i) = wordAt wk.mem (outAddr c i) := by
  obtain ⟨x, hx⟩ := Option.isSome_iff_exists.1 hi
  have hxi : inputAt s j = x := by rw [inputAt, hx]; rfl
  have hread : readIn wk.mem j = .ok x := readIn_ok_iff.2 (by rw [h.inputs j hj, hx])
  obtain ⟨m0, e0, wf0, l0, k0⟩ := combStep_line h.wf (by omega) h1 h2 (h.lines 0 · (by omega))
  have hother : ∀ k, k < s.dlLen.toNat →
      wordAt m0 (dlAddr (1 * s.dlLen.toNat + k)) = some (lineAfter s 1 j k) := fun k hk => by
    rw [k0 _ (apart_dl ?_), h.lines 1 k (by omega) hk]
    have := placeOf_lt h1 (cursorAt s j)
    rw [dlSlot_eq]; omega
  obtain ⟨m1, e1, wf1, l1, k1⟩ := combStep_line wf0 (by omega) h1 h2 hother
  refine ⟨{ mem := m1, cursor := wk.cursor + 1#32 }, ?_, ⟨wf1, ?_, ?_, ?_⟩, ?_⟩
  · rw [hxi] at e0 e1
    simp only [sampleStep, hread, h.cursor, e0, e1, except_bind_ok]
    rfl
  · rw [h.cursor]
    exact cursor_shift s.cursor j 1
  · intro line k hl hk
    interval_cases line
    · rw [k1 _ (apart_dl ?_)]
      · exact l0 k hk
      · rw [dlSlot_eq]; omega
    · exact l1 k hk
  · intro i hi'
    rw [k1 _ (apart_dl_in _ hi'), k0 _ (apart_dl_in _ hi'), h.inputs i hi']
  · intro c i hc hi'
    rw [k1 _ (apart_dl_out _ hc hi'), k0 _ (apart_dl_out _ hc hi')]

/-! ### The samples of a run -/

/-- The samples j to j + n, whose IN words are there, in order: their wet samples come back in order, and no OUT word
has changed. -/
theorem runSamples_words {s : State} (h1 : PowerOfTwo s.dlLen.toNat) (h2 : s.dlLen.toNat ≤ s.params.dlCap)
    (n : Nat) {j : Nat} {wk : Work} (hj : j + n ≤ 2048)
    (hi : ∀ i, i < n → (wordAt s.mem (inAddr (j + i))).isSome = true) (h : AtSample s j wk) :
    ∃ wk', runSamples s j ((List.range' j n).map fun i => (delayAt s 0 i, delayAt s 1 i)) wk =
        .ok (wk', (List.range' j n).map fun i => (wetAt s 0 i, wetAt s 1 i)) ∧
      AtSample s (j + n) wk' ∧ ∀ c i, c < 16 → i < 2048 → wordAt wk'.mem (outAddr c i) = wordAt wk.mem (outAddr c i) := by
  induction n generalizing j wk with
  | zero => exact ⟨wk, rfl, h, fun _ _ _ _ => rfl⟩
  | succ n ih =>
    obtain ⟨wk1, e1, a1, o1⟩ := sampleStep_words (j := j) h1 h2 (by omega) (hi 0 (by omega)) h
    obtain ⟨wk2, e2, a2, o2⟩ := ih (j := j + 1) (by omega)
      (fun i hn => by rw [Nat.add_assoc, Nat.add_comm 1]; exact hi (i + 1) (by omega)) a1
    refine ⟨wk2, ?_, by rwa [Nat.add_assoc, Nat.add_comm 1] at a2, fun c i hc hi' => by rw [o2 c i hc hi', o1 c i hc hi']⟩
    rw [List.range'_succ, List.map_cons, List.map_cons, runSamples, e1, except_bind_ok]
    dsimp only
    rw [e2]
    rfl

/-- The delays a sub-block generates are those of its samples: it starts at a multiple of 128 and has at most 128. -/
theorem blockDelays_eq (s : State) (q n : Nat) (hn : n ≤ 128) :
    blockDelays s (cursorAt s (128 * q)) n =
      (List.range' (128 * q) n).map fun i => (delayAt s 0 i, delayAt s 1 i) := by
  have key : ∀ i, i < n → (128 * q + i) / 128 = q ∧ (128 * q + i) % 128 = i := fun i hi => by omega
  apply List.ext_getElem
  · simp [blockDelays_length]
  · intro i h _
    rw [blockDelays_length] at h
    obtain ⟨k1, k2⟩ := key i h
    simp [blockDelays, lfoRun, lfo, delayAt, k1, k2]

/-! ### The mixer -/

theorem apart_out {c c' i i' : Nat} (hi : i < 2048) (hi' : i' < 2048) (h : c' ≠ c ∨ i' ≠ i) :
    Apart (outAddr c i) (outAddr c' i') := by
  unfold Apart outAddr outBase; omega

/-- Words that lie outside the bytes a loop stores are kept. -/
theorem Keeps.word {stored : Nat → Prop} {m m' : Memory} (h : Keeps stored m m') {a : Nat}
    (ha : ∀ x, a ≤ x → x < a + 4 → ¬ stored x) : wordAt m' a = wordAt m a :=
  wordAt_congr fun x h1 h2 => h.frame x (ha x h1 h2)

/-- Accumulating puts each term into its own word. -/
theorem accumulate_words {g : Word} {c : Nat} {ws : List Word} {i : Nat} {m m' : Memory} (hm : memoryWf m = true)
    (h : accumulate g c i ws m = .ok m') {j : Nat} (hj : j < ws.length) :
    wordAt m' (outAddr c (i + j)) = (wordAt m (outAddr c (i + j))).map fun o => fadd o (fmul ws[j] g) := by
  induction ws generalizing i m j with
  | nil => simp at hj
  | cons w ws ih =>
    rw [accumulate] at h
    obtain ⟨o, ho, h⟩ := except_bind_ok_iff.1 h
    rw [readOut_ok_iff] at ho
    rw [writeOut] at h
    cases j with
    | zero =>
      rw [Nat.add_zero, (accumulate_keeps h).word, wordAt_putWord_same hm, ho]
      · rfl
      · rintro x hx1 hx2 ⟨j, _, hj1, _⟩
        unfold outAddr at hx1 hx2 hj1
        omega
    | succ j =>
      have := ih (memoryWf_putWord hm _ _) h (j := j) (by simpa using hj)
      rw [show i + (j + 1) = i + 1 + j by omega, this, wordAt_putWord_ne]
      · rfl
      · unfold outAddr; omega

/-- One line's term of one channel, word by word (R168). -/
theorem mixLine_words {g : Word} {c i : Nat} {ws : List Word} {m m' : Memory} (hm : memoryWf m = true)
    (h : mixLine g c i ws m = .ok m') {j : Nat} (hj : j < ws.length) :
    wordAt m' (outAddr c (i + j)) = (wordAt m (outAddr c (i + j))).map (mixTerm g ws[j]) := by
  unfold mixLine at h
  split at h
  · next hg =>
    rw [accumulate_words hm h hj]
    congr 1
    funext o
    rw [mixTerm, if_pos hg]
  · next hg =>
    cases h
    have e : mixTerm g ws[j] = id := by funext o; rw [mixTerm, if_neg hg]; rfl
    rw [e, Option.map_id]; rfl

/-- A word of a channel that no loop of the list mixes into is kept. -/
theorem mixLine_other {g : Word} {c c' i k : Nat} {ws : List Word} {m m' : Memory} (hn : i + ws.length ≤ 2048)
    (hk : k < 2048) (hc : c ≠ c') (h : mixLine g c' i ws m = .ok m') :
    wordAt m' (outAddr c k) = wordAt m (outAddr c k) := by
  refine (mixLine_keeps h).word ?_
  rintro x hx1 hx2 ⟨-, j, hj, h1, h2⟩
  have := apart_out (c := c') (c' := c) (i := i + j) (i' := k) (by omega) hk (.inl hc)
  unfold Apart at this
  omega

theorem mixChannels_other {s : State} {i : Nat} {wet : List (Word × Word)} {cs : List Nat} {m m' : Memory} {c k : Nat}
    (hn : i + wet.length ≤ 2048) (hk : k < 2048) (hc : c ∉ cs) (h : mixChannels s i wet cs m = .ok m') :
    wordAt m' (outAddr c k) = wordAt m (outAddr c k) := by
  induction cs generalizing m with
  | nil => cases h; rfl
  | cons c' cs ih =>
    rw [List.mem_cons, not_or] at hc
    rw [mixChannels] at h
    obtain ⟨m1, h1, h2⟩ := except_bind_ok_iff.1 h
    rw [mixChannel] at h1
    obtain ⟨m0, h0, h1⟩ := except_bind_ok_iff.1 h1
    rw [ih hc.2 h2, mixLine_other (by simpa using hn) hk hc.1 h1, mixLine_other (by simpa using hn) hk hc.1 h0]

/-- The channels of a list, each once: every word of theirs takes line 0's term and then line 1's (R167). -/
theorem mixChannels_words {s : State} {i : Nat} {wet : List (Word × Word)} {cs : List Nat} {m m' : Memory}
    (hm : memoryWf m = true) (hcs : cs.Nodup) (hn : i + wet.length ≤ 2048)
    (h : mixChannels s i wet cs m = .ok m') {c j : Nat} (hc : c ∈ cs) (hj : j < wet.length) :
    wordAt m' (outAddr c (i + j)) = (wordAt m (outAddr c (i + j))).map fun o =>
      mixTerm (gainAt s.gainRt1 c) wet[j].2 (mixTerm (gainAt s.gainRt0 c) wet[j].1 o) := by
  induction cs generalizing m with
  | nil => simp at hc
  | cons c' cs ih =>
    obtain ⟨hc', hcs⟩ := List.nodup_cons.1 hcs
    rw [mixChannels] at h
    obtain ⟨m1, h1, h2⟩ := except_bind_ok_iff.1 h
    rw [mixChannel] at h1
    obtain ⟨m0, h0, h1⟩ := except_bind_ok_iff.1 h1
    have wf0 := (mixLine_keeps h0).wf hm
    rcases List.mem_cons.1 hc with rfl | hin
    · rw [mixChannels_other hn (by omega) hc' h2, mixLine_words wf0 h1 (by simpa using hj),
        mixLine_words hm h0 (by simpa using hj), Option.map_map]
      simp [Function.comp_def]
    · have hne : c ≠ c' := fun e => hc' (e ▸ hin)
      rw [ih ((mixLine_keeps h1).wf wf0) hcs h2 hin, mixLine_other (by simpa using hn) (by omega) hne h1,
        mixLine_other (by simpa using hn) (by omega) hne h0]

/-! ### A sub-block -/

/-- A sub-block from sample 128 * q on, of at most 128 samples, whose IN words and audible OUT words are there: the
samples run, each of its OUT words takes its two terms, and no other OUT word changes (R161). -/
theorem subBlock_words {s : State} (h1 : PowerOfTwo s.dlLen.toNat) (h2 : s.dlLen.toNat ≤ s.params.dlCap)
    {nch q n : Nat} {wk : Work} (hch : nch ≤ 16) (hn : n ≤ 128) (hq : 128 * q + n ≤ 2048)
    (hi : ∀ i, i < n → (wordAt s.mem (inAddr (128 * q + i))).isSome = true)
    (ho : ∀ c, c < nch → (audible (gainAt s.gainRt0 c) = true ∨ audible (gainAt s.gainRt1 c) = true) →
      ∀ i, i < n → (wordAt wk.mem (outAddr c (128 * q + i))).isSome = true)
    (h : AtSample s (128 * q) wk) :
    ∃ wk', subBlock s nch (128 * q, n) wk = .ok wk' ∧ AtSample s (128 * q + n) wk' ∧
      (∀ c i, c < nch → i < n → wordAt wk'.mem (outAddr c (128 * q + i)) =
        (wordAt wk.mem (outAddr c (128 * q + i))).map fun o =>
          mixTerm (gainAt s.gainRt1 c) (wetAt s 1 (128 * q + i))
            (mixTerm (gainAt s.gainRt0 c) (wetAt s 0 (128 * q + i)) o)) ∧
      ∀ c i, c < 16 → i < 2048 → (i < 128 * q ∨ 128 * q + n ≤ i) →
        wordAt wk'.mem (outAddr c i) = wordAt wk.mem (outAddr c i) := by
  obtain ⟨wk1, e1, a1, o1⟩ := runSamples_words h1 h2 n hq hi h
  have hlen : ((List.range' (128 * q) n).map fun i => (wetAt s 0 i, wetAt s 1 i)).length = n := by simp
  obtain ⟨m, e2⟩ := mixChannels_total (s := s) (i := 128 * q)
    (wet := (List.range' (128 * q) n).map fun i => (wetAt s 0 i, wetAt s 1 i)) (cs := List.range nch) (m := wk1.mem)
    fun c hc hg j hj => by
      rw [List.mem_range] at hc
      rw [hlen] at hj
      rw [o1 c _ (by omega) (by omega)]
      exact ho c hc hg j hj
  have k2 := mixChannels_keeps (nch := nch) (by simp) e2
  rw [hlen] at k2
  have hout : ∀ a, (∀ c i, c < 16 → i < 2048 → Apart (outAddr c i) a) → wordAt m a = wordAt wk1.mem a := by
    intro a ha
    refine k2.word ?_
    rintro x hx1 hx2 ⟨c, hc, -, j, hj, hw1, hw2⟩
    have := ha c (128 * q + j) (by omega) (by omega)
    unfold Apart at this
    omega
  refine ⟨{ wk1 with mem := m }, ?_, ⟨k2.wf a1.wf, a1.cursor, fun line k hl hk => ?_, fun i hi' => ?_⟩, ?_, ?_⟩
  · have hd := blockDelays_eq s q n hn
    unfold blockDelays at hd
    simp only [subBlock, h.cursor, hd, e1, e2, except_bind_ok]
    rfl
  · rw [hout _ fun c i hc hi' => ?_, a1.lines line k hl hk]
    have := apart_dl_out (line * s.dlLen.toNat + k) hc hi'
    unfold Apart at this ⊢
    omega
  · rw [hout _ fun c i' hc hi'' => ?_, a1.inputs i hi']
    unfold Apart inAddr outAddr inBase outBase
    omega
  · intro c i hc hi'
    have := mixChannels_words a1.wf List.nodup_range (by rw [hlen]; exact hq) e2 (List.mem_range.2 hc)
      (j := i) (by rw [hlen]; exact hi')
    rw [this, o1 c _ (by omega) (by omega)]
    simp
  · intro c i hc hi' hr
    rw [← o1 c i hc hi']
    refine k2.word ?_
    rintro x hx1 hx2 ⟨c', hc', -, j, hj, hw1, hw2⟩
    have := apart_out (c := c') (c' := c) (i := 128 * q + j) (i' := i) (by omega) hi' (.inr (by omega))
    unfold Apart at this
    omega

end Sys2Proof.Machine
end

