-- ==== Sys2Proof/Laws/State.lean ====
section
/-!
SUPPORT. One lemma per field for each operation that updates the state, so that no later proof unfolds a
record update; and the fields of STATUS after each of its updates.
-/
namespace Sys2Proof.Machine

/-! ### STATUS -/

@[simp] theorem setErr_err (e : ErrCode) (st : Status) : (setErr e st).err = e := rfl
@[simp] theorem setErr_configured (e : ErrCode) (st : Status) : (setErr e st).configured = st.configured := rfl
@[simp] theorem setErr_updated (e : ErrCode) (st : Status) : (setErr e st).updated = st.updated := rfl
@[simp] theorem setErr_cfgFailed (e : ErrCode) (st : Status) : (setErr e st).cfgFailed = st.cfgFailed := rfl

@[simp] theorem failedStatus_err (e : ErrCode) : (failedStatus e).err = e := rfl
@[simp] theorem failedStatus_configured (e : ErrCode) : (failedStatus e).configured = false := rfl
@[simp] theorem failedStatus_updated (e : ErrCode) : (failedStatus e).updated = false := rfl
@[simp] theorem failedStatus_cfgFailed (e : ErrCode) : (failedStatus e).cfgFailed = true := rfl

@[simp] theorem clearedStatus_err : clearedStatus.err = .ok := rfl
@[simp] theorem clearedStatus_configured : clearedStatus.configured = false := rfl
@[simp] theorem clearedStatus_updated : clearedStatus.updated = false := rfl
@[simp] theorem clearedStatus_cfgFailed : clearedStatus.cfgFailed = false := rfl

@[simp] theorem configuredStatus_err : configuredStatus.err = .ok := rfl
@[simp] theorem configuredStatus_configured : configuredStatus.configured = true := rfl
@[simp] theorem configuredStatus_updated : configuredStatus.updated = false := rfl
@[simp] theorem configuredStatus_cfgFailed : configuredStatus.cfgFailed = false := rfl

@[simp] theorem updatedStatus_err (st : Status) : (updatedStatus st).err = .ok := rfl
@[simp] theorem updatedStatus_configured (st : Status) : (updatedStatus st).configured = st.configured := rfl
@[simp] theorem updatedStatus_updated (st : Status) : (updatedStatus st).updated = true := rfl
@[simp] theorem updatedStatus_cfgFailed (st : Status) : (updatedStatus st).cfgFailed = st.cfgFailed := rfl

/-! ### The state -/

@[simp] theorem succeed_params (s : State) : (succeed s).params = s.params := rfl
@[simp] theorem succeed_arg (s : State) : (succeed s).arg = s.arg := rfl
@[simp] theorem succeed_status (s : State) : (succeed s).status = setErr .ok s.status := rfl
@[simp] theorem succeed_pWaveform (s : State) : (succeed s).pWaveform = s.pWaveform := rfl
@[simp] theorem succeed_pPhase (s : State) : (succeed s).pPhase = s.pPhase := rfl
@[simp] theorem succeed_pRate (s : State) : (succeed s).pRate = s.pRate := rfl
@[simp] theorem succeed_pDepth (s : State) : (succeed s).pDepth = s.pDepth := rfl
@[simp] theorem succeed_pFeedback (s : State) : (succeed s).pFeedback = s.pFeedback := rfl
@[simp] theorem succeed_pDelay (s : State) : (succeed s).pDelay = s.pDelay := rfl
@[simp] theorem succeed_srate (s : State) : (succeed s).srate = s.srate := rfl
@[simp] theorem succeed_dlLen (s : State) : (succeed s).dlLen = s.dlLen := rfl
@[simp] theorem succeed_cursor (s : State) : (succeed s).cursor = s.cursor := rfl
@[simp] theorem succeed_baseDelay (s : State) : (succeed s).baseDelay = s.baseDelay := rfl
@[simp] theorem succeed_depthS (s : State) : (succeed s).depthS = s.depthS := rfl
@[simp] theorem succeed_feedbackRt (s : State) : (succeed s).feedbackRt = s.feedbackRt := rfl
@[simp] theorem succeed_cycleLen (s : State) : (succeed s).cycleLen = s.cycleLen := rfl
@[simp] theorem succeed_lfoScale (s : State) : (succeed s).lfoScale = s.lfoScale := rfl
@[simp] theorem succeed_phaseOff (s : State) : (succeed s).phaseOff = s.phaseOff := rfl
@[simp] theorem succeed_waveRt (s : State) : (succeed s).waveRt = s.waveRt := rfl
@[simp] theorem succeed_gainIn0 (s : State) : (succeed s).gainIn0 = s.gainIn0 := rfl
@[simp] theorem succeed_gainIn1 (s : State) : (succeed s).gainIn1 = s.gainIn1 := rfl
@[simp] theorem succeed_gainRt0 (s : State) : (succeed s).gainRt0 = s.gainRt0 := rfl
@[simp] theorem succeed_gainRt1 (s : State) : (succeed s).gainRt1 = s.gainRt1 := rfl
@[simp] theorem succeed_mem (s : State) : (succeed s).mem = s.mem := rfl
@[simp] theorem succeed_host (s : State) : (succeed s).host = s.host := rfl
@[simp] theorem succeed_readLog (s : State) : (succeed s).readLog = s.readLog := rfl

@[simp] theorem raise_params (e : ErrCode) (s : State) : (raise e s).params = s.params := rfl
@[simp] theorem raise_arg (e : ErrCode) (s : State) : (raise e s).arg = s.arg := rfl
@[simp] theorem raise_status (e : ErrCode) (s : State) : (raise e s).status = setErr e s.status := rfl
@[simp] theorem raise_pWaveform (e : ErrCode) (s : State) : (raise e s).pWaveform = s.pWaveform := rfl
@[simp] theorem raise_pPhase (e : ErrCode) (s : State) : (raise e s).pPhase = s.pPhase := rfl
@[simp] theorem raise_pRate (e : ErrCode) (s : State) : (raise e s).pRate = s.pRate := rfl
@[simp] theorem raise_pDepth (e : ErrCode) (s : State) : (raise e s).pDepth = s.pDepth := rfl
@[simp] theorem raise_pFeedback (e : ErrCode) (s : State) : (raise e s).pFeedback = s.pFeedback := rfl
@[simp] theorem raise_pDelay (e : ErrCode) (s : State) : (raise e s).pDelay = s.pDelay := rfl
@[simp] theorem raise_srate (e : ErrCode) (s : State) : (raise e s).srate = s.srate := rfl
@[simp] theorem raise_dlLen (e : ErrCode) (s : State) : (raise e s).dlLen = s.dlLen := rfl
@[simp] theorem raise_cursor (e : ErrCode) (s : State) : (raise e s).cursor = s.cursor := rfl
@[simp] theorem raise_baseDelay (e : ErrCode) (s : State) : (raise e s).baseDelay = s.baseDelay := rfl
@[simp] theorem raise_depthS (e : ErrCode) (s : State) : (raise e s).depthS = s.depthS := rfl
@[simp] theorem raise_feedbackRt (e : ErrCode) (s : State) : (raise e s).feedbackRt = s.feedbackRt := rfl
@[simp] theorem raise_cycleLen (e : ErrCode) (s : State) : (raise e s).cycleLen = s.cycleLen := rfl
@[simp] theorem raise_lfoScale (e : ErrCode) (s : State) : (raise e s).lfoScale = s.lfoScale := rfl
@[simp] theorem raise_phaseOff (e : ErrCode) (s : State) : (raise e s).phaseOff = s.phaseOff := rfl
@[simp] theorem raise_waveRt (e : ErrCode) (s : State) : (raise e s).waveRt = s.waveRt := rfl
@[simp] theorem raise_gainIn0 (e : ErrCode) (s : State) : (raise e s).gainIn0 = s.gainIn0 := rfl
@[simp] theorem raise_gainIn1 (e : ErrCode) (s : State) : (raise e s).gainIn1 = s.gainIn1 := rfl
@[simp] theorem raise_gainRt0 (e : ErrCode) (s : State) : (raise e s).gainRt0 = s.gainRt0 := rfl
@[simp] theorem raise_gainRt1 (e : ErrCode) (s : State) : (raise e s).gainRt1 = s.gainRt1 := rfl
@[simp] theorem raise_mem (e : ErrCode) (s : State) : (raise e s).mem = s.mem := rfl
@[simp] theorem raise_host (e : ErrCode) (s : State) : (raise e s).host = s.host := rfl
@[simp] theorem raise_readLog (e : ErrCode) (s : State) : (raise e s).readLog = s.readLog := rfl

@[simp] theorem clearLines_params (s : State) : (clearLines s).params = s.params := rfl
@[simp] theorem clearLines_arg (s : State) : (clearLines s).arg = s.arg := rfl
@[simp] theorem clearLines_status (s : State) : (clearLines s).status = s.status := rfl
@[simp] theorem clearLines_pWaveform (s : State) : (clearLines s).pWaveform = s.pWaveform := rfl
@[simp] theorem clearLines_pPhase (s : State) : (clearLines s).pPhase = s.pPhase := rfl
@[simp] theorem clearLines_pRate (s : State) : (clearLines s).pRate = s.pRate := rfl
@[simp] theorem clearLines_pDepth (s : State) : (clearLines s).pDepth = s.pDepth := rfl
@[simp] theorem clearLines_pFeedback (s : State) : (clearLines s).pFeedback = s.pFeedback := rfl
@[simp] theorem clearLines_pDelay (s : State) : (clearLines s).pDelay = s.pDelay := rfl
@[simp] theorem clearLines_srate (s : State) : (clearLines s).srate = s.srate := rfl
@[simp] theorem clearLines_dlLen (s : State) : (clearLines s).dlLen = s.dlLen := rfl
@[simp] theorem clearLines_cursor (s : State) : (clearLines s).cursor = s.cursor := rfl
@[simp] theorem clearLines_baseDelay (s : State) : (clearLines s).baseDelay = s.baseDelay := rfl
@[simp] theorem clearLines_depthS (s : State) : (clearLines s).depthS = s.depthS := rfl
@[simp] theorem clearLines_feedbackRt (s : State) : (clearLines s).feedbackRt = s.feedbackRt := rfl
@[simp] theorem clearLines_cycleLen (s : State) : (clearLines s).cycleLen = s.cycleLen := rfl
@[simp] theorem clearLines_lfoScale (s : State) : (clearLines s).lfoScale = s.lfoScale := rfl
@[simp] theorem clearLines_phaseOff (s : State) : (clearLines s).phaseOff = s.phaseOff := rfl
@[simp] theorem clearLines_waveRt (s : State) : (clearLines s).waveRt = s.waveRt := rfl
@[simp] theorem clearLines_gainIn0 (s : State) : (clearLines s).gainIn0 = s.gainIn0 := rfl
@[simp] theorem clearLines_gainIn1 (s : State) : (clearLines s).gainIn1 = s.gainIn1 := rfl
@[simp] theorem clearLines_gainRt0 (s : State) : (clearLines s).gainRt0 = s.gainRt0 := rfl
@[simp] theorem clearLines_gainRt1 (s : State) : (clearLines s).gainRt1 = s.gainRt1 := rfl
@[simp] theorem clearLines_mem (s : State) : (clearLines s).mem = clearDl (2 * s.dlLen.toNat) s.mem := rfl
@[simp] theorem clearLines_host (s : State) : (clearLines s).host = s.host := rfl
@[simp] theorem clearLines_readLog (s : State) : (clearLines s).readLog = s.readLog := rfl

@[simp] theorem devchgFail_params (e : ErrCode) (s : State) : (devchgFail e s).params = s.params := rfl
@[simp] theorem devchgFail_arg (e : ErrCode) (s : State) : (devchgFail e s).arg = s.arg := rfl
@[simp] theorem devchgFail_status (e : ErrCode) (s : State) : (devchgFail e s).status = failedStatus e := rfl
@[simp] theorem devchgFail_pWaveform (e : ErrCode) (s : State) : (devchgFail e s).pWaveform = s.pWaveform := rfl
@[simp] theorem devchgFail_pPhase (e : ErrCode) (s : State) : (devchgFail e s).pPhase = s.pPhase := rfl
@[simp] theorem devchgFail_pRate (e : ErrCode) (s : State) : (devchgFail e s).pRate = s.pRate := rfl
@[simp] theorem devchgFail_pDepth (e : ErrCode) (s : State) : (devchgFail e s).pDepth = s.pDepth := rfl
@[simp] theorem devchgFail_pFeedback (e : ErrCode) (s : State) : (devchgFail e s).pFeedback = s.pFeedback := rfl
@[simp] theorem devchgFail_pDelay (e : ErrCode) (s : State) : (devchgFail e s).pDelay = s.pDelay := rfl
@[simp] theorem devchgFail_srate (e : ErrCode) (s : State) : (devchgFail e s).srate = s.srate := rfl
@[simp] theorem devchgFail_dlLen (e : ErrCode) (s : State) : (devchgFail e s).dlLen = s.dlLen := rfl
@[simp] theorem devchgFail_cursor (e : ErrCode) (s : State) : (devchgFail e s).cursor = s.cursor := rfl
@[simp] theorem devchgFail_baseDelay (e : ErrCode) (s : State) : (devchgFail e s).baseDelay = s.baseDelay := rfl
@[simp] theorem devchgFail_depthS (e : ErrCode) (s : State) : (devchgFail e s).depthS = s.depthS := rfl
@[simp] theorem devchgFail_feedbackRt (e : ErrCode) (s : State) : (devchgFail e s).feedbackRt = s.feedbackRt := rfl
@[simp] theorem devchgFail_cycleLen (e : ErrCode) (s : State) : (devchgFail e s).cycleLen = s.cycleLen := rfl
@[simp] theorem devchgFail_lfoScale (e : ErrCode) (s : State) : (devchgFail e s).lfoScale = s.lfoScale := rfl
@[simp] theorem devchgFail_phaseOff (e : ErrCode) (s : State) : (devchgFail e s).phaseOff = s.phaseOff := rfl
@[simp] theorem devchgFail_waveRt (e : ErrCode) (s : State) : (devchgFail e s).waveRt = s.waveRt := rfl
@[simp] theorem devchgFail_gainIn0 (e : ErrCode) (s : State) : (devchgFail e s).gainIn0 = s.gainIn0 := rfl
@[simp] theorem devchgFail_gainIn1 (e : ErrCode) (s : State) : (devchgFail e s).gainIn1 = s.gainIn1 := rfl
@[simp] theorem devchgFail_gainRt0 (e : ErrCode) (s : State) : (devchgFail e s).gainRt0 = s.gainRt0 := rfl
@[simp] theorem devchgFail_gainRt1 (e : ErrCode) (s : State) : (devchgFail e s).gainRt1 = s.gainRt1 := rfl
@[simp] theorem devchgFail_mem (e : ErrCode) (s : State) : (devchgFail e s).mem = s.mem := rfl
@[simp] theorem devchgFail_host (e : ErrCode) (s : State) : (devchgFail e s).host = s.host := rfl
@[simp] theorem devchgFail_readLog (e : ErrCode) (s : State) : (devchgFail e s).readLog = s.readLog := rfl

@[simp] theorem devchgDone_params (s : State) : (devchgDone s).params = s.params := rfl
@[simp] theorem devchgDone_arg (s : State) : (devchgDone s).arg = s.arg := rfl
@[simp] theorem devchgDone_status (s : State) : (devchgDone s).status = configuredStatus := rfl
@[simp] theorem devchgDone_pWaveform (s : State) : (devchgDone s).pWaveform = s.pWaveform := rfl
@[simp] theorem devchgDone_pPhase (s : State) : (devchgDone s).pPhase = s.pPhase := rfl
@[simp] theorem devchgDone_pRate (s : State) : (devchgDone s).pRate = s.pRate := rfl
@[simp] theorem devchgDone_pDepth (s : State) : (devchgDone s).pDepth = s.pDepth := rfl
@[simp] theorem devchgDone_pFeedback (s : State) : (devchgDone s).pFeedback = s.pFeedback := rfl
@[simp] theorem devchgDone_pDelay (s : State) : (devchgDone s).pDelay = s.pDelay := rfl
@[simp] theorem devchgDone_srate (s : State) : (devchgDone s).srate = s.arg := rfl
@[simp] theorem devchgDone_dlLen (s : State) : (devchgDone s).dlLen = s.dlLen := rfl
@[simp] theorem devchgDone_cursor (s : State) : (devchgDone s).cursor = s.cursor := rfl
@[simp] theorem devchgDone_baseDelay (s : State) : (devchgDone s).baseDelay = s.baseDelay := rfl
@[simp] theorem devchgDone_depthS (s : State) : (devchgDone s).depthS = s.depthS := rfl
@[simp] theorem devchgDone_feedbackRt (s : State) : (devchgDone s).feedbackRt = s.feedbackRt := rfl
@[simp] theorem devchgDone_cycleLen (s : State) : (devchgDone s).cycleLen = s.cycleLen := rfl
@[simp] theorem devchgDone_lfoScale (s : State) : (devchgDone s).lfoScale = s.lfoScale := rfl
@[simp] theorem devchgDone_phaseOff (s : State) : (devchgDone s).phaseOff = s.phaseOff := rfl
@[simp] theorem devchgDone_waveRt (s : State) : (devchgDone s).waveRt = s.waveRt := rfl
@[simp] theorem devchgDone_gainIn0 (s : State) : (devchgDone s).gainIn0 = s.gainIn0 := rfl
@[simp] theorem devchgDone_gainIn1 (s : State) : (devchgDone s).gainIn1 = s.gainIn1 := rfl
@[simp] theorem devchgDone_gainRt0 (s : State) : (devchgDone s).gainRt0 = s.gainRt0 := rfl
@[simp] theorem devchgDone_gainRt1 (s : State) : (devchgDone s).gainRt1 = s.gainRt1 := rfl
@[simp] theorem devchgDone_mem (s : State) : (devchgDone s).mem = clearDl (2 * s.dlLen.toNat) s.mem := rfl
@[simp] theorem devchgDone_host (s : State) : (devchgDone s).host = s.host := rfl
@[simp] theorem devchgDone_readLog (s : State) : (devchgDone s).readLog = s.readLog := rfl

@[simp] theorem stepWaveform_params (s : State) : (stepWaveform s).params = s.params := rfl
@[simp] theorem stepWaveform_arg (s : State) : (stepWaveform s).arg = s.arg := rfl
@[simp] theorem stepWaveform_status (s : State) : (stepWaveform s).status = s.status := rfl
@[simp] theorem stepWaveform_pWaveform (s : State) : (stepWaveform s).pWaveform = s.pWaveform := rfl
@[simp] theorem stepWaveform_pPhase (s : State) : (stepWaveform s).pPhase = s.pPhase := rfl
@[simp] theorem stepWaveform_pRate (s : State) : (stepWaveform s).pRate = s.pRate := rfl
@[simp] theorem stepWaveform_pDepth (s : State) : (stepWaveform s).pDepth = s.pDepth := rfl
@[simp] theorem stepWaveform_pFeedback (s : State) : (stepWaveform s).pFeedback = s.pFeedback := rfl
@[simp] theorem stepWaveform_pDelay (s : State) : (stepWaveform s).pDelay = s.pDelay := rfl
@[simp] theorem stepWaveform_srate (s : State) : (stepWaveform s).srate = s.srate := rfl
@[simp] theorem stepWaveform_dlLen (s : State) : (stepWaveform s).dlLen = s.dlLen := rfl
@[simp] theorem stepWaveform_cursor (s : State) : (stepWaveform s).cursor = s.cursor := rfl
@[simp] theorem stepWaveform_baseDelay (s : State) : (stepWaveform s).baseDelay = s.baseDelay := rfl
@[simp] theorem stepWaveform_depthS (s : State) : (stepWaveform s).depthS = s.depthS := rfl
@[simp] theorem stepWaveform_feedbackRt (s : State) : (stepWaveform s).feedbackRt = s.feedbackRt := rfl
@[simp] theorem stepWaveform_cycleLen (s : State) : (stepWaveform s).cycleLen = s.cycleLen := rfl
@[simp] theorem stepWaveform_lfoScale (s : State) : (stepWaveform s).lfoScale = s.lfoScale := rfl
@[simp] theorem stepWaveform_phaseOff (s : State) : (stepWaveform s).phaseOff = s.phaseOff := rfl
@[simp] theorem stepWaveform_waveRt (s : State) : (stepWaveform s).waveRt = s.pWaveform := rfl
@[simp] theorem stepWaveform_gainIn0 (s : State) : (stepWaveform s).gainIn0 = s.gainIn0 := rfl
@[simp] theorem stepWaveform_gainIn1 (s : State) : (stepWaveform s).gainIn1 = s.gainIn1 := rfl
@[simp] theorem stepWaveform_gainRt0 (s : State) : (stepWaveform s).gainRt0 = s.gainRt0 := rfl
@[simp] theorem stepWaveform_gainRt1 (s : State) : (stepWaveform s).gainRt1 = s.gainRt1 := rfl
@[simp] theorem stepWaveform_mem (s : State) : (stepWaveform s).mem = s.mem := rfl
@[simp] theorem stepWaveform_host (s : State) : (stepWaveform s).host = s.host := rfl
@[simp] theorem stepWaveform_readLog (s : State) : (stepWaveform s).readLog = s.readLog := rfl

@[simp] theorem stepBaseDelay_params (s : State) : (stepBaseDelay s).params = s.params := by rw [stepBaseDelay]
@[simp] theorem stepBaseDelay_arg (s : State) : (stepBaseDelay s).arg = s.arg := by rw [stepBaseDelay]
@[simp] theorem stepBaseDelay_status (s : State) : (stepBaseDelay s).status = s.status := by rw [stepBaseDelay]
@[simp] theorem stepBaseDelay_pWaveform (s : State) : (stepBaseDelay s).pWaveform = s.pWaveform := by rw [stepBaseDelay]
@[simp] theorem stepBaseDelay_pPhase (s : State) : (stepBaseDelay s).pPhase = s.pPhase := by rw [stepBaseDelay]
@[simp] theorem stepBaseDelay_pRate (s : State) : (stepBaseDelay s).pRate = s.pRate := by rw [stepBaseDelay]
@[simp] theorem stepBaseDelay_pDepth (s : State) : (stepBaseDelay s).pDepth = s.pDepth := by rw [stepBaseDelay]
@[simp] theorem stepBaseDelay_pFeedback (s : State) : (stepBaseDelay s).pFeedback = s.pFeedback := by rw [stepBaseDelay]
@[simp] theorem stepBaseDelay_pDelay (s : State) : (stepBaseDelay s).pDelay = s.pDelay := by rw [stepBaseDelay]
@[simp] theorem stepBaseDelay_srate (s : State) : (stepBaseDelay s).srate = s.srate := by rw [stepBaseDelay]
@[simp] theorem stepBaseDelay_dlLen (s : State) : (stepBaseDelay s).dlLen = s.dlLen := by rw [stepBaseDelay]
@[simp] theorem stepBaseDelay_cursor (s : State) : (stepBaseDelay s).cursor = s.cursor := by rw [stepBaseDelay]
@[simp] theorem stepBaseDelay_baseDelay (s : State) :
    (stepBaseDelay s).baseDelay = roundS32 (fmul s.pDelay (u2f s.srate)) := by rw [stepBaseDelay]
@[simp] theorem stepBaseDelay_depthS (s : State) : (stepBaseDelay s).depthS = s.depthS := by rw [stepBaseDelay]
@[simp] theorem stepBaseDelay_feedbackRt (s : State) : (stepBaseDelay s).feedbackRt = s.feedbackRt := by rw [stepBaseDelay]
@[simp] theorem stepBaseDelay_cycleLen (s : State) : (stepBaseDelay s).cycleLen = s.cycleLen := by rw [stepBaseDelay]
@[simp] theorem stepBaseDelay_lfoScale (s : State) : (stepBaseDelay s).lfoScale = s.lfoScale := by rw [stepBaseDelay]
@[simp] theorem stepBaseDelay_phaseOff (s : State) : (stepBaseDelay s).phaseOff = s.phaseOff := by rw [stepBaseDelay]
@[simp] theorem stepBaseDelay_waveRt (s : State) : (stepBaseDelay s).waveRt = s.waveRt := by rw [stepBaseDelay]
@[simp] theorem stepBaseDelay_gainIn0 (s : State) : (stepBaseDelay s).gainIn0 = s.gainIn0 := by rw [stepBaseDelay]
@[simp] theorem stepBaseDelay_gainIn1 (s : State) : (stepBaseDelay s).gainIn1 = s.gainIn1 := by rw [stepBaseDelay]
@[simp] theorem stepBaseDelay_gainRt0 (s : State) : (stepBaseDelay s).gainRt0 = s.gainRt0 := by rw [stepBaseDelay]
@[simp] theorem stepBaseDelay_gainRt1 (s : State) : (stepBaseDelay s).gainRt1 = s.gainRt1 := by rw [stepBaseDelay]
@[simp] theorem stepBaseDelay_mem (s : State) : (stepBaseDelay s).mem = s.mem := by rw [stepBaseDelay]
@[simp] theorem stepBaseDelay_host (s : State) : (stepBaseDelay s).host = s.host := by rw [stepBaseDelay]
@[simp] theorem stepBaseDelay_readLog (s : State) : (stepBaseDelay s).readLog = s.readLog := by rw [stepBaseDelay]

@[simp] theorem stepDepth_params (s : State) : (stepDepth s).params = s.params := by rw [stepDepth]
@[simp] theorem stepDepth_arg (s : State) : (stepDepth s).arg = s.arg := by rw [stepDepth]
@[simp] theorem stepDepth_status (s : State) : (stepDepth s).status = s.status := by rw [stepDepth]
@[simp] theorem stepDepth_pWaveform (s : State) : (stepDepth s).pWaveform = s.pWaveform := by rw [stepDepth]
@[simp] theorem stepDepth_pPhase (s : State) : (stepDepth s).pPhase = s.pPhase := by rw [stepDepth]
@[simp] theorem stepDepth_pRate (s : State) : (stepDepth s).pRate = s.pRate := by rw [stepDepth]
@[simp] theorem stepDepth_pDepth (s : State) : (stepDepth s).pDepth = s.pDepth := by rw [stepDepth]
@[simp] theorem stepDepth_pFeedback (s : State) : (stepDepth s).pFeedback = s.pFeedback := by rw [stepDepth]
@[simp] theorem stepDepth_pDelay (s : State) : (stepDepth s).pDelay = s.pDelay := by rw [stepDepth]
@[simp] theorem stepDepth_srate (s : State) : (stepDepth s).srate = s.srate := by rw [stepDepth]
@[simp] theorem stepDepth_dlLen (s : State) : (stepDepth s).dlLen = s.dlLen := by rw [stepDepth]
@[simp] theorem stepDepth_cursor (s : State) : (stepDepth s).cursor = s.cursor := by rw [stepDepth]
@[simp] theorem stepDepth_baseDelay (s : State) : (stepDepth s).baseDelay = s.baseDelay := by rw [stepDepth]
@[simp] theorem stepDepth_depthS (s : State) : (stepDepth s).depthS = fmul s.pDepth (i2f s.baseDelay) := by rw [stepDepth]
@[simp] theorem stepDepth_feedbackRt (s : State) : (stepDepth s).feedbackRt = s.feedbackRt := by rw [stepDepth]
@[simp] theorem stepDepth_cycleLen (s : State) : (stepDepth s).cycleLen = s.cycleLen := by rw [stepDepth]
@[simp] theorem stepDepth_lfoScale (s : State) : (stepDepth s).lfoScale = s.lfoScale := by rw [stepDepth]
@[simp] theorem stepDepth_phaseOff (s : State) : (stepDepth s).phaseOff = s.phaseOff := by rw [stepDepth]
@[simp] theorem stepDepth_waveRt (s : State) : (stepDepth s).waveRt = s.waveRt := by rw [stepDepth]
@[simp] theorem stepDepth_gainIn0 (s : State) : (stepDepth s).gainIn0 = s.gainIn0 := by rw [stepDepth]
@[simp] theorem stepDepth_gainIn1 (s : State) : (stepDepth s).gainIn1 = s.gainIn1 := by rw [stepDepth]
@[simp] theorem stepDepth_gainRt0 (s : State) : (stepDepth s).gainRt0 = s.gainRt0 := by rw [stepDepth]
@[simp] theorem stepDepth_gainRt1 (s : State) : (stepDepth s).gainRt1 = s.gainRt1 := by rw [stepDepth]
@[simp] theorem stepDepth_mem (s : State) : (stepDepth s).mem = s.mem := by rw [stepDepth]
@[simp] theorem stepDepth_host (s : State) : (stepDepth s).host = s.host := by rw [stepDepth]
@[simp] theorem stepDepth_readLog (s : State) : (stepDepth s).readLog = s.readLog := by rw [stepDepth]

@[simp] theorem stepFeedback_params (s : State) : (stepFeedback s).params = s.params := rfl
@[simp] theorem stepFeedback_arg (s : State) : (stepFeedback s).arg = s.arg := rfl
@[simp] theorem stepFeedback_status (s : State) : (stepFeedback s).status = s.status := rfl
@[simp] theorem stepFeedback_pWaveform (s : State) : (stepFeedback s).pWaveform = s.pWaveform := rfl
@[simp] theorem stepFeedback_pPhase (s : State) : (stepFeedback s).pPhase = s.pPhase := rfl
@[simp] theorem stepFeedback_pRate (s : State) : (stepFeedback s).pRate = s.pRate := rfl
@[simp] theorem stepFeedback_pDepth (s : State) : (stepFeedback s).pDepth = s.pDepth := rfl
@[simp] theorem stepFeedback_pFeedback (s : State) : (stepFeedback s).pFeedback = s.pFeedback := rfl
@[simp] theorem stepFeedback_pDelay (s : State) : (stepFeedback s).pDelay = s.pDelay := rfl
@[simp] theorem stepFeedback_srate (s : State) : (stepFeedback s).srate = s.srate := rfl
@[simp] theorem stepFeedback_dlLen (s : State) : (stepFeedback s).dlLen = s.dlLen := rfl
@[simp] theorem stepFeedback_cursor (s : State) : (stepFeedback s).cursor = s.cursor := rfl
@[simp] theorem stepFeedback_baseDelay (s : State) : (stepFeedback s).baseDelay = s.baseDelay := rfl
@[simp] theorem stepFeedback_depthS (s : State) : (stepFeedback s).depthS = s.depthS := rfl
@[simp] theorem stepFeedback_feedbackRt (s : State) : (stepFeedback s).feedbackRt = s.pFeedback := rfl
@[simp] theorem stepFeedback_cycleLen (s : State) : (stepFeedback s).cycleLen = s.cycleLen := rfl
@[simp] theorem stepFeedback_lfoScale (s : State) : (stepFeedback s).lfoScale = s.lfoScale := rfl
@[simp] theorem stepFeedback_phaseOff (s : State) : (stepFeedback s).phaseOff = s.phaseOff := rfl
@[simp] theorem stepFeedback_waveRt (s : State) : (stepFeedback s).waveRt = s.waveRt := rfl
@[simp] theorem stepFeedback_gainIn0 (s : State) : (stepFeedback s).gainIn0 = s.gainIn0 := rfl
@[simp] theorem stepFeedback_gainIn1 (s : State) : (stepFeedback s).gainIn1 = s.gainIn1 := rfl
@[simp] theorem stepFeedback_gainRt0 (s : State) : (stepFeedback s).gainRt0 = s.gainRt0 := rfl
@[simp] theorem stepFeedback_gainRt1 (s : State) : (stepFeedback s).gainRt1 = s.gainRt1 := rfl
@[simp] theorem stepFeedback_mem (s : State) : (stepFeedback s).mem = s.mem := rfl
@[simp] theorem stepFeedback_host (s : State) : (stepFeedback s).host = s.host := rfl
@[simp] theorem stepFeedback_readLog (s : State) : (stepFeedback s).readLog = s.readLog := rfl

@[simp] theorem lfoDisabled_params (s : State) : (lfoDisabled s).params = s.params := rfl
@[simp] theorem lfoDisabled_arg (s : State) : (lfoDisabled s).arg = s.arg := rfl
@[simp] theorem lfoDisabled_status (s : State) : (lfoDisabled s).status = s.status := rfl
@[simp] theorem lfoDisabled_pWaveform (s : State) : (lfoDisabled s).pWaveform = s.pWaveform := rfl
@[simp] theorem lfoDisabled_pPhase (s : State) : (lfoDisabled s).pPhase = s.pPhase := rfl
@[simp] theorem lfoDisabled_pRate (s : State) : (lfoDisabled s).pRate = s.pRate := rfl
@[simp] theorem lfoDisabled_pDepth (s : State) : (lfoDisabled s).pDepth = s.pDepth := rfl
@[simp] theorem lfoDisabled_pFeedback (s : State) : (lfoDisabled s).pFeedback = s.pFeedback := rfl
@[simp] theorem lfoDisabled_pDelay (s : State) : (lfoDisabled s).pDelay = s.pDelay := rfl
@[simp] theorem lfoDisabled_srate (s : State) : (lfoDisabled s).srate = s.srate := rfl
@[simp] theorem lfoDisabled_dlLen (s : State) : (lfoDisabled s).dlLen = s.dlLen := rfl
@[simp] theorem lfoDisabled_cursor (s : State) : (lfoDisabled s).cursor = s.cursor := rfl
@[simp] theorem lfoDisabled_baseDelay (s : State) : (lfoDisabled s).baseDelay = s.baseDelay := rfl
@[simp] theorem lfoDisabled_depthS (s : State) : (lfoDisabled s).depthS = s.depthS := rfl
@[simp] theorem lfoDisabled_feedbackRt (s : State) : (lfoDisabled s).feedbackRt = s.feedbackRt := rfl
@[simp] theorem lfoDisabled_cycleLen (s : State) : (lfoDisabled s).cycleLen = 1#32 := rfl
@[simp] theorem lfoDisabled_lfoScale (s : State) : (lfoDisabled s).lfoScale = posZero := rfl
@[simp] theorem lfoDisabled_phaseOff (s : State) : (lfoDisabled s).phaseOff = 0#32 := rfl
@[simp] theorem lfoDisabled_waveRt (s : State) : (lfoDisabled s).waveRt = s.waveRt := rfl
@[simp] theorem lfoDisabled_gainIn0 (s : State) : (lfoDisabled s).gainIn0 = s.gainIn0 := rfl
@[simp] theorem lfoDisabled_gainIn1 (s : State) : (lfoDisabled s).gainIn1 = s.gainIn1 := rfl
@[simp] theorem lfoDisabled_gainRt0 (s : State) : (lfoDisabled s).gainRt0 = s.gainRt0 := rfl
@[simp] theorem lfoDisabled_gainRt1 (s : State) : (lfoDisabled s).gainRt1 = s.gainRt1 := rfl
@[simp] theorem lfoDisabled_mem (s : State) : (lfoDisabled s).mem = s.mem := rfl
@[simp] theorem lfoDisabled_host (s : State) : (lfoDisabled s).host = s.host := rfl
@[simp] theorem lfoDisabled_readLog (s : State) : (lfoDisabled s).readLog = s.readLog := rfl

@[simp] theorem stepCycle_params (s : State) : (stepCycle s).params = s.params := by rw [stepCycle]
@[simp] theorem stepCycle_arg (s : State) : (stepCycle s).arg = s.arg := by rw [stepCycle]
@[simp] theorem stepCycle_status (s : State) : (stepCycle s).status = s.status := by rw [stepCycle]
@[simp] theorem stepCycle_pWaveform (s : State) : (stepCycle s).pWaveform = s.pWaveform := by rw [stepCycle]
@[simp] theorem stepCycle_pPhase (s : State) : (stepCycle s).pPhase = s.pPhase := by rw [stepCycle]
@[simp] theorem stepCycle_pRate (s : State) : (stepCycle s).pRate = s.pRate := by rw [stepCycle]
@[simp] theorem stepCycle_pDepth (s : State) : (stepCycle s).pDepth = s.pDepth := by rw [stepCycle]
@[simp] theorem stepCycle_pFeedback (s : State) : (stepCycle s).pFeedback = s.pFeedback := by rw [stepCycle]
@[simp] theorem stepCycle_pDelay (s : State) : (stepCycle s).pDelay = s.pDelay := by rw [stepCycle]
@[simp] theorem stepCycle_srate (s : State) : (stepCycle s).srate = s.srate := by rw [stepCycle]
@[simp] theorem stepCycle_dlLen (s : State) : (stepCycle s).dlLen = s.dlLen := by rw [stepCycle]
@[simp] theorem stepCycle_cursor (s : State) : (stepCycle s).cursor = s.cursor := by rw [stepCycle]
@[simp] theorem stepCycle_baseDelay (s : State) : (stepCycle s).baseDelay = s.baseDelay := by rw [stepCycle]
@[simp] theorem stepCycle_depthS (s : State) : (stepCycle s).depthS = s.depthS := by rw [stepCycle]
@[simp] theorem stepCycle_feedbackRt (s : State) : (stepCycle s).feedbackRt = s.feedbackRt := by rw [stepCycle]
@[simp] theorem stepCycle_cycleLen (s : State) : (stepCycle s).cycleLen = cycleLength s.srate s.pRate := by rw [stepCycle]
@[simp] theorem stepCycle_lfoScale (s : State) : (stepCycle s).lfoScale = s.lfoScale := by rw [stepCycle]
@[simp] theorem stepCycle_phaseOff (s : State) : (stepCycle s).phaseOff = s.phaseOff := by rw [stepCycle]
@[simp] theorem stepCycle_waveRt (s : State) : (stepCycle s).waveRt = s.waveRt := by rw [stepCycle]
@[simp] theorem stepCycle_gainIn0 (s : State) : (stepCycle s).gainIn0 = s.gainIn0 := by rw [stepCycle]
@[simp] theorem stepCycle_gainIn1 (s : State) : (stepCycle s).gainIn1 = s.gainIn1 := by rw [stepCycle]
@[simp] theorem stepCycle_gainRt0 (s : State) : (stepCycle s).gainRt0 = s.gainRt0 := by rw [stepCycle]
@[simp] theorem stepCycle_gainRt1 (s : State) : (stepCycle s).gainRt1 = s.gainRt1 := by rw [stepCycle]
@[simp] theorem stepCycle_mem (s : State) : (stepCycle s).mem = s.mem := by rw [stepCycle]
@[simp] theorem stepCycle_host (s : State) : (stepCycle s).host = s.host := by rw [stepCycle]
@[simp] theorem stepCycle_readLog (s : State) : (stepCycle s).readLog = s.readLog := by rw [stepCycle]

@[simp] theorem stepScale_params (s : State) : (stepScale s).params = s.params := by rw [stepScale]
@[simp] theorem stepScale_arg (s : State) : (stepScale s).arg = s.arg := by rw [stepScale]
@[simp] theorem stepScale_status (s : State) : (stepScale s).status = s.status := by rw [stepScale]
@[simp] theorem stepScale_pWaveform (s : State) : (stepScale s).pWaveform = s.pWaveform := by rw [stepScale]
@[simp] theorem stepScale_pPhase (s : State) : (stepScale s).pPhase = s.pPhase := by rw [stepScale]
@[simp] theorem stepScale_pRate (s : State) : (stepScale s).pRate = s.pRate := by rw [stepScale]
@[simp] theorem stepScale_pDepth (s : State) : (stepScale s).pDepth = s.pDepth := by rw [stepScale]
@[simp] theorem stepScale_pFeedback (s : State) : (stepScale s).pFeedback = s.pFeedback := by rw [stepScale]
@[simp] theorem stepScale_pDelay (s : State) : (stepScale s).pDelay = s.pDelay := by rw [stepScale]
@[simp] theorem stepScale_srate (s : State) : (stepScale s).srate = s.srate := by rw [stepScale]
@[simp] theorem stepScale_dlLen (s : State) : (stepScale s).dlLen = s.dlLen := by rw [stepScale]
@[simp] theorem stepScale_cursor (s : State) : (stepScale s).cursor = s.cursor := by rw [stepScale]
@[simp] theorem stepScale_baseDelay (s : State) : (stepScale s).baseDelay = s.baseDelay := by rw [stepScale]
@[simp] theorem stepScale_depthS (s : State) : (stepScale s).depthS = s.depthS := by rw [stepScale]
@[simp] theorem stepScale_feedbackRt (s : State) : (stepScale s).feedbackRt = s.feedbackRt := by rw [stepScale]
@[simp] theorem stepScale_cycleLen (s : State) : (stepScale s).cycleLen = s.cycleLen := by rw [stepScale]
@[simp] theorem stepScale_lfoScale (s : State) :
    (stepScale s).lfoScale = fdiv (if s.waveRt = 1#32 then 0x40800000#32 else Config.tauF32) (u2f s.cycleLen) := by rw [stepScale]
@[simp] theorem stepScale_phaseOff (s : State) : (stepScale s).phaseOff = s.phaseOff := by rw [stepScale]
@[simp] theorem stepScale_waveRt (s : State) : (stepScale s).waveRt = s.waveRt := by rw [stepScale]
@[simp] theorem stepScale_gainIn0 (s : State) : (stepScale s).gainIn0 = s.gainIn0 := by rw [stepScale]
@[simp] theorem stepScale_gainIn1 (s : State) : (stepScale s).gainIn1 = s.gainIn1 := by rw [stepScale]
@[simp] theorem stepScale_gainRt0 (s : State) : (stepScale s).gainRt0 = s.gainRt0 := by rw [stepScale]
@[simp] theorem stepScale_gainRt1 (s : State) : (stepScale s).gainRt1 = s.gainRt1 := by rw [stepScale]
@[simp] theorem stepScale_mem (s : State) : (stepScale s).mem = s.mem := by rw [stepScale]
@[simp] theorem stepScale_host (s : State) : (stepScale s).host = s.host := by rw [stepScale]
@[simp] theorem stepScale_readLog (s : State) : (stepScale s).readLog = s.readLog := by rw [stepScale]

@[simp] theorem stepPhaseOff_params (s : State) : (stepPhaseOff s).params = s.params := by rw [stepPhaseOff]
@[simp] theorem stepPhaseOff_arg (s : State) : (stepPhaseOff s).arg = s.arg := by rw [stepPhaseOff]
@[simp] theorem stepPhaseOff_status (s : State) : (stepPhaseOff s).status = s.status := by rw [stepPhaseOff]
@[simp] theorem stepPhaseOff_pWaveform (s : State) : (stepPhaseOff s).pWaveform = s.pWaveform := by rw [stepPhaseOff]
@[simp] theorem stepPhaseOff_pPhase (s : State) : (stepPhaseOff s).pPhase = s.pPhase := by rw [stepPhaseOff]
@[simp] theorem stepPhaseOff_pRate (s : State) : (stepPhaseOff s).pRate = s.pRate := by rw [stepPhaseOff]
@[simp] theorem stepPhaseOff_pDepth (s : State) : (stepPhaseOff s).pDepth = s.pDepth := by rw [stepPhaseOff]
@[simp] theorem stepPhaseOff_pFeedback (s : State) : (stepPhaseOff s).pFeedback = s.pFeedback := by rw [stepPhaseOff]
@[simp] theorem stepPhaseOff_pDelay (s : State) : (stepPhaseOff s).pDelay = s.pDelay := by rw [stepPhaseOff]
@[simp] theorem stepPhaseOff_srate (s : State) : (stepPhaseOff s).srate = s.srate := by rw [stepPhaseOff]
@[simp] theorem stepPhaseOff_dlLen (s : State) : (stepPhaseOff s).dlLen = s.dlLen := by rw [stepPhaseOff]
@[simp] theorem stepPhaseOff_cursor (s : State) : (stepPhaseOff s).cursor = s.cursor := by rw [stepPhaseOff]
@[simp] theorem stepPhaseOff_baseDelay (s : State) : (stepPhaseOff s).baseDelay = s.baseDelay := by rw [stepPhaseOff]
@[simp] theorem stepPhaseOff_depthS (s : State) : (stepPhaseOff s).depthS = s.depthS := by rw [stepPhaseOff]
@[simp] theorem stepPhaseOff_feedbackRt (s : State) : (stepPhaseOff s).feedbackRt = s.feedbackRt := by rw [stepPhaseOff]
@[simp] theorem stepPhaseOff_cycleLen (s : State) : (stepPhaseOff s).cycleLen = s.cycleLen := by rw [stepPhaseOff]
@[simp] theorem stepPhaseOff_lfoScale (s : State) : (stepPhaseOff s).lfoScale = s.lfoScale := by rw [stepPhaseOff]
@[simp] theorem stepPhaseOff_phaseOff (s : State) : (stepPhaseOff s).phaseOff = phaseOffset s.cycleLen s.pPhase := by rw [stepPhaseOff]
@[simp] theorem stepPhaseOff_waveRt (s : State) : (stepPhaseOff s).waveRt = s.waveRt := by rw [stepPhaseOff]
@[simp] theorem stepPhaseOff_gainIn0 (s : State) : (stepPhaseOff s).gainIn0 = s.gainIn0 := by rw [stepPhaseOff]
@[simp] theorem stepPhaseOff_gainIn1 (s : State) : (stepPhaseOff s).gainIn1 = s.gainIn1 := by rw [stepPhaseOff]
@[simp] theorem stepPhaseOff_gainRt0 (s : State) : (stepPhaseOff s).gainRt0 = s.gainRt0 := by rw [stepPhaseOff]
@[simp] theorem stepPhaseOff_gainRt1 (s : State) : (stepPhaseOff s).gainRt1 = s.gainRt1 := by rw [stepPhaseOff]
@[simp] theorem stepPhaseOff_mem (s : State) : (stepPhaseOff s).mem = s.mem := by rw [stepPhaseOff]
@[simp] theorem stepPhaseOff_host (s : State) : (stepPhaseOff s).host = s.host := by rw [stepPhaseOff]
@[simp] theorem stepPhaseOff_readLog (s : State) : (stepPhaseOff s).readLog = s.readLog := by rw [stepPhaseOff]

@[simp] theorem stepGains_params (s : State) : (stepGains s).params = s.params := rfl
@[simp] theorem stepGains_arg (s : State) : (stepGains s).arg = s.arg := rfl
@[simp] theorem stepGains_status (s : State) : (stepGains s).status = s.status := rfl
@[simp] theorem stepGains_pWaveform (s : State) : (stepGains s).pWaveform = s.pWaveform := rfl
@[simp] theorem stepGains_pPhase (s : State) : (stepGains s).pPhase = s.pPhase := rfl
@[simp] theorem stepGains_pRate (s : State) : (stepGains s).pRate = s.pRate := rfl
@[simp] theorem stepGains_pDepth (s : State) : (stepGains s).pDepth = s.pDepth := rfl
@[simp] theorem stepGains_pFeedback (s : State) : (stepGains s).pFeedback = s.pFeedback := rfl
@[simp] theorem stepGains_pDelay (s : State) : (stepGains s).pDelay = s.pDelay := rfl
@[simp] theorem stepGains_srate (s : State) : (stepGains s).srate = s.srate := rfl
@[simp] theorem stepGains_dlLen (s : State) : (stepGains s).dlLen = s.dlLen := rfl
@[simp] theorem stepGains_cursor (s : State) : (stepGains s).cursor = s.cursor := rfl
@[simp] theorem stepGains_baseDelay (s : State) : (stepGains s).baseDelay = s.baseDelay := rfl
@[simp] theorem stepGains_depthS (s : State) : (stepGains s).depthS = s.depthS := rfl
@[simp] theorem stepGains_feedbackRt (s : State) : (stepGains s).feedbackRt = s.feedbackRt := rfl
@[simp] theorem stepGains_cycleLen (s : State) : (stepGains s).cycleLen = s.cycleLen := rfl
@[simp] theorem stepGains_lfoScale (s : State) : (stepGains s).lfoScale = s.lfoScale := rfl
@[simp] theorem stepGains_phaseOff (s : State) : (stepGains s).phaseOff = s.phaseOff := rfl
@[simp] theorem stepGains_waveRt (s : State) : (stepGains s).waveRt = s.waveRt := rfl
@[simp] theorem stepGains_gainIn0 (s : State) : (stepGains s).gainIn0 = s.gainIn0 := rfl
@[simp] theorem stepGains_gainIn1 (s : State) : (stepGains s).gainIn1 = s.gainIn1 := rfl
@[simp] theorem stepGains_gainRt0 (s : State) : (stepGains s).gainRt0 = s.gainIn0 := rfl
@[simp] theorem stepGains_gainRt1 (s : State) : (stepGains s).gainRt1 = s.gainIn1 := rfl
@[simp] theorem stepGains_mem (s : State) : (stepGains s).mem = s.mem := rfl
@[simp] theorem stepGains_host (s : State) : (stepGains s).host = s.host := rfl
@[simp] theorem stepGains_readLog (s : State) : (stepGains s).readLog = s.readLog := rfl

@[simp] theorem stepUpdated_params (s : State) : (stepUpdated s).params = s.params := rfl
@[simp] theorem stepUpdated_arg (s : State) : (stepUpdated s).arg = s.arg := rfl
@[simp] theorem stepUpdated_status (s : State) : (stepUpdated s).status = updatedStatus s.status := rfl
@[simp] theorem stepUpdated_pWaveform (s : State) : (stepUpdated s).pWaveform = s.pWaveform := rfl
@[simp] theorem stepUpdated_pPhase (s : State) : (stepUpdated s).pPhase = s.pPhase := rfl
@[simp] theorem stepUpdated_pRate (s : State) : (stepUpdated s).pRate = s.pRate := rfl
@[simp] theorem stepUpdated_pDepth (s : State) : (stepUpdated s).pDepth = s.pDepth := rfl
@[simp] theorem stepUpdated_pFeedback (s : State) : (stepUpdated s).pFeedback = s.pFeedback := rfl
@[simp] theorem stepUpdated_pDelay (s : State) : (stepUpdated s).pDelay = s.pDelay := rfl
@[simp] theorem stepUpdated_srate (s : State) : (stepUpdated s).srate = s.srate := rfl
@[simp] theorem stepUpdated_dlLen (s : State) : (stepUpdated s).dlLen = s.dlLen := rfl
@[simp] theorem stepUpdated_cursor (s : State) : (stepUpdated s).cursor = s.cursor := rfl
@[simp] theorem stepUpdated_baseDelay (s : State) : (stepUpdated s).baseDelay = s.baseDelay := rfl
@[simp] theorem stepUpdated_depthS (s : State) : (stepUpdated s).depthS = s.depthS := rfl
@[simp] theorem stepUpdated_feedbackRt (s : State) : (stepUpdated s).feedbackRt = s.feedbackRt := rfl
@[simp] theorem stepUpdated_cycleLen (s : State) : (stepUpdated s).cycleLen = s.cycleLen := rfl
@[simp] theorem stepUpdated_lfoScale (s : State) : (stepUpdated s).lfoScale = s.lfoScale := rfl
@[simp] theorem stepUpdated_phaseOff (s : State) : (stepUpdated s).phaseOff = s.phaseOff := rfl
@[simp] theorem stepUpdated_waveRt (s : State) : (stepUpdated s).waveRt = s.waveRt := rfl
@[simp] theorem stepUpdated_gainIn0 (s : State) : (stepUpdated s).gainIn0 = s.gainIn0 := rfl
@[simp] theorem stepUpdated_gainIn1 (s : State) : (stepUpdated s).gainIn1 = s.gainIn1 := rfl
@[simp] theorem stepUpdated_gainRt0 (s : State) : (stepUpdated s).gainRt0 = s.gainRt0 := rfl
@[simp] theorem stepUpdated_gainRt1 (s : State) : (stepUpdated s).gainRt1 = s.gainRt1 := rfl
@[simp] theorem stepUpdated_mem (s : State) : (stepUpdated s).mem = s.mem := rfl
@[simp] theorem stepUpdated_host (s : State) : (stepUpdated s).host = s.host := rfl
@[simp] theorem stepUpdated_readLog (s : State) : (stepUpdated s).readLog = s.readLog := rfl

/-! ### UPDATE's choice of LFO coefficients (R125 to R128) -/

theorem stepLfo_of_rate {s : State} (h : flt posZero s.pRate = true) :
    stepLfo s = stepPhaseOff (stepScale (stepCycle s)) := by simp [stepLfo, h]

theorem stepLfo_of_no_rate {s : State} (h : flt posZero s.pRate = false) : stepLfo s = lfoDisabled s := by
  simp [stepLfo, h]

/-- stepLfo writes CYCLE_LEN, LFO_SCALE and PHASE_OFF and nothing else. -/
theorem stepLfo_frame (s : State) :
    stepLfo s = { s with cycleLen := (stepLfo s).cycleLen, lfoScale := (stepLfo s).lfoScale,
                         phaseOff := (stepLfo s).phaseOff } := by
  cases h : flt posZero s.pRate
  · rw [stepLfo_of_no_rate h]; rfl
  · simp [stepLfo_of_rate h, stepPhaseOff, stepScale, stepCycle]

/-! ### resize (R113), said once -/

theorem resize_eq_none_iff {n : Nat} {s : State} : resize n s = none ↔ s.params.dlCap < nextPow2 n := by
  unfold resize; split <;> simp_all

theorem resize_eq_some_iff {n : Nat} {s t : State} :
    resize n s = some t ↔ nextPow2 n ≤ s.params.dlCap ∧
      t = { s with dlLen := BitVec.ofNat 32 (nextPow2 n), mem := clearDl (2 * nextPow2 n) s.mem } := by
  unfold resize
  split
  · next h => exact ⟨fun e => by simp at e, fun e => absurd e.1 (by omega)⟩
  · next h =>
    simp only [Option.some.injEq]
    exact ⟨fun e => ⟨by omega, e.symm⟩, fun e => e.2.symm⟩

/-! ### The four common outcomes, each command said once -/

/-- What DEVCHG can do (R115, R116): it always answers a next state, of three forms. -/
theorem execDevchg_cases (s : State) :
    (legalSampleRate s.arg = false ∧ execDevchg s = .next (devchgFail .invalidValue s)) ∨
    (legalSampleRate s.arg = true ∧ requiredLength s.arg = s.dlLen.toNat ∧ execDevchg s = .next (devchgDone s)) ∨
    (legalSampleRate s.arg = true ∧ requiredLength s.arg ≠ s.dlLen.toNat ∧
      s.params.dlCap < nextPow2 (requiredLength s.arg) ∧ execDevchg s = .next (devchgFail .allocFail s)) ∨
    (∃ t, legalSampleRate s.arg = true ∧ requiredLength s.arg ≠ s.dlLen.toNat ∧
      resize (requiredLength s.arg) s = some t ∧ execDevchg s = .next (devchgDone t)) := by
  unfold execDevchg
  cases hl : legalSampleRate s.arg
  · exact Or.inl ⟨rfl, rfl⟩
  · by_cases hr : requiredLength s.arg = s.dlLen.toNat
    · exact Or.inr (Or.inl ⟨rfl, hr, by simp [hr]⟩)
    · cases hz : resize (requiredLength s.arg) s with
      | none => exact Or.inr (Or.inr (Or.inl ⟨rfl, hr, resize_eq_none_iff.1 hz, by simp [hr]⟩))
      | some t => exact Or.inr (Or.inr (Or.inr ⟨t, rfl, hr, rfl, by simp [hr]⟩))

/-- What UPDATE can do (R120). -/
theorem execUpdate_cases (s : State) :
    (s.status.configured = false ∧ execUpdate s = .next (raise .notReady s)) ∨
    (s.status.configured = true ∧ execUpdate s = .next (translate s)) := by
  unfold execUpdate
  cases s.status.configured <;> simp

/-- What a SETP can do (R190). -/
theorem setParam_cases (legal : Word → Bool) (store : Word → State → State) (s : State) :
    (legal s.arg = false ∧ setParam legal store s = .next (raise .invalidValue s)) ∨
    (legal s.arg = true ∧ setParam legal store s = .next (succeed (store s.arg s))) := by
  unfold setParam
  cases legal s.arg <;> simp

/-- What PROCESS can do (R160): two errors, a run, or a fault that names a buffer word. -/
theorem execProcess_cases (n nch : Nat) (s : State) :
    (legalBlock s.params n nch = false ∧ execProcess n nch s = .next (raise .invalidValue s)) ∨
    (legalBlock s.params n nch = true ∧ ready s = false ∧ execProcess n nch s = .next (raise .notReady s)) ∨
    (legalBlock s.params n nch = true ∧ ready s = true ∧
      ((∃ wk, runSubBlocks s nch (subBlocks n) { mem := s.mem, cursor := s.cursor } = .ok wk ∧
          execProcess n nch s = .next (succeed { s with mem := wk.mem, cursor := wk.cursor })) ∨
       (∃ f, runSubBlocks s nch (subBlocks n) { mem := s.mem, cursor := s.cursor } = .error f ∧
          execProcess n nch s = .fault f))) := by
  unfold execProcess
  cases legalBlock s.params n nch
  · exact Or.inl ⟨rfl, rfl⟩
  · cases ready s
    · exact Or.inr (Or.inl ⟨rfl, rfl, rfl⟩)
    · cases hr : runSubBlocks s nch (subBlocks n) { mem := s.mem, cursor := s.cursor } with
      | ok wk => exact Or.inr (Or.inr ⟨rfl, rfl, Or.inl ⟨wk, rfl, by simp⟩⟩)
      | error f => exact Or.inr (Or.inr ⟨rfl, rfl, Or.inr ⟨f, rfl, by simp⟩⟩)

end Sys2Proof.Machine
end

