-- ==== Sys2Proof/Laws/Step.lean ====
section
/-!
SUPPORT. What a step can do, said once: an idle core, a read, a stored word, a command, a refused command word, or
one of the three undefined accesses; and what stands at the addresses of the map (20_memory.md R61).
-/
namespace Sys2Proof.Machine

theorem accessFault_eq_none_iff {width : Width} {a : Nat} :
    accessFault width a = none ↔ width = .word ∧ a % 4 = 0 ∧ a < 0x80000 := by
  unfold accessFault busEnd
  cases width <;> (simp; try split_ifs) <;> simp_all

/-- The core accepts an access that R66 defines. -/
theorem accessFault_aligned {a : Nat} (h4 : a % 4 = 0) (h : a < 0x80000) : accessFault .word a = none :=
  accessFault_eq_none_iff.2 ⟨rfl, h4, h⟩

/-- A step whose access is an accepted read. -/
theorem step_read {s : State} {a : Nat} {rest : List BusAccess} (hh : s.host = .read .word a :: rest)
    (h4 : a % 4 = 0) (h : a < 0x80000) :
    step s = .next { s with
      host := rest
      readLog := readTarget { s with host := rest } (targetOf s.params a) :: s.readLog } := by
  simp only [step, hostStep, hh, perform, accessFault_aligned h4 h, busRead]

/-- A step whose access is an accepted write. -/
theorem step_write {s : State} {a : Nat} {w : Word} {rest : List BusAccess} (hh : s.host = .write .word a w :: rest)
    (h4 : a % 4 = 0) (h : a < 0x80000) : step s = busWrite a w { s with host := rest } := by
  simp only [step, hostStep, hh, perform, accessFault_aligned h4 h]

/-- A step whose access writes CMD. -/
theorem step_command {s : State} {w : Word} {rest : List BusAccess} (hh : s.host = .write .word 0 w :: rest) :
    step s = runCommand w { s with host := rest } := by
  rw [step_write hh (by norm_num) (by norm_num)]; rfl

/-- A step whose access writes a word that is not CMD. -/
theorem step_store {s : State} {a : Nat} {w : Word} {rest : List BusAccess} (hh : s.host = .write .word a w :: rest)
    (h4 : a % 4 = 0) (h : a < 0x80000) (hc : targetOf s.params a ≠ .cmd) :
    step s = .next (storeTarget w { s with host := rest } (targetOf s.params a)) := by
  rw [step_write hh h4 h]
  unfold busWrite
  exact if_neg hc

/-- What a write to CMD can do (R86). -/
theorem runCommand_cases (w : Word) (s : State) :
    (∃ i, decode w = .ok i ∧ runCommand w s = exec i s) ∨
    (decode w = .error .illegalCommand ∧ runCommand w s = .next (raise .illegalCommand s)) ∨
    (decode w = .error .invalidEnum ∧ runCommand w s = .next (raise .invalidEnum s)) := by
  unfold runCommand
  rcases h : decode w with e | i
  · cases e
    · exact .inr (.inl ⟨rfl, rfl⟩)
    · exact .inr (.inr ⟨rfl, rfl⟩)
  · exact .inl ⟨i, rfl, rfl⟩

/-- What storing a host's word at a target does to a state: ARG, one gain entry, one IN or OUT word, or nothing. -/
inductive Stored (w : Word) (s : State) (tg : Target) : State → Prop
  | ignored : Stored w s tg s
  | toArg : Stored w s tg { s with arg := w }
  | toGain0 (c : Nat) : Stored w s tg { s with gainIn0 := s.gainIn0.setIfInBounds c w }
  | toGain1 (c : Nat) : Stored w s tg { s with gainIn1 := s.gainIn1.setIfInBounds c w }
  | toIn (i : Nat) (h : tg = .inWord i) : Stored w s tg { s with mem := putWord (inAddr i) w s.mem }
  | toOut (c i : Nat) (h : tg = .outWord c i) : Stored w s tg { s with mem := putWord (outAddr c i) w s.mem }

theorem storeTarget_stored (w : Word) (s : State) (tg : Target) : Stored w s tg (storeTarget w s tg) := by
  cases tg with
  | arg => exact .toArg
  | gainIn line c =>
    rw [storeTarget]
    split
    · exact .toGain0 c
    · exact .toGain1 c
  | inWord i => exact .toIn i rfl
  | outWord c i => exact .toOut c i rfl
  | cmd | status | run _ | gainRt _ _ | dlWord _ | reserved => exact .ignored

/-- Everything a step that answers a next state can have done: nothing, the host's next access being none; a read; a
stored word; a command or a refused
command word. `rest` is what the host has still to do. -/
inductive StepDid (s : State) : State → Prop
  | idle (h : s.host = []) : StepDid s s
  | read (rest : List BusAccess) (x : Word) : StepDid s { s with host := rest, readLog := x :: s.readLog }
  | store (rest : List BusAccess) (a : Nat) (w : Word) (t : State)
      (h : Stored w { s with host := rest } (targetOf s.params a) t) : StepDid s t
  | command (rest : List BusAccess) (i : Instr) (t : State) (h : exec i { s with host := rest } = .next t) :
      StepDid s t
  | refused (rest : List BusAccess) (code : ErrCode) : StepDid s (raise code { s with host := rest })

theorem step_did {s t : State} (h : step s = .next t) : StepDid s t := by
  unfold step hostStep at h
  split at h
  · next hh => cases h; exact .idle hh
  · next acc rest hh =>
    cases acc with
    | read width a =>
      simp only [perform, busRead] at h
      split at h
      · cases h
      · cases h; exact .read rest _
    | write width a w =>
      simp only [perform, busWrite] at h
      split at h
      · cases h
      · split at h
        · rcases runCommand_cases w { s with host := rest } with ⟨i, _, e⟩ | ⟨_, e⟩ | ⟨_, e⟩ <;> rw [e] at h
          · exact .command rest i t h
          · cases h; exact .refused rest _
          · cases h; exact .refused rest _
        · cases h; exact .store rest a w _ (storeTarget_stored _ _ _)

/-! ### The address map (R61) -/

theorem targetOf_cmd (p : Params) : targetOf p 0 = .cmd := rfl

theorem targetOf_gainIn {p : Params} {line c : Nat} (hl : line < 2) (hc : c < p.nchMax.val) :
    targetOf p (0x0080 + 0x40 * line + 4 * c) = .gainIn line c := by
  have := p.nchMax.isLt
  unfold targetOf
  split_ifs <;> first | omega | (congr 1 <;> omega)

theorem targetOf_gainRt {p : Params} {line c : Nat} (hl : line < 2) (hc : c < p.nchMax.val) :
    targetOf p (0x0100 + 0x40 * line + 4 * c) = .gainRt line c := by
  have := p.nchMax.isLt
  unfold targetOf
  split_ifs <;> first | omega | (congr 1 <;> omega)

theorem targetOf_inWord {p : Params} {i : Nat} (hi : i < p.maxBlock.val) :
    targetOf p (0x1000 + 4 * i) = .inWord i := by
  have := p.maxBlock.isLt
  unfold targetOf inBase outBase
  split_ifs <;> first | omega | (congr 1; omega)

theorem targetOf_outWord {p : Params} {c i : Nat} (hc : c < p.nchMax.val) (hi : i < p.maxBlock.val) :
    targetOf p (0x4000 + 0x2000 * c + 4 * i) = .outWord c i := by
  have := p.maxBlock.isLt
  have := p.nchMax.isLt
  unfold targetOf inBase outBase
  split_ifs <;> first | omega | (congr 1 <;> omega)

theorem targetOf_dlWord {p : Params} {k : Nat} : targetOf p (0x40000 + 4 * k) = .dlWord k := by
  unfold targetOf inBase outBase dlBase
  split_ifs <;> first | omega | (congr 1; omega)

/-- The words of a window past its last implemented entry are reserved (R61). -/
theorem targetOf_past_gain {p : Params} {base line c : Nat} (hb : base = 0x0080 ∨ base = 0x0100) (hl : line < 2)
    (hc : p.nchMax.val ≤ c) (hc' : c < 16) : targetOf p (base + 0x40 * line + 4 * c) = .reserved := by
  unfold targetOf inBase
  split_ifs <;> first | omega | rfl

theorem targetOf_past_out {p : Params} {c i : Nat} (hc : c < 16) (hi : i < 2048)
    (h : p.nchMax.val ≤ c ∨ p.maxBlock.val ≤ i) : targetOf p (0x4000 + 0x2000 * c + 4 * i) = .reserved := by
  unfold targetOf inBase outBase dlBase
  split_ifs <;> first | omega | rfl

/-- A target names a buffer word only inside its window, and only an implemented one. -/
theorem targetOf_inWord_bound {p : Params} {a i : Nat} (h : targetOf p a = .inWord i) : i < p.maxBlock.val := by
  unfold targetOf at h
  split_ifs at h <;> first | (cases h; assumption) | cases h | skip
  all_goals (unfold lowTarget at h; split at h <;> cases h)

theorem targetOf_outWord_bound {p : Params} {a c i : Nat} (h : targetOf p a = .outWord c i) :
    c < p.nchMax.val ∧ i < p.maxBlock.val := by
  unfold targetOf at h
  split_ifs at h <;> first | (cases h; assumption) | cases h | skip
  all_goals (unfold lowTarget at h; split at h <;> cases h)

end Sys2Proof.Machine
end

