-- ==== Sys2Proof/Machine/AssemblerText.lean ====
section
/-!
DEFINITION. The text of the host's assembly language (30_encoding.md R90, R91): lines of characters to statements. The
rules give no formal grammar; what is read more widely than their tables show is in notes/assumptions/16.md.
-/
namespace Sys2Proof.Machine

/-- A token is a list of characters in lower case (R90: names are case-insensitive). -/
abbrev Token := List Char

/-- The token is this word, written in lower case. -/
def tokenIs (t : Token) (word : String) : Bool := t == word.toList

/-- Spaces, tabs, carriage returns and commas stand between tokens. -/
def isGap (c : Char) : Bool := c == ' ' || c == ',' || c == '\t' || c == '\r'

/-- The pieces of a text between the characters that `cut` names. -/
def splitText (cut : Char → Bool) : List Char → List (List Char)
  | [] => [[]]
  | c :: cs =>
    match splitText cut cs with
    | [] => [[]]
    | piece :: more => if cut c then [] :: piece :: more else (c :: piece) :: more

/-- The tokens of a line: the comment from `;` on dropped, upper case read as lower (R90). -/
def tokensOf (line : List Char) : List Token :=
  (splitText isGap ((line.takeWhile fun c => c != ';').map Char.toLower)).filter fun t => !t.isEmpty

/-- The value of a hexadecimal digit in lower case. -/
def digitValue (c : Char) : Nat :=
  if c.toNat < 58 then c.toNat - 48 else c.toNat - 87

/-- The character is a digit in this base, 10 or 16. -/
def isDigitIn (base : Nat) (c : Char) : Bool :=
  (decide (48 ≤ c.toNat) && decide (c.toNat < 58)) ||
    (decide (base = 16) && decide (97 ≤ c.toNat) && decide (c.toNat < 103))

/-- A string of digits, at least one. -/
def digitsValue (base : Nat) (t : Token) : Option Nat :=
  if t.isEmpty || !t.all (isDigitIn base) then none
  else some (t.foldl (fun acc c => acc * base + digitValue c) 0)

/-- A number without a sign: decimal, or hexadecimal after `0x` (R90). -/
def parseNat : Token → Option Nat
  | '0' :: 'x' :: ds => digitsValue 16 ds
  | t => digitsValue 10 t

/-- A number with an optional minus sign (R90). -/
def parseInt : Token → Option Int
  | '-' :: t => (digitsValue 10 t).map fun n => -(n : Int)
  | t => (parseNat t).map fun n => (n : Int)

/-- A real number without a sign, as a fraction: digits, then optionally a point and digits. -/
def parseMagnitude (t : Token) : Option (Nat × Nat) :=
  match splitText (fun c => c == '.') t with
  | [whole] => (digitsValue 10 whole).map fun n => (n, 1)
  | [whole, frac] =>
    match digitsValue 10 whole, digitsValue 10 frac with
    | some n, some d => some (n * 10 ^ frac.length + d, 10 ^ frac.length)
    | _, _ => none
  | _ => none

/-- A power of ten: digits with an optional sign. -/
def parseExponent : Token → Option Int
  | '+' :: t => (digitsValue 10 t).map fun n => (n : Int)
  | t => parseInt t

/-- A real number without a sign, with an optional exponent part. -/
def parseScaled (t : Token) : Option (Nat × Nat) :=
  match splitText (fun c => c == 'e') t with
  | [m] => parseMagnitude m
  | [m, e] =>
    match parseMagnitude m, parseExponent e with
    | some (n, d), some k => if k < 0 then some (n, d * 10 ^ k.natAbs) else some (n * 10 ^ k.natAbs, d)
    | _, _ => none
  | _ => none

/-- A real literal (R90, R91), kept as its sign and exact fraction. -/
def parseReal : Token → Option Literal
  | '-' :: t => (parseScaled t).map fun q => .f true q.1 q.2
  | t => (parseScaled t).map fun q => .f false q.1 q.2

/-- A word operand: a number, or `f:` and a real literal (R90). -/
def parseWord : Token → Option Literal
  | 'f' :: ':' :: t => parseReal t
  | t => (parseInt t).map Literal.int

/-- The register names of R90, with their lower-case spelling. -/
def regNames : List (String × RegName) :=
  [("cmd", .cmd), ("arg", .arg), ("status", .status), ("srate", .run .srate), ("dl_len", .run .dlLen),
    ("cursor", .run .cursor), ("base_delay", .run .baseDelay), ("depth_s", .run .depthS)] ++
  [("feedback_rt", .run .feedbackRt), ("cycle_len", .run .cycleLen), ("lfo_scale", .run .lfoScale),
    ("phase_off", .run .phaseOff), ("wave_rt", .run .waveRt)]

/-- An address operand: a register name or a number (R90). -/
def parseAddr (t : Token) : Option Nat :=
  match regNames.find? fun r => tokenIs t r.1 with
  | some r => some (regAddr r.2)
  | none => parseNat t

/-- The parameter names of R90. -/
def paramNames : List (String × ParamName) :=
  [("waveform", .waveform), ("phase", .phase), ("rate", .rate), ("depth", .depth), ("feedback", .feedback),
    ("delay", .delay)]

/-- A parameter by its name. -/
def parseParam (t : Token) : Option ParamName := (paramNames.find? fun p => tokenIs t p.1).map Prod.snd

/-- The parameter of a `setp.` mnemonic. -/
def setpName (t : Token) : Option ParamName := if tokenIs (t.take 5) "setp." then parseParam (t.drop 5) else none

/-- The parameter of a `getp.` mnemonic. -/
def getpName (t : Token) : Option ParamName := if tokenIs (t.take 5) "getp." then parseParam (t.drop 5) else none

/-- The value of a `setp.<p>` statement by its parameter (R91). -/
def parseValue (p : ParamName) (v : Token) : Option Literal :=
  match p with
  | .waveform => if tokenIs v "sinusoid" then some (.int 0) else if tokenIs v "triangle" then some (.int 1) else none
  | .phase => (parseInt v).map Literal.int
  | .rate | .depth | .feedback | .delay => parseReal v

/-- A statement of one token: a command word with no operand (R90). -/
def parseAlone (m : Token) : Option Stmt :=
  if tokenIs m "reset" then some (.command .reset)
  else if tokenIs m "release" then some (.command .release)
  else if tokenIs m "devchg" then some (.command .devchg)
  else if tokenIs m "update" then some (.command .update)
  else match setpName m, getpName m with
    | some p, _ => some (.command (setpOf p))
    | none, some p => some (.command (getpOf p))
    | none, none => none

/-- A statement with one operand (R90, R91). -/
def parseOne (m a : Token) : Option Stmt :=
  if tokenIs m "rd" then (parseAddr a).map Stmt.rd
  else if tokenIs m "devchg" then (parseInt a).map fun z => .devchgAt (.int z)
  else if tokenIs m "clrin" then (parseNat a).map Stmt.clrin
  else match setpName m with
    | some p => (parseValue p a).map (Stmt.setpTo p)
    | none => none

/-- The statement of two operands that were both read. -/
def bothRead {α β : Type} (f : α → β → Stmt) : Option α → Option β → Option Stmt
  | some x, some y => some (f x y)
  | _, _ => none

/-- `process <n>, <nch>`, whose operands must fit their fields (R80, R90). -/
def parseProcess (a b : Token) : Option Stmt :=
  match parseNat a, parseNat b with
  | some n, some nch => if WellFormed (.process n nch) then some (.command (.process n nch)) else none
  | _, _ => none

/-- A statement with two operands (R90, R91). -/
def parseTwo (m a b : Token) : Option Stmt :=
  if tokenIs m "process" then parseProcess a b
  else if tokenIs m "wr" then bothRead Stmt.wr (parseAddr a) (parseWord b)
  else if tokenIs m "in" then bothRead Stmt.inSample (parseNat a) (parseReal b)
  else if tokenIs m "clrout" then bothRead Stmt.clrout (parseNat a) (parseNat b)
  else none

/-- A statement with three operands (R91). -/
def parseThree (m a b v : Token) : Option Stmt :=
  match parseNat a, parseNat b, parseReal v with
  | some x, some y, some r =>
    if tokenIs m "gain" then some (.gain x y r) else if tokenIs m "out" then some (.outSample x y r) else none
  | _, _, _ => none

/-- A statement that names the word it reads, without its name (R91). -/
def parseNamed : List Token → Option Stmt
  | [m] => (getpName m).map Stmt.getpFrom
  | [m, a] => if tokenIs m "rddl" then (parseNat a).map Stmt.rddl else none
  | [m, a, b] => if tokenIs m "rdout" then bothRead Stmt.rdout (parseNat a) (parseNat b) else none
  | _ => none

/-- A statement that names nothing. -/
def parsePlain : List Token → Option Stmt
  | [m] => parseAlone m
  | [m, a] => parseOne m a
  | [m, a, b] => parseTwo m a b
  | [m, a, b, v] => parseThree m a b v
  | _ => none

/-- The statement of a line's tokens: `-> <name>` closes one that names the word it reads (R91). -/
def parseTokens (ts : List Token) : Option Stmt :=
  match ts.dropWhile fun t => !tokenIs t "->" with
  | [] => parsePlain ts
  | [_, _] => parseNamed (ts.takeWhile fun t => !tokenIs t "->")
  | _ => none

/-- The statements of a line: none for a blank line or a comment (R90: one statement per line). -/
def parseLine (line : List Char) : Option (List Stmt) :=
  match tokensOf line with
  | [] => some []
  | t :: ts => (parseTokens (t :: ts)).map fun st => [st]

/-- The statements of a list of lines, if every line is one. -/
def parseLines : List (List Char) → Option (List Stmt)
  | [] => some []
  | l :: ls =>
    match parseLine l, parseLines ls with
    | some a, some b => some (a ++ b)
    | _, _ => none

/-- A host program from its text (R90). -/
def parseProgram (text : String) : Option (List Stmt) := parseLines (splitText (fun c => c == '\n') text.toList)

end Sys2Proof.Machine
end

