-- ==== Sys2Proof/Tests/Slice0.lean ====
section
/-!
SUPPORT. Tests: the checks of WellFormed, words written out from 30_encoding.md, vectors of 95_test_vectors.md (the
comment of each test names its vector), and for each statement with hypotheses a witness that they can be met. The
expected values come from spec/.
-/
namespace Sys2Proof.Tests

open Sys2Proof.Machine Sys2Proof.Safety

set_option Elab.async false

/-! ### Small states -/

/-- Power-on with a word in ARG. -/
def withArg (v : Word) : State := { State.reset with arg := v }

/-- Power-on with the delay-line RAM of section 2.2's V-D12: DL_CAP = 1024. -/
def smallRam : State := { State.reset with params := { Params.standard with dlCapLog := 10 } }

/-- Power-on, then a DEVCHG at a rate whose required length is `len`. -/
def configuredAt (rate len : Nat) : State :=
  { State.reset with
    srate := BitVec.ofNat 32 rate
    dlLen := BitVec.ofNat 32 len
    status := { err := .ok, configured := true, updated := false, cfgFailed := false } }

/-- The state a step or a command leads to. -/
def next (o : Host.Outcome State Fault Refusal) : Option State :=
  match o with
  | .next s => some s
  | .fault _ => none
  | .refused _ => none

/-- A field of the next state. -/
def see {α : Type} (f : State → α) (o : Host.Outcome State Fault Refusal) : Option α := (next o).map f

/-- The host is about to make one access. -/
def hostDoes (acc : BusAccess) (s : State) : State := { s with host := [acc] }

/-- STATUS and ARG after the host writes a command word to CMD, ARG being 0x12345678 (section 2.1). -/
def statusAndArg (w : Word) : Option (Word × Word) :=
  see (fun t => (statusWord t.status, t.arg)) (step (hostDoes (.write .word 0 w) (withArg 0x12345678#32)))

/-- The seven registers UPDATE writes, in the order of section 2.3's table. -/
def coefficients (s : State) : List Word :=
  [s.baseDelay, s.depthS, s.feedbackRt, s.cycleLen, s.lfoScale, s.phaseOff, s.waveRt]

/-- State U9: 8000 Hz, rate 10.0, depth 1.0, phase 90. -/
def beforeU9 : State :=
  { configuredAt 8000 512 with pRate := 0x41200000#32, pDepth := 0x3F800000#32, pPhase := 90#32 }

/-- State U19 before UPDATE, with V-P2's gains and buffers. -/
def beforeU19 : State :=
  { configuredAt 15999 512 with
    pRate := 0x41200000#32
    pDepth := 0x3F800000#32
    pPhase := 180#32
    pFeedback := 0x3F000000#32
    gainIn0 := silentGains.set 0 0x3F800000#32
    gainIn1 := silentGains.set 0 0x3F800000#32
    mem := putWord (outAddr 0 0) 0#32 (putWord (inAddr 0) 0x3F800000#32 []) }

/-- State U19, ready for V-P2. -/
def atU19 : State := translate beforeU19

/-- A ready core of two-sample lines with one IN word and one OUT word written: d = 0 and wet = IN, gain 1.0. -/
def tinyReady : State :=
  { State.reset with
    dlLen := 2#32
    waveRt := 0#32
    feedbackRt := 0x3F800000#32
    gainRt0 := silentGains.set 0 0x3F800000#32
    status := { err := .ok, configured := true, updated := true, cfgFailed := false }
    mem := putWord (outAddr 0 0) 0#32 (putWord (inAddr 0) 0x3F800000#32 []) }

/-- Power-on of a chip with fewer words than the windows have room for: NCH_MAX = 2, MAX_BLOCK = 256. -/
def smallChip : State := { State.reset with params := { Params.standard with nchMax := 2, maxBlock := 256 } }

/-- A ready core with one OUT channel whose line 1 alone is audible, IN[0] and IN[1] written. -/
def lineOneAudible : State :=
  { tinyReady with
    gainRt0 := silentGains
    gainRt1 := silentGains.set 0 0x3F800000#32
    mem := putWord (outAddr 0 0) 0#32 (putWord (inAddr 1) 0#32 (putWord (inAddr 0) 0x3F800000#32 [])) }

/-! ### WellFormed -/

/-- R80: the largest operands the fields hold. -/
theorem test_process_largest_fields : WellFormed (.process 65535 255) := by decide

/-- R80: a sample count of 17 bits has no encoding. -/
theorem test_process_count_too_wide : ¬ WellFormed (.process 65536 0) := by decide

/-- R80: a channel count of 9 bits has no encoding. -/
theorem test_process_channels_too_wide : ¬ WellFormed (.process 0 256) := by decide

/-! ### Decoding: one word per command, from the table of R85 -/

theorem test_decode_reset : decode 0x10000000#32 = .ok .reset := by decide
theorem test_decode_release : decode 0x20000000#32 = .ok .release := by decide
theorem test_decode_devchg : decode 0x30000000#32 = .ok .devchg := by decide
theorem test_decode_update : decode 0x40000000#32 = .ok .update := by decide

/-- R87: OP 5, SEL 2, IMM 0x0100. -/
theorem test_decode_process : decode 0b01010000000000100000000100000000#32 = .ok (.process 256 2) := by decide

/-- Section 2.1: a channel count past NCH_MAX still decodes. -/
theorem test_decode_process_many_channels : decode 0x50FF0000#32 = .ok (.process 0 255) := by decide

theorem test_decode_setp_waveform : decode 0x60010000#32 = .ok .setpWaveform := by decide
theorem test_decode_setp_phase : decode 0x60020000#32 = .ok .setpPhase := by decide
theorem test_decode_setp_rate : decode 0x60030000#32 = .ok .setpRate := by decide
theorem test_decode_setp_depth : decode 0x60040000#32 = .ok .setpDepth := by decide
theorem test_decode_setp_feedback : decode 0x60050000#32 = .ok .setpFeedback := by decide
theorem test_decode_setp_delay : decode 0x60060000#32 = .ok .setpDelay := by decide
theorem test_decode_getp_waveform : decode 0x70010000#32 = .ok .getpWaveform := by decide
theorem test_decode_getp_phase : decode 0x70020000#32 = .ok .getpPhase := by decide
theorem test_decode_getp_rate : decode 0x70030000#32 = .ok .getpRate := by decide
theorem test_decode_getp_depth : decode 0x70040000#32 = .ok .getpDepth := by decide
theorem test_decode_getp_feedback : decode 0x70050000#32 = .ok .getpFeedback := by decide
theorem test_decode_getp_delay : decode 0x70060000#32 = .ok .getpDelay := by decide

/-- Section 2.1: the words refused as illegal. -/
theorem test_decode_illegal : [0x00000000#32, 0x10000001#32, 0x11000000#32, 0x1F000000#32, 0x20000100#32,
    0x30000001#32, 0x40010000#32, 0x5F000000#32, 0x60010001#32, 0x60000001#32, 0x61070000#32, 0x7F000000#32,
    0x80000000#32, 0xF0000000#32].all (fun w => decide (decode w = .error .illegalCommand)) = true := by decide

/-- Section 2.1: the words refused as unrecognized identifiers. -/
theorem test_decode_unknown_identifier :
    [0x60000000#32, 0x60070000#32, 0x60FF0000#32, 0x70000000#32].all
      (fun w => decide (decode w = .error .invalidEnum)) = true := by decide

/-- The table reader reads the PROCESS row with its free fields, and the next step runs that command. -/
theorem test_table_word : decodeTableWord 32 0x50020100 = some (.process 256 2) := by decide

/-- Section 2.1: STATUS and ARG after a command word. -/
theorem test_status_after_words :
    [0x00000000#32, 0x10000001#32, 0x60FF0000#32, 0x70000000#32, 0x50FF0000#32, 0x50110000#32, 0x50000801#32,
      0x50000FA0#32].map (fun w => (statusAndArg w).map Prod.fst) =
      [some 5#32, some 5#32, some 2#32, some 2#32, some 1#32, some 1#32, some 1#32, some 1#32] ∧
    statusAndArg 0x50100800#32 = some (4#32, 0x12345678#32) ∧
    statusAndArg 0x70060000#32 = some (0#32, 0x3C83126F#32) ∧
    statusAndArg 0x10000000#32 = some (0#32, 0#32) := by decide +kernel

/-- withFetchWord on the reset state: the next step runs the word. -/
theorem test_fetch_word_runs :
    see (fun t => (t.arg, t.host)) (step (State.reset.withFetchWord 32 0x70030000)) = some (0x3F8CCCCD#32, []) := by
  decide +kernel

/-! ### Disassembly and assembly -/

/-- Section 2.1, the listings. -/
theorem test_listings :
    listingText (disassemble 0x50020100#32) = "process 256, 2" ∧
    listingText (disassemble 0x50100080#32) = "process 128, 16" ∧
    listingText (disassemble 0x60070000#32) = "setp.?7" ∧ listingText (disassemble 0x70000000#32) = "getp.?0" ∧
    listingText (disassemble 0x11000000#32) = ".illegal 0x11000000" := by decide +kernel

/-- Statements of programs P2 to P4, with the accesses their comments give. -/
theorem test_assemble :
    (parseProgram "devchg 44100 ; rate\nsetp.phase -180\nsetp.depth -0.0\nSETP.Delay 0.008").map assemble =
      some [.write .word 4 0x0000AC44#32, .write .word 0 0x30000000#32, .write .word 4 0xFFFFFF4C#32,
        .write .word 0 0x60020000#32, .write .word 4 0x80000000#32, .write .word 0 0x60040000#32,
        .write .word 4 0x3C03126F#32, .write .word 0 0x60060000#32] ∧
    (parseProgram "gain 1, 1, 1.0\n\nin 1, -2.0\nprocess 4, 2\nrdout 1, 194 -> b").map assemble =
      some [.write .word 0x00C4 0x3F800000#32, .write .word 0x1004 0xC0000000#32, .write .word 0 0x50020004#32,
        .read .word 0x6308] ∧
    parseProgram "process 65536, 0" = none := by decide +kernel

/-! ### Lifecycle and device change -/

/-- V-D17 and the example of R100. -/
theorem test_reset : see (fun t => (statusWord t.status, t.pRate, t.dlLen)) (exec .reset atU19) =
    some (0#32, 0x3F8CCCCD#32, 0#32) := by decide +kernel

/-- V-D9: after `release` the rate stays. -/
theorem test_release : see (fun t => (statusWord t.status, t.srate, t.dlLen)) (exec .release (configuredAt 8000 512)) =
    some (0#32, 8000#32, 0#32) := by decide +kernel

/-- The example of R115, and V-D3: 192001 is refused. -/
theorem test_devchg :
    see (fun t => (statusWord t.status, t.dlLen, t.srate)) (exec .devchg (withArg 44100#32)) =
      some (0x00000100#32, 2048#32, 44100#32) ∧
    see (fun t => (statusWord t.status, t.dlLen, t.srate)) (exec .devchg (withArg 192001#32)) =
      some (0x00000401#32, 0#32, 0#32) := by decide +kernel

/-- V-D12 and V-D13: DL_CAP = 1024. -/
theorem test_devchg_small_ram :
    see (fun t => statusWord t.status) (exec .devchg { smallRam with arg := 44100#32 }) = some 0x00000403#32 ∧
    see (fun t => statusWord t.status) (exec .devchg { smallRam with arg := 500#32 }) = some 0x00000401#32 := by
  decide +kernel

/-- E1 and the table of R112. -/
theorem test_required_length : requiredLength 44100#32 = 2048 ∧ requiredLength 15999#32 = 512 ∧
    requiredLength 16000#32 = 1024 ∧ requiredLength 192000#32 = 8192 := by decide +kernel

/-! ### UPDATE and the LFO -/

/-- Rows U1 and U9. -/
theorem test_update :
    see coefficients (exec .update (configuredAt 44100 2048)) =
      some [706#32, 0x428D3333#32, 0x3E800000#32, 40091#32, 0x38D13D3B#32, 0#32, 1#32] ∧
    see coefficients (exec .update beforeU9) =
      some [128#32, 0x43000000#32, 0x3E800000#32, 800#32, 0x3BA3D70A#32, 200#32, 1#32] := by decide +kernel

/-- Rows U15 (rate -0.0, sinusoid) and U13 (the quotient is +inf). -/
theorem test_update_corners :
    see coefficients (exec .update { configuredAt 44100 2048 with pRate := 0x80000000#32, pWaveform := 0#32 }) =
      some [706#32, 0x428D3333#32, 0x3E800000#32, 1#32, 0#32, 0#32, 0#32] ∧
    see coefficients (exec .update { configuredAt 192000 8192 with pRate := 1#32 }) =
      some [3072#32, 0x4399999A#32, 0x3E800000#32, 2147483648#32, 0x31000000#32, 0#32, 1#32] := by decide +kernel

/-- V-L1: the triangle at C = 800. -/
theorem test_triangle :
    [0, 1, 2, 3, 100, 200, 400, 401, 600, 799].map
      (fun o => delayOf 0x43000000#32 128#32 (triangleWave 0x3BA3D70A#32 o)) =
    [0#32, 1#32, 1#32, 2#32, 64#32, 128#32, 256#32, 255#32, 128#32, 1#32] := by decide +kernel

/-- R144 with a sine of +1.0 and of -1.0: the delays base + roundI(ds) and base - roundI(ds) of V-L2. -/
theorem test_sinusoid :
    delayOf 0x43000000#32 128#32 (sineWave (fun _ => 0x3F800000#32) 0x3C00ADFD#32 200) = 256#32 ∧
    delayOf 0x43000000#32 128#32 (sineWave (fun _ => 0xBF800000#32) 0x3C00ADFD#32 600) = 0#32 := by decide +kernel

/-- V-L7: channel 0's counter restarts from the cursor. -/
theorem test_counter_restart :
    startCounter0 { State.reset with cycleLen := 40091#32 } 0xFFFFFFC0#32 = 18402 ∧
    startCounter0 { State.reset with cycleLen := 40091#32 } 64#32 = 64 := by decide +kernel

/-! ### Accessors: rows of section 2.4 -/

/-- ERR, 1 for a refused value, and the parameter after a SETP from reset. -/
def setpResult (i : Instr) (f : State → Word) (v : Word) : Option (Nat × Word) :=
  see (fun t => (errNumber t.status.err, f t)) (exec i (withArg v))

theorem test_setp_waveform : setpResult .setpWaveform State.pWaveform 0#32 = some (0, 0#32) ∧
    setpResult .setpWaveform State.pWaveform 0x80000001#32 = some (1, 1#32) := by decide +kernel
theorem test_setp_phase : setpResult .setpPhase State.pPhase 0xFFFFFF4C#32 = some (0, 0xFFFFFF4C#32) ∧
    setpResult .setpPhase State.pPhase 0x000000B5#32 = some (1, 0#32) := by decide +kernel
theorem test_setp_rate : setpResult .setpRate State.pRate 0x80000000#32 = some (0, 0x80000000#32) ∧
    setpResult .setpRate State.pRate 0x41200001#32 = some (1, 0x3F8CCCCD#32) := by decide +kernel
theorem test_setp_depth : setpResult .setpDepth State.pDepth 0x3F800000#32 = some (0, 0x3F800000#32) ∧
    setpResult .setpDepth State.pDepth 0x7FC00001#32 = some (1, 0x3DCCCCCD#32) := by decide +kernel
theorem test_setp_feedback : setpResult .setpFeedback State.pFeedback 0xBF800000#32 = some (0, 0xBF800000#32) ∧
    setpResult .setpFeedback State.pFeedback 0x40000000#32 = some (1, 0x3E800000#32) := by decide +kernel
theorem test_setp_delay : setpResult .setpDelay State.pDelay 0x3C03126F#32 = some (0, 0x3C03126F#32) ∧
    setpResult .setpDelay State.pDelay 0x3C831270#32 = some (1, 0x3C83126F#32) := by decide +kernel

/-- GETP from reset. -/
theorem test_getp : [Instr.getpWaveform, .getpPhase, .getpRate, .getpDepth, .getpFeedback, .getpDelay].map
      (fun i => see State.arg (exec i State.reset)) =
    [some 1#32, some 0#32, some 0x3F8CCCCD#32, some 0x3DCCCCCD#32, some 0x3E800000#32, some 0x3C83126F#32] := by
  decide +kernel

/-! ### PROCESS -/

/-- V-P2: both tap-aliasing cases in one sample. -/
theorem test_process_aliasing :
    see (fun t => (dlWindow t 0, dlWindow t 512, wordAt t.mem 0x4000)) (exec (.process 1 1) atU19) =
      some (0x3FC00000#32, 0x3FC00000#32, some 0x3F800000#32) ∧
    see (fun t => (t.cursor, statusWord t.status)) (exec (.process 1 1) atU19) = some (1#32, 0x00000300#32) := by
  decide +kernel

/-- V-P2 by the account of Safety that has no loop. -/
theorem test_account_aliasing :
    delayAt atU19 0 0 = 0#32 ∧ delayAt atU19 1 0 = 512#32 ∧ lineAfter atU19 0 1 0 = 0x3FC00000#32 ∧
    lineAfter atU19 1 1 0 = 0x3FC00000#32 ∧ wetAt atU19 1 0 = 0x3F000000#32 := by decide +kernel

/-- V-P7: the order of the two mixer terms shows. -/
theorem test_mixer_order : mixTerm 0x37800000#32 0x3F800000#32 (mixTerm 0xC3800000#32 0x3F800000#32 0x43800000#32) =
    0x37800000#32 := by decide +kernel

/-- V-P6: the threshold is strict, and a zero and a NaN are silent. -/
theorem test_silence : audible 0x3727C5AC#32 = false ∧ audible 0x3727C5AD#32 = true ∧
    audible 0x80000000#32 = false ∧ audible 0x7FC00000#32 = false := by decide +kernel

/-! ### Arithmetic -/

/-- R12's examples and the sums of V-P7. -/
theorem test_binary32 : roundInt 0x40200000#32 = 2 ∧ roundInt 0x40600000#32 = 4 ∧ roundInt 0xBF000000#32 = 0 ∧
    fadd (fadd 0x43800000#32 0xC3800000#32) 0x37800000#32 = 0x37800000#32 ∧
    fadd (fadd 0x43800000#32 0x37800000#32) 0xC3800000#32 = 0#32 := by decide +kernel

/-- The canonical NaN (R11), and E10's reason for the skip: an infinity times zero is one. -/
theorem test_nan : fmul 0x7F800000#32 0#32 = 0x7FC00000#32 ∧ fadd 0xFF800001#32 0#32 = 0x7FC00000#32 := by
  decide +kernel

/-! ### The bus -/

/-- R66: the three accesses with no step. -/
theorem test_bus_stops :
    step (hostDoes (.read .half 0) State.reset) = .fault .busWidth ∧
    step (hostDoes (.read .word 2) State.reset) = .fault .busMisaligned ∧
    step (hostDoes (.write .word 0x80000 0#32) State.reset) = .fault .busOutside := ⟨rfl, rfl, rfl⟩

/-- R61 and R67: a register, a reserved word and the last word of the DL window. -/
theorem test_bus_reads :
    see State.readLog (step (hostDoes (.read .word 0x0028) State.reset)) = some [1#32] ∧
    see State.readLog (step (hostDoes (.read .word 0x3FFC) State.reset)) = some [0#32] ∧
    see State.readLog (step (hostDoes (.read .word 0x7FFFC) State.reset)) = some [0#32] := by decide +kernel

/-- R102: PROCESS reads an IN word nothing has written. -/
theorem test_unwritten_in :
    exec (.process 1 0) { tinyReady with mem := [] } = .fault (.unwrittenIn 0) := rfl

/-! ### Witnesses: for each statement with hypotheses, a state and operands that meet them together -/

/-- Encoding: the fields at their greatest values. -/
theorem test_witness_encoding :
    WellFormed (.process 65535 255) ∧ WellFormed .getpDelay ∧
    decode 0x50FFFFFF#32 = .ok (.process 65535 255) := by decide

/-- IllegalWord by each of its lines, UnknownIdWord at both ends of each gap, and words that are neither. -/
theorem test_witness_words :
    IllegalWord 0#32 ∧ IllegalWord 0x80000000#32 ∧ IllegalWord 0x51000000#32 ∧ IllegalWord 0x10000001#32 ∧
    IllegalWord 0x40010000#32 ∧ IllegalWord 0x70010001#32 ∧
    UnknownIdWord 0x60000000#32 ∧ UnknownIdWord 0x60070000#32 ∧ UnknownIdWord 0x70FF0000#32 ∧
    ¬ IllegalWord 0x70060000#32 ∧ ¬ UnknownIdWord 0x70060000#32 := by
  refine ⟨?_, ?_, ?_, ?_, ?_, ?_, ?_, ?_, ?_, ?_, ?_⟩ <;>
    first | unfold IllegalWord; decide | unfold UnknownIdWord; decide

/-- A host about to write a valid word, an illegal word and an unknown identifier. -/
theorem test_witness_host_commands :
    (hostDoes (.write .word 0 0x40000000#32) State.reset).host = .write .word 0 0x40000000#32 :: [] ∧
    decode 0x40000000#32 = .ok .update ∧
    (hostDoes (.write .word 0 0x11000000#32) State.reset).host = .write .word 0 0x11000000#32 :: [] ∧
    IllegalWord 0x11000000#32 ∧
    (hostDoes (.write .word 0 0x60070000#32) State.reset).host = .write .word 0 0x60070000#32 :: [] ∧
    UnknownIdWord 0x60070000#32 := by
  unfold IllegalWord UnknownIdWord; decide +kernel

/-- Each of the three undefined accesses, as a read and as a write. -/
theorem test_witness_undefined_access :
    (hostDoes (.read .byte 0) State.reset).host = .read .byte 0 :: [] ∧ Width.byte ≠ .word ∧
    (hostDoes (.write .word 3 0#32) State.reset).host = .write .word 3 0#32 :: [] ∧ 3 % 4 ≠ 0 ∧
    (hostDoes (.read .word 0x80000) State.reset).host = .read .word 0x80000 :: [] ∧ 0x80000 ≤ 0x80000 := by
  decide +kernel

/-- Two reads of the last word of the window. -/
theorem test_witness_reads :
    ({ State.reset with host := [.read .word 0x7FFFC, .read .word 0x7FFFC] } : State).host =
      .read .word 0x7FFFC :: .read .word 0x7FFFC :: [] ∧ 0x7FFFC % 4 = 0 ∧ 0x7FFFC < 0x80000 := by decide +kernel

/-- The first and the last register of RegisterMapReads in a state whose host reads them. -/
theorem test_witness_register_map :
    (hostDoes (.read .word 0x0034) State.reset).waveRt = 1#32 ∧
    (hostDoes (.read .word 0x0034) State.reset).host = .read .word 0x0034 :: [] ∧
    (hostDoes (.read .word 0x0000) State.reset).host = .read .word 0x0000 :: [] := by decide +kernel

/-- The ends of the reserved ranges, and of the four ranges whose writes are ignored, with MAX_BLOCK 2048. -/
theorem test_witness_reserved :
    State.reset.params.maxBlock.val = 2048 ∧
    [0xC, 0x38, 0x7C, 0x180, 0xFFC, 0x3000, 0x3FFC, 0x24000, 0x3FFFC].all (fun a => decide (a % 4 = 0 ∧
      (a = 0xC ∨ (0x38 ≤ a ∧ a < 0x80) ∨ (0x180 ≤ a ∧ a < 0x1000) ∨ (0x1000 + 4 * 2048 ≤ a ∧ a < 0x4000) ∨
        (0x24000 ≤ a ∧ a < 0x40000)))) = true ∧
    [0x8, 0x7C, 0x100, 0xFFC, 0x3000, 0x3FFC, 0x24000, 0x7FFFC].all (fun a => decide (a % 4 = 0 ∧
      ((0x8 ≤ a ∧ a < 0x80) ∨ (0x100 ≤ a ∧ a < 0x1000) ∨ (0x1000 + 4 * 2048 ≤ a ∧ a < 0x4000) ∨
        (0x24000 ≤ a ∧ a < 0x80000)))) = true ∧
    (hostDoes (.read .word 0x3FFFC) State.reset).host = .read .word 0x3FFFC :: [] ∧
    (hostDoes (.write .word 0x7FFFC 7#32) State.reset).host = .write .word 0x7FFFC 7#32 :: [] := by decide +kernel

/-- The gain, IN and OUT words next to the implemented ones of a small chip, and the last of their windows. -/
theorem test_witness_past_last_entry :
    let p := smallChip.params
    pastLastEntry p 0x0088 ∧ pastLastEntry p 0x017C ∧ pastLastEntry p 0x1400 ∧ pastLastEntry p 0x6400 ∧
    pastLastEntry p 0x8000 ∧ pastLastEntry p 0x23FFC ∧ 0x8000 % 4 = 0 ∧
    (hostDoes (.read .word 0x8000) smallChip).host = .read .word 0x8000 :: [] ∧
    (hostDoes (.write .word 0x8000 7#32) smallChip).host = .write .word 0x8000 7#32 :: [] := by
  refine ⟨.inl ⟨0, 2, ?_⟩, .inl ⟨1, 15, ?_⟩, .inr (.inl ⟨256, ?_⟩), .inr (.inr ⟨1, 256, ?_⟩), .inr (.inr ⟨2, 0, ?_⟩),
    .inr (.inr ⟨15, 2047, ?_⟩), ?_⟩ <;> decide +kernel

/-- A small chip reads 0 at OUT[2][0], which it does not have (R61). -/
theorem test_past_last_entry_reads_zero :
    see State.readLog (step (hostDoes (.read .word 0x8000) smallChip)) = some [0#32] ∧
    see State.mem (step (hostDoes (.write .word 0x1400 7#32) smallChip)) = some [] := by decide +kernel

/-- A host writing ARG, then GAIN_IN[1][15] written and read and GAIN_RT[1][15] read, the last entries. -/
theorem test_witness_arg_and_gain :
    (hostDoes (.write .word 4 9#32) State.reset).host = .write .word 4 9#32 :: [] ∧
    15 < State.reset.params.nchMax.val ∧
    (hostDoes (.write .word 0xFC 9#32) State.reset).host = .write .word (0x0080 + 0x40 * 1 + 4 * 15) 9#32 :: [] ∧
    (hostDoes (.read .word 0xFC) State.reset).host = .read .word (0x0080 + 0x40 * 1 + 4 * 15) :: [] ∧
    (hostDoes (.read .word 0x17C) State.reset).host = .read .word (0x0100 + 0x40 * 1 + 4 * 15) :: [] := by
  decide +kernel

/-- IN[2047] and OUT[15][2047], the last words of their windows, written and then read back. -/
theorem test_witness_buffer_windows :
    2047 < State.reset.params.maxBlock.val ∧ 15 < State.reset.params.nchMax.val ∧
    memoryWf State.reset.mem = true ∧
    (hostDoes (.write .word 0x2FFC 9#32) State.reset).host = .write .word (0x1000 + 4 * 2047) 9#32 :: [] ∧
    wordAt (putWord 0x2FFC 9#32 []) (0x1000 + 4 * 2047) = some 9#32 ∧
    (hostDoes (.write .word 0x23FFC 9#32) State.reset).host =
      .write .word (0x4000 + 0x2000 * 15 + 4 * 2047) 9#32 :: [] ∧
    wordAt (putWord 0x23FFC 9#32 []) (0x4000 + 0x2000 * 15 + 4 * 2047) = some 9#32 := by decide +kernel

/-- DL window: the last word in use of a 512-sample line, the first that is not, the last of the window, and the
last sample of a channel. -/
theorem test_witness_dl_window :
    1023 < 2 * (configuredAt 8000 512).dlLen.toNat ∧ 1023 < 2 * (configuredAt 8000 512).params.dlCap ∧
    2 * (configuredAt 8000 512).dlLen.toNat ≤ 1024 ∧ 2 * (configuredAt 8000 512).params.dlCap ≤ 65535 ∧
    (hostDoes (.read .word (0x40000 + 4 * 1023)) (configuredAt 8000 512)).host =
      .read .word (0x40000 + 4 * 1023) :: [] ∧
    (hostDoes (.write .word 0x7FFFC 9#32) State.reset).host = .write .word (0x40000 + 4 * 65535) 9#32 :: [] ∧
    511 < (512#32).toNat ∧ (512#32).toNat = 2 ^ 9 := by decide +kernel

/-- A canonical memory that holds a word, and its highest byte. -/
theorem test_witness_bytes :
    memoryWf (putWord 0x1000 0x11223344#32 []) = true ∧
    wordAt (putWord 0x1000 0x11223344#32 []) 0x1000 = some 0x11223344#32 ∧
    byteAt (putWord 0x1000 0x11223344#32 []) (0x1000 + 3) = some 0x11#8 := by decide +kernel

/-- RELEASE: the greatest legal operands of a PROCESS after it. -/
theorem test_witness_release :
    see (fun t => (t.params.maxBlock.val, t.params.nchMax.val)) (exec .release State.reset) = some (2048, 16) := by
  decide +kernel

/-- A power of two not below 6145, and the ends of the legal rates. -/
theorem test_witness_next_pow2 :
    (PowerOfTwo 8192 ∧ 6145 ≤ 8192) ∧ legalSampleRate 8000#32 = true ∧ legalSampleRate 192000#32 = true :=
  ⟨⟨⟨13, by decide⟩, by decide⟩, by decide, by decide⟩

/-- The highest legal rate in ARG of a core with the default parameters. -/
theorem test_witness_legal_rates :
    legalSampleRate 192000#32 = true ∧ (withArg 192000#32).arg = 192000#32 ∧
    (withArg 192000#32).params = Params.standard := by decide

/-- A resize that just fails and one that just fits. -/
theorem test_witness_resize :
    State.reset.params.dlCap < nextPow2 8193 ∧ nextPow2 8192 ≤ State.reset.params.dlCap := by decide

/-- DEVCHG: the two rates next to the legal ones, a length the RAM lacks, the unchanged length and the greatest. -/
theorem test_witness_devchg :
    (withArg 7999#32).arg.toNat < 8000 ∧ 192000 < (withArg 192001#32).arg.toNat ∧
    (requiredLength 44100#32 ≠ smallRam.dlLen.toNat ∧ smallRam.params.dlCap < requiredLength 44100#32) ∧
    requiredLength 48000#32 = ({ configuredAt 44100 2048 with arg := 48000#32 } : State).dlLen.toNat ∧
    requiredLength 192000#32 ≤ (withArg 192000#32).params.dlCap := by decide +kernel

/-- UPDATE: not configured; configured with a positive rate; configured with -0.0. -/
theorem test_witness_update :
    State.reset.status.configured = false ∧
    ((configuredAt 44100 2048).status.configured = true ∧ flt 0#32 (configuredAt 44100 2048).pRate = true) ∧
    flt 0#32 ({ configuredAt 44100 2048 with pRate := 0x80000000#32 } : State).pRate = false ∧
    exec .update beforeU9 = .next (translate beforeU9) := ⟨rfl, by decide +kernel, by decide +kernel, rfl⟩

/-- The ends of the ranges of the delay, the rate, the LFO rate, the cycle length and the phase. -/
theorem test_witness_ranges :
    legalDelay 0x3C83126F#32 = true ∧ legalDelay 0x80000000#32 = true ∧ legalSampleRate 8000#32 = true ∧
    legalSampleRate 192000#32 = true ∧ legalRate 0x41200000#32 = true ∧ flt 0#32 0x41200000#32 = true ∧
    legalRate 1#32 = true ∧ flt 0#32 1#32 = true ∧ 800 ≤ (800#32).toNat ∧ (2147483648#32).toNat ≤ 2147483648 ∧
    legalPhase 0xFFFFFF4C#32 = true ∧ legalPhase 180#32 = true := by decide +kernel

/-- LFO: a counter that wraps and a cycle of one; the ends of the sine's domain; a cursor next to the wrap. -/
theorem test_witness_lfo :
    (799 < 800 ∧ (0 : Nat) < 1) ∧
    (fle 0#32 0#32 = true ∧ fle 0#32 0x40C99999#32 = true ∧ fle 0x40C99999#32 0x40C99999#32 = true) ∧
    (0xFFFFFFFE#32).toNat + State.reset.phaseOff.toNat + State.reset.cycleLen.toNat < 2 ^ 32 := by decide +kernel

/-- A disabled LFO with the depth of state U14 and a delay of each waveform. -/
theorem test_witness_disabled_lfo :
    (let s : State := { State.reset with baseDelay := 706#32, depthS := 0x428D3333#32 }
     s.cycleLen = 1#32 ∧ s.lfoScale = 0#32 ∧ fIsFinite s.depthS = true ∧ -2147483648 < roundInt s.depthS ∧
     roundInt s.depthS < 2147483648 ∧ s.waveRt = 1#32 ∧ 635#32 ∈ lfoRun s (startCounter0 s 0#32) 1) ∧
    (let s : State := { State.reset with baseDelay := 706#32, depthS := 0x428D3333#32, waveRt := 0#32 }
     s.waveRt = 0#32 ∧ 706#32 ∈ lfoRun s (startCounter1 s 0#32) 1) := by decide +kernel

/-- State U19 meets all the invariants, and its delay at channel 1 is DL_LEN. -/
theorem test_witness_delays :
    Inv { atU19 with mem := [] } ∧ atU19.status.updated = true ∧
    512#32 ∈ lfoRun { atU19 with mem := [] } (startCounter1 { atU19 with mem := [] } 0#32) 1 := by
  refine ⟨⟨Or.inr ⟨⟨9, by decide +kernel⟩, by decide +kernel⟩, ?_, ?_, ?_, ?_, ?_⟩, by decide +kernel,
    by decide +kernel⟩
  · unfold FlagInv; decide +kernel
  · unfold ParamInv; decide +kernel
  · unfold LfoInv; decide +kernel
  · exact ⟨rfl, fun c h => nomatch h⟩
  · unfold CoeffInv; decide +kernel

/-- PROCESS out of range, not ready by each flag, and with no sample; the state is ready and its words are written. -/
theorem test_witness_process_errors :
    State.reset.params.maxBlock.val < 2049 ∧ State.reset.params.nchMax.val < 17 ∧
    State.reset.status.configured = false ∧
    ((configuredAt 8000 512).status.configured = true ∧ (configuredAt 8000 512).status.updated = false) ∧
    (16 ≤ tinyReady.params.nchMax.val ∧ tinyReady.status.configured = true ∧ tinyReady.status.updated = true) := by
  decide +kernel

/-- PROCESS 1, 1 on the tiny ready core: its line, its words, its memory and its IN word. -/
theorem test_witness_process_completes :
    (1 ≤ tinyReady.params.maxBlock.val ∧ 1 ≤ tinyReady.params.nchMax.val ∧ tinyReady.status.configured = true ∧
      tinyReady.status.updated = true) ∧
    PowerOfTwo tinyReady.dlLen.toNat ∧ tinyReady.dlLen.toNat ≤ tinyReady.params.dlCap ∧
    processInputsWritten tinyReady 1 1 ∧ memoryWf tinyReady.mem = true ∧
    wordAt tinyReady.mem (inAddr 0) = some 0x3F800000#32 ∧ wordAt tinyReady.mem (outAddr 0 0) = some 0#32 := by
  refine ⟨by decide +kernel, ⟨1, by decide +kernel⟩, by decide +kernel, ⟨?_, ?_⟩, by decide +kernel,
    by decide +kernel, by decide +kernel⟩
  · intro i h
    obtain rfl : i = 0 := by omega
    decide +kernel
  · intro c i hc h _
    obtain rfl : i = 0 := by omega
    obtain rfl : c = 0 := by omega
    decide +kernel

/-- PROCESS answers a next state with ERR 0 on the tiny ready core, and with ERR 4 on a core that is not ready. -/
theorem test_witness_process_frame :
    see (fun t => errNumber t.status.err) (exec (.process 1 1) tinyReady) = some 0 ∧
    see (fun t => errNumber t.status.err) (exec (.process 1 1) State.reset) = some 4 := by decide +kernel

/-- PROCESS 2, 1 on a ready core with line 1 alone audible and OUT[0][1] unwritten, and PROCESS 3, 0 with IN[2]
unwritten, cannot have the words they need. -/
theorem test_witness_missing_words :
    PowerOfTwo lineOneAudible.dlLen.toNat ∧ lineOneAudible.dlLen.toNat ≤ lineOneAudible.params.dlCap ∧
    ¬ processInputsWritten lineOneAudible 2 1 ∧ ¬ processInputsWritten lineOneAudible 3 0 := by
  refine ⟨⟨1, by decide +kernel⟩, by decide +kernel, fun h => ?_, fun h => ?_⟩
  · exact absurd (h.2 0 1 (by omega) (by omega) (by decide +kernel)) (by decide +kernel)
  · exact absurd (h.1 2 (by omega)) (by decide +kernel)

/-- R102: those faults name the words. -/
theorem test_missing_words_named :
    exec (.process 2 1) lineOneAudible = .fault (.unwrittenOut 0 1) ∧
    exec (.process 3 0) lineOneAudible = .fault (.unwrittenIn 2) := ⟨rfl, rfl⟩

/-- A ready core whose IN[0] is unwritten, and one whose IN[0] is written and whose audible OUT[0][0] is not. -/
theorem test_witness_unwritten_words :
    wordAt ({ tinyReady with mem := [] } : State).mem (inAddr 0) = none ∧
    (let s : State := { tinyReady with mem := putWord (inAddr 0) 0x3F800000#32 [] }
     (wordAt s.mem (inAddr 0)).isSome = true ∧ audible (gainAt s.gainRt0 0) = true ∧
     wordAt s.mem (outAddr 0 0) = none) := by decide +kernel

/-- The last sub-block of 129 samples has one. -/
theorem test_witness_sub_blocks : 1 < (129 + 127) / 128 ∧ min 128 (129 - 128 * 1) = 1 := by decide

/-- Rounding: a finite result and another candidate, an overflow, and a tie of roundI. -/
theorem test_witness_rounding :
    (0 < 2 ∧ roundMag 3 2 < 0x7F800000 ∧ 1 < 0x7F800000 ∧ 1 ≠ roundMag 3 2) ∧
    (2 ^ 25 - 1) * 2 ^ 253 * 1 ≤ 2 * 2 ^ 277 ∧
    fIsFinite 0x40200000#32 = true ∧
    2 * |fValue 0x40200000#32 - roundInt 0x40200000#32 * 2 ^ 149| = 2 ^ 149 := by decide +kernel

/-- Finite operands with a sum and a difference that are not zero and a divisor that is not, and a NaN result. -/
theorem test_witness_operations :
    fIsFinite 0x3F800000#32 = true ∧ fIsFinite 0x40000000#32 = true ∧
    fValue 0x3F800000#32 + fValue 0x40000000#32 ≠ 0 ∧ fValue 0x3F800000#32 - fValue 0x40000000#32 ≠ 0 ∧
    fMag 0x40000000#32 ≠ 0 ∧ fIsNan (fmul 0x7F800000#32 0#32) = true ∧ fIsNan 0x7FC00001#32 = true := by decide +kernel

/-- A command that ends in an error and one that does not. -/
theorem test_witness_commands :
    see (fun t => errNumber t.status.err) (exec .devchg State.reset) = some 1 ∧
    see (fun t => errNumber t.status.err) (exec .getpRate State.reset) = some 0 := by decide +kernel

/-- A state that meets the invariants with a step to a next state: power-on, the host about to write ARG. -/
theorem test_witness_step_invariants :
    Inv (hostDoes (.write .word 4 9#32) State.reset) ∧
    step (hostDoes (.write .word 4 9#32) State.reset) = .next (withArg 9#32) := by
  refine ⟨⟨Or.inl rfl, ?_, ?_, ?_, ⟨rfl, fun c h => nomatch h⟩, ?_⟩, rfl⟩
  · unfold FlagInv; decide +kernel
  · unfold ParamInv; decide +kernel
  · unfold LfoInv; decide +kernel
  · unfold CoeffInv; decide +kernel

end Sys2Proof.Tests
end

section
/-!
SUPPORT. Proofs of the statements on 00_scope.md R11 and R12: rounding is to the nearest, ties to even, and every
operation rounds its exact result once.
-/
namespace Sys2Proof.Machine

/-! ### Nearest integer -/

/-- The error of `nearestEven` is at most half the denominator, and half of it only at an even result. -/
theorem nearestEven_error {num den : Nat} (hd : 0 < den) :
    2 * |(num : Int) - nearestEven num den * den| ≤ den ∧
      (2 * |(num : Int) - nearestEven num den * den| = den → nearestEven num den % 2 = 0) := by
  have hmod : num % den < den := Nat.mod_lt _ hd
  have hdiv : (num : Int) = (num / den : Nat) * (den : Int) + (num % den : Nat) := by
    exact_mod_cast (Nat.div_add_mod' num den).symm
  have hdown : |(num : Int) - (num / den : Nat) * den| = (num % den : Nat) := by
    rw [abs_of_nonneg (by omega)]; omega
  have hup : |(num : Int) - (num / den + 1 : Nat) * den| = den - (num % den : Nat) := by
    have hsucc : ((num / den + 1 : Nat) : Int) * den = (num / den : Nat) * den + den := by push_cast; ring
    rw [hsucc, abs_of_nonpos (by omega)]; omega
  unfold nearestEven
  split_ifs with hlow hhigh
  · rw [hdown]; omega
  · rw [hup]; omega
  · rcases Nat.mod_two_eq_zero_or_one (num / den) with heven | hodd
    · rw [heven, Nat.add_zero, hdown]; omega
    · rw [hodd, hup]; omega

/-- No other integer is nearer than `nearestEven`, and one as near leaves an even result. -/
theorem nearestEven_nearest {num den j : Nat} (hd : 0 < den) (hj : j ≠ nearestEven num den) :
    |(num : Int) - nearestEven num den * den| < |(num : Int) - j * den| ∨
      |(num : Int) - nearestEven num den * den| = |(num : Int) - j * den| ∧ nearestEven num den % 2 = 0 := by
  obtain ⟨herr, htie⟩ := nearestEven_error (num := num) hd
  generalize nearestEven num den = k at hj herr htie ⊢
  have hstep : (den : Int) ≤ |((j : Int) - k) * den| := by
    rw [abs_mul, Nat.abs_cast]
    exact le_mul_of_one_le_left (by positivity) (Int.one_le_abs (by omega))
  have htri : |((j : Int) - k) * den| ≤ |(num : Int) - k * den| + |(num : Int) - j * den| := by
    rw [show ((j : Int) - k) * den = ((num : Int) - k * den) - (num - j * den) by ring]
    exact abs_sub _ _
  omega

theorem nearestEven_error_le {num den : Nat} (hd : 0 < den) (j : Nat) :
    |(num : Int) - nearestEven num den * den| ≤ |(num : Int) - j * den| := by
  rcases eq_or_ne j (nearestEven num den) with rfl | hj
  · rfl
  · exact (nearestEven_nearest hd hj).elim le_of_lt fun h => h.1.le

/-- `nearestEven` is nearer than anything below a whole number of denominators that the numerator reaches. -/
theorem nearestEven_nearer_than_below {num den u j : Nat} (hd : 0 < den) (hu : u < j * den) (hj : j * den ≤ num) :
    |(num : Int) - nearestEven num den * den| < |(num : Int) - u| := by
  refine lt_of_le_of_lt (nearestEven_error_le hd j) ?_
  zify at hu hj
  rw [abs_of_nonneg (by omega), abs_of_nonneg (by omega)]
  omega

/-! ### Nearest magnitude -/

/-- Every magnitude is a multiple of a quantum, or it lies below the 24-bit counts of that quantum. -/
theorem unitsOfMag_multiple_or_lt (m s : Nat) :
    (∃ j, unitsOfMag m = j * 2 ^ s) ∨ 0 < s ∧ unitsOfMag m < 2 ^ 23 * 2 ^ s := by
  rcases Nat.eq_zero_or_pos s with rfl | hs
  · exact Or.inl ⟨unitsOfMag m, by simp⟩
  rcases mag_cases m with hm | ⟨t, r, rfl, h1, h2⟩
  · rw [unitsOfMag_small hm]
    exact Or.inr ⟨hs, lt_of_lt_of_le hm (Nat.le_mul_of_pos_right _ (by positivity))⟩
  · rw [unitsOfMag_scaled h1 h2]
    rcases Nat.lt_or_ge t s with hts | hst
    · refine Or.inr ⟨hs, ?_⟩
      calc r * 2 ^ t < 2 ^ 24 * 2 ^ t := Nat.mul_lt_mul_of_pos_right h2 (by positivity)
        _ = 2 ^ 23 * 2 ^ (t + 1) := by ring
        _ ≤ 2 ^ 23 * 2 ^ s := Nat.mul_le_mul_left _ (Nat.pow_le_pow_right (by omega) hts)
    · exact Or.inl ⟨r * 2 ^ (t - s), by rw [Nat.mul_assoc, ← pow_add, Nat.sub_add_cancel hst]⟩

/-- A fraction's count of quanta, once rounded, is at most 2^24, and at least 2^23 unless the quantum is one unit. -/
theorem roundedCount_bounds (num den : Nat) :
    nearestEven num (den * 2 ^ quantum num den) ≤ 2 ^ 24 ∧
      (0 < quantum num den → 2 ^ 23 ≤ nearestEven num (den * 2 ^ quantum num den)) := by
  obtain ⟨hlt, hge⟩ := quantum_bounds num den
  have hup := nearestEven_le_succ num (den * 2 ^ quantum num den)
  have hdown := nearestEven_ge_floor num (den * 2 ^ quantum num den)
  exact ⟨by omega, fun h => le_trans (hge h) hdown⟩

/-- Short of the infinity, the rounded magnitude is the rounded count of quanta. -/
theorem roundMag_of_finite {num den : Nat} (hf : roundMag num den < 0x7F800000) :
    roundMag num den = quantum num den * 2 ^ 23 + nearestEven num (den * 2 ^ quantum num den) := by
  rw [roundMag_eq] at hf ⊢; omega

/-- The rounded magnitude is worth its count of quanta, a count of 2^24 included. -/
theorem unitsOfMag_roundMag {num den : Nat} (hf : roundMag num den < 0x7F800000) :
    unitsOfMag (roundMag num den) = nearestEven num (den * 2 ^ quantum num den) * 2 ^ quantum num den := by
  obtain ⟨hle, hge⟩ := roundedCount_bounds num den
  rw [roundMag_of_finite hf]
  rcases Nat.lt_or_ge (nearestEven num (den * 2 ^ quantum num den)) (2 ^ 23) with hsub | hnorm
  · have hs : quantum num den = 0 := by omega
    rw [hs] at hsub ⊢
    rw [Nat.zero_mul, Nat.zero_add, unitsOfMag_small hsub, pow_zero, Nat.mul_one, Nat.mul_one]
  · exact unitsOfMag_count hnorm hle

/-- No magnitude but the rounded one is as near, unless the rounded one is even (R11). -/
theorem roundMag_nearest {num den m : Nat} (hd : 0 < den) (hf : roundMag num den < 0x7F800000)
    (hm : m ≠ roundMag num den) :
    |(num : Int) - unitsOfMag (roundMag num den) * den| < |(num : Int) - unitsOfMag m * den| ∨
      |(num : Int) - unitsOfMag (roundMag num den) * den| = |(num : Int) - unitsOfMag m * den| ∧
        roundMag num den % 2 = 0 := by
  have hunits : unitsOfMag m ≠ unitsOfMag (roundMag num den) := fun h =>
    hm (le_antisymm (unitsOfMag_le_iff.1 h.le) (unitsOfMag_le_iff.1 h.ge))
  have hpar : roundMag num den % 2 = nearestEven num (den * 2 ^ quantum num den) % 2 := by
    rw [roundMag_of_finite hf]; omega
  have hcount := quantum_bounds num den
  rw [unitsOfMag_roundMag hf] at hunits ⊢
  rw [hpar]
  generalize quantum num den = s at *
  have hD : 0 < den * 2 ^ s := by positivity
  have hquanta (j : Nat) : ((j * 2 ^ s : Nat) : Int) * den = j * (den * 2 ^ s : Nat) := by push_cast; ring
  rw [hquanta]
  rcases unitsOfMag_multiple_or_lt m s with ⟨j, hj⟩ | ⟨hs, hlt⟩
  · rw [hj] at hunits ⊢
    rw [hquanta]
    exact nearestEven_nearest hD fun h => hunits (by rw [h])
  · have hreached : 2 ^ 23 * (den * 2 ^ s) ≤ num := (Nat.le_div_iff_mul_le hD).1 (hcount.2 hs)
    have hbelow : unitsOfMag m * den < 2 ^ 23 * (den * 2 ^ s) := by
      calc unitsOfMag m * den < 2 ^ 23 * 2 ^ s * den := Nat.mul_lt_mul_of_pos_right hlt hd
        _ = 2 ^ 23 * (den * 2 ^ s) := by ring
    exact Or.inl (by exact_mod_cast nearestEven_nearer_than_below hD hbelow hreached)

/-- The infinity begins half a unit in the last place above the largest finite magnitude. -/
theorem roundMag_eq_infinity_iff {num den : Nat} (hd : 0 < den) :
    roundMag num den = 0x7F800000 ↔ (2 ^ 25 - 1) * 2 ^ 253 * den ≤ 2 * num := by
  constructor
  · contrapose!
    intro hlt
    have hs : quantum num den ≤ 253 := by
      have := quantum_mono (n1 := num) (d1 := den) (n2 := (2 ^ 25 - 1) * 2 ^ 252) (d2 := 1) hd one_pos (by omega)
      rwa [show quantum ((2 ^ 25 - 1) * 2 ^ 252) 1 = 253 by decide +kernel] at this
    obtain ⟨hcount, -⟩ := roundedCount_bounds num den
    rw [roundMag_eq]
    rcases Nat.lt_or_eq_of_le hs with hlow | htop
    · omega
    · have herr := two_nearestEven_mul_le (num := num) (den := den * 2 ^ 253) (by positivity)
      have hk : nearestEven num (den * 2 ^ 253) < 2 ^ 24 := by
        by_contra hge
        have := Nat.mul_le_mul_right (den * 2 ^ 253) (not_lt.1 hge)
        omega
      rw [htop]
      omega
  · intro hle
    refine le_antisymm (roundMag_le _ _) ?_
    rw [← show roundMag ((2 ^ 25 - 1) * 2 ^ 252) 1 = 0x7F800000 by decide +kernel]
    exact roundMag_mono one_pos hd (by omega)

/-- Settles O52: the rounded count of quanta is nearest among all encodings, and monotonicity places the infinity. -/
theorem roundingIsNearestTiesToEven : Obligations.RoundingIsNearestTiesToEven :=
  fun _ _ hd => ⟨fun hf _ _ hm => roundMag_nearest hd hf hm, roundMag_eq_infinity_iff hd⟩

/-! ### roundI -/

/-- Rounding to an integer errs by as much as rounding the magnitude does, on either side of zero. -/
theorem roundInt_error (x : Word) :
    |fValue x - roundInt x * 2 ^ 149| = |(fUnits x : Int) - nearestEven (fUnits x) (2 ^ 149) * (2 ^ 149 : Nat)| := by
  unfold fValue roundInt
  split
  · rw [← abs_neg]; push_cast; ring_nf
  · push_cast; rfl

theorem roundInt_even {x : Word} (h : nearestEven (fUnits x) (2 ^ 149) % 2 = 0) : roundInt x % 2 = 0 := by
  unfold roundInt; split <;> omega

/-- Settles O53: the error and the tie are those of `nearestEven` at the magnitude. -/
theorem roundIntIsNearestTiesToEven : Obligations.RoundIntIsNearestTiesToEven := by
  refine ⟨fun x _ => ?_, by decide +kernel, by decide +kernel, by decide +kernel⟩
  obtain ⟨herr, htie⟩ := nearestEven_error (num := fUnits x) (den := 2 ^ 149) (by positivity)
  rw [roundInt_error]
  exact ⟨by exact_mod_cast herr, fun h => roundInt_even (htie (by exact_mod_cast h))⟩

/-! ### The operations -/

theorem fMag_fPack_roundMag (neg : Bool) (num den : Nat) : fMag (fPack neg (roundMag num den)) = roundMag num den :=
  fMag_fPack (lt_of_le_of_lt (roundMag_le num den) (by norm_num))

theorem fNeg_fPack_roundMag (neg : Bool) (num den : Nat) : fNeg (fPack neg (roundMag num den)) = neg :=
  fNeg_fPack (lt_of_le_of_lt (roundMag_le num den) (by norm_num))

theorem fadd_of_sum_zero {a b : Word} (ha : fIsFinite a = true) (hb : fIsFinite b = true)
    (h0 : fValue a + fValue b = 0) : fadd a b = fPack (fNeg a && fNeg b) 0 := by
  simp only [fadd, fIsNan_of_finite ha, fIsNan_of_finite hb, fIsInf_of_finite ha, fIsInf_of_finite hb, Bool.or_self,
    Bool.false_eq_true, if_false, h0, if_true]

theorem roundMag_zero (den : Nat) : roundMag 0 den = 0 := by
  simp [roundMag, nearestEven]

/-- The sum of finite operands is the exact sum rounded once, with its sign. -/
theorem fadd_rounds {a b : Word} (ha : fIsFinite a = true) (hb : fIsFinite b = true) :
    fMag (fadd a b) = roundMag (fValue a + fValue b).natAbs 1 ∧
      (fValue a + fValue b ≠ 0 → fNeg (fadd a b) = decide (fValue a + fValue b < 0)) := by
  by_cases h0 : fValue a + fValue b = 0
  · rw [fadd_of_sum_zero ha hb h0, fMag_fPack (by norm_num), h0]
    exact ⟨(roundMag_zero 1).symm, fun h => absurd rfl h⟩
  · rw [fadd_finite ha hb h0, fMag_fPack_roundMag, fNeg_fPack_roundMag]
    exact ⟨rfl, fun _ => rfl⟩

theorem fsub_rounds {a b : Word} (ha : fIsFinite a = true) (hb : fIsFinite b = true) :
    fMag (fsub a b) = roundMag (fValue a - fValue b).natAbs 1 ∧
      (fValue a - fValue b ≠ 0 → fNeg (fsub a b) = decide (fValue a - fValue b < 0)) := by
  have h := fadd_rounds ha (fIsFinite_fneg hb)
  rwa [fValue_fneg, ← sub_eq_add_neg] at h

theorem fmul_rounds {a b : Word} (ha : fIsFinite a = true) (hb : fIsFinite b = true) :
    fMag (fmul a b) = roundMag (fUnits a * fUnits b) (2 ^ 149) ∧ fNeg (fmul a b) = (fNeg a != fNeg b) := by
  refine ⟨?_, fNeg_fmul ha hb⟩
  rw [fmul_finite ha hb, fMag_fPack_roundMag]

theorem fdiv_rounds {a b : Word} (ha : fIsFinite a = true) (hb : fIsFinite b = true) (h0 : fMag b ≠ 0) :
    fMag (fdiv a b) = roundMag (fUnits a * 2 ^ 149) (fUnits b) ∧ fNeg (fdiv a b) = (fNeg a != fNeg b) := by
  rw [fdiv_finite ha hb h0]
  exact ⟨fMag_fPack_roundMag _ _ _, fNeg_fPack_roundMag _ _ _⟩

theorem u2f_rounds (n : Word) : fMag (u2f n) = roundMag (n.toNat * 2 ^ 149) 1 ∧ fNeg (u2f n) = false := by
  rw [u2f_eq]
  exact ⟨fMag_fPack_roundMag _ _ _, fNeg_fPack_roundMag _ _ _⟩

theorem i2f_eq (n : Word) : i2f n = fPack (decide (n.toInt < 0)) (roundMag (n.toInt.natAbs * 2 ^ 149) 1) := by
  unfold i2f f32OfRatio
  split
  · next h => subst h; decide +kernel
  · rfl

theorem i2f_rounds (n : Word) :
    fMag (i2f n) = roundMag (n.toInt.natAbs * 2 ^ 149) 1 ∧ fNeg (i2f n) = decide (n.toInt < 0) := by
  rw [i2f_eq]
  exact ⟨fMag_fPack_roundMag _ _ _, fNeg_fPack_roundMag _ _ _⟩

/-! ### NaN results -/

/-- The result `r` on operands `a` and `b` keeps R11's rule on NaNs: it is the canonical NaN, or no NaN is involved. -/
def NanRule (a b r : Word) : Prop :=
  r = nanWord ∨ fIsNan a = false ∧ fIsNan b = false ∧ fIsNan r = false

theorem NanRule.eq_nanWord {a b r : Word} (h : NanRule a b r)
    (hn : fIsNan a = true ∨ fIsNan b = true ∨ fIsNan r = true) : r = nanWord := by
  rcases h with h | ⟨ha, hb, hr⟩
  · exact h
  · simp [ha, hb, hr] at hn

/-- An operation that answers the canonical NaN to a NaN operand keeps the rule when it does on other operands. -/
theorem nanRule_ite {a b r : Word} (h : fIsNan a = false → fIsNan b = false → r = nanWord ∨ fIsNan r = false) :
    NanRule a b (if fIsNan a || fIsNan b then nanWord else r) := by
  split_ifs with hn
  · exact Or.inl rfl
  · obtain ⟨ha, hb⟩ : fIsNan a = false ∧ fIsNan b = false := by simpa using hn
    exact (h ha hb).imp_right fun hr => ⟨ha, hb, hr⟩

theorem fIsNan_fPack_roundMag (neg : Bool) (num den : Nat) : fIsNan (fPack neg (roundMag num den)) = false :=
  fIsNan_fPack (roundMag_le num den)

theorem fadd_nanRule (a b : Word) : NanRule a b (fadd a b) := by
  refine nanRule_ite fun ha hb => ?_
  split_ifs
  · exact Or.inl rfl
  · exact Or.inr ha
  · exact Or.inr hb
  · exact Or.inr (fIsNan_fPack (by norm_num))
  · exact Or.inr (fIsNan_fPack_roundMag _ _ _)

theorem fsub_nanRule (a b : Word) : NanRule a b (fsub a b) := by
  have hb : fIsNan (fneg b) = fIsNan b := by rw [fIsNan, fMag_fneg, fIsNan]
  have h := fadd_nanRule a (fneg b)
  rwa [NanRule, hb] at h

theorem fmul_nanRule (a b : Word) : NanRule a b (fmul a b) := by
  refine nanRule_ite fun _ _ => ?_
  split_ifs
  · exact Or.inl rfl
  · exact Or.inr (fIsNan_fPack le_rfl)
  · exact Or.inr (fIsNan_fPack_roundMag _ _ _)

theorem fdiv_nanRule (a b : Word) : NanRule a b (fdiv a b) := by
  refine nanRule_ite fun _ _ => ?_
  split_ifs
  · exact Or.inl rfl
  · exact Or.inr (fIsNan_fPack le_rfl)
  · exact Or.inr (fIsNan_fPack (by norm_num))
  · exact Or.inl rfl
  · exact Or.inr (fIsNan_fPack le_rfl)
  · exact Or.inr (fIsNan_fPack_roundMag _ _ _)

/-- Settles O60: one rounding lemma and one NaN lemma for each operation. -/
theorem operationsRoundTheExactResult : Obligations.OperationsRoundTheExactResult := by
  refine ⟨fun a b ha hb => ⟨fadd_rounds ha hb, fsub_rounds ha hb, fmul_rounds ha hb, fdiv_rounds ha hb⟩,
    fun n => ?_, fun a b r hr => ?_⟩
  · obtain ⟨hmag, hneg⟩ := u2f_rounds n
    exact ⟨hmag, hneg, i2f_rounds n⟩
  · have hrule : NanRule a b r := by
      simp only [List.mem_cons, List.not_mem_nil, or_false] at hr
      rcases hr with rfl | rfl | rfl | rfl
      · exact fadd_nanRule a b
      · exact fsub_nanRule a b
      · exact fmul_nanRule a b
      · exact fdiv_nanRule a b
    exact hrule.eq_nanWord

end Sys2Proof.Machine
end

section
/-!
SUPPORT. The length a sample rate needs (41_delay_line.md R111, R112), and the doubling of a rounded fraction that R118
rests on.
-/
namespace Sys2Proof.Machine

open Sys2Proof.Safety

/-! ### The required length (R111, R112) -/

theorem nextPow2_powerOfTwo (n : Nat) : PowerOfTwo (nextPow2 n) := by
  unfold nextPow2
  split
  · exact ⟨0, rfl⟩
  · exact ⟨_, rfl⟩

theorem le_nextPow2 (n : Nat) : n ≤ nextPow2 n := by
  unfold nextPow2
  split
  · assumption
  · have : n - 1 < 2 ^ ((n - 1).log2 + 1) := Nat.lt_log2_self
    omega

theorem nextPow2_two_pow (k : Nat) : nextPow2 (2 ^ k) = 2 ^ k := by
  unfold nextPow2
  rcases k with _ | k
  · rfl
  · have hpos : 1 ≤ 2 ^ k := Nat.one_le_two_pow
    have hsucc : 2 ^ (k + 1) = 2 * 2 ^ k := pow_succ' 2 k
    have hlog : (2 ^ (k + 1) - 1).log2 = k := (Nat.log2_eq_iff (by omega)).2 ⟨by omega, by omega⟩
    rw [if_neg (by omega), hlog]

theorem requiredLength_powerOfTwo (rate : Word) : PowerOfTwo (requiredLength rate) := nextPow2_powerOfTwo _

theorem requiredLength_pos (rate : Word) : 0 < requiredLength rate := by
  obtain ⟨k, hk⟩ := requiredLength_powerOfTwo rate
  rw [hk]; positivity

@[simp] theorem nextPow2_requiredLength (rate : Word) : nextPow2 (requiredLength rate) = requiredLength rate := by
  obtain ⟨k, hk⟩ := requiredLength_powerOfTwo rate
  rw [hk, nextPow2_two_pow]

/-! ### Doubling a rounded fraction (the last step of R118) -/

/-- A fraction that is not subnormal has twice as many units rounded when it is doubled. -/
theorem unitsOfMag_roundMag_double {num den : Nat} (hd : 0 < den) (hn : 2 ^ 23 * den ≤ num)
    (hf : roundMag (2 * num) den < 0x7F800000) :
    unitsOfMag (roundMag (2 * num) den) = 2 * unitsOfMag (roundMag num den) := by
  have hq : 2 ^ 23 ≤ num / den := (Nat.le_div_iff_mul_le hd).2 hn
  have hlog : (2 * num / den).log2 = (num / den).log2 + 1 := by
    have hlow : 2 ^ (num / den).log2 ≤ num / den := Nat.log2_self_le (by omega)
    have hhigh : num / den < 2 ^ ((num / den).log2 + 1) := Nat.lt_log2_self
    have hge : 2 * (num / den) ≤ 2 * num / den := by
      rw [Nat.le_div_iff_mul_le hd, Nat.mul_assoc]
      exact Nat.mul_le_mul_left 2 (Nat.div_mul_le_self num den)
    have hlt : 2 * num / den < 2 * 2 ^ ((num / den).log2 + 1) := by
      rw [Nat.div_lt_iff_lt_mul hd, Nat.mul_assoc]
      exact Nat.mul_lt_mul_of_pos_left ((Nat.div_lt_iff_lt_mul hd).1 hhigh) two_pos
    exact (Nat.log2_eq_iff (by omega)).2 ⟨by rw [pow_succ']; omega, by rw [pow_succ']; omega⟩
  have h23 : 23 ≤ (num / den).log2 := (Nat.le_log2 (by omega)).2 hq
  have hquantum : quantum (2 * num) den = quantum num den + 1 := by unfold quantum; omega
  have hcount : nearestEven (2 * num) (den * 2 ^ (quantum num den + 1)) =
      nearestEven num (den * 2 ^ quantum num den) := by
    have h1 : 0 < den * 2 ^ (quantum num den + 1) := by positivity
    have h2 : 0 < den * 2 ^ quantum num den := by positivity
    exact le_antisymm (nearestEven_mono h1 h2 (by rw [pow_succ]; linarith))
      (nearestEven_mono h2 h1 (by rw [pow_succ]; linarith))
  have hle : roundMag num den ≤ roundMag (2 * num) den := roundMag_mono hd hd (by nlinarith)
  rw [unitsOfMag_roundMag hf, unitsOfMag_roundMag (by omega), hquantum, hcount, pow_succ]
  ring

end Sys2Proof.Machine
end

section
/-!
SUPPORT. The ranges of what UPDATE computes from legal parameters and a legal rate (42_translator.md R122 to R128,
R131): the base delay, the depth, the cycle length and the phase offset.
-/
namespace Sys2Proof.Machine

/-! ### Finite numbers that are not negative -/

/-- x is a finite number that is at least 0.0; -0.0 is one (R193 to R196). -/
def FNonneg (x : Word) : Prop := fIsFinite x = true ∧ (fNeg x = true → fUnits x = 0)

theorem fNonneg_u2f (n : Word) : FNonneg (u2f n) := ⟨u2f_finite n, by simp [fNeg_u2f]⟩

/-- The closed interval from 0.0 to a finite positive end holds such numbers only, none above its end. -/
theorem fNonneg_of_inClosed_zero {hi v : Word} (hhi : hi.toNat < 0x7F800000) (h : inClosed 0#32 hi v = true) :
    FNonneg v ∧ fUnits v ≤ fUnits hi := by
  rcases (inClosed_zero_iff hhi).1 h with hle | rfl
  · have hv : fMag v = v.toNat := Nat.mod_eq_of_lt (by omega)
    have hm : fMag hi = hi.toNat := Nat.mod_eq_of_lt (by omega)
    refine ⟨⟨fIsFinite_iff.2 (by omega), ?_⟩, unitsOfMag_le_iff.2 (by omega)⟩
    rw [fNeg_eq_false_iff.2 (by omega)]
    exact nofun
  · have h0 : fUnits 0x80000000#32 = 0 := by decide
    exact ⟨⟨by decide, fun _ => h0⟩, by omega⟩

/-- A product of such factors is one, and none larger than the second factor, if the first is at most 1.0. -/
theorem FNonneg.fmul_of_le_one {a b : Word} (ha : FNonneg a) (hb : FNonneg b) (h1 : fUnits a ≤ 2 ^ 149) :
    FNonneg (fmul a b) ∧ fUnits (fmul a b) ≤ fUnits b := by
  obtain ⟨hf, hle⟩ := fUnits_fmul_le ha.1 hb.1 h1
  refine ⟨⟨hf, fun hneg => ?_⟩, hle⟩
  have hzero : fUnits a * fUnits b = 0 := by
    rw [fNeg_fmul ha.1 hb.1] at hneg
    cases hna : fNeg a
    · rw [hb.2 (by simpa [hna] using hneg), Nat.mul_zero]
    · rw [ha.2 hna, Nat.zero_mul]
  rw [fmul_finite ha.1 hb.1, hzero, roundMag_zero]
  exact fUnits_fPack (by norm_num)

theorem roundInt_of_fNonneg {x : Word} (h : FNonneg x) : roundInt x = nearestEven (fUnits x) (2 ^ 149) := by
  unfold roundInt
  split
  · next hneg => rw [h.2 hneg]; decide
  · rfl

theorem toNat_roundS32 {x : Word} (h : FNonneg x) (hlt : nearestEven (fUnits x) (2 ^ 149) < 2 ^ 31) :
    (roundS32 x).toNat = nearestEven (fUnits x) (2 ^ 149) := by
  have e := roundInt_of_fNonneg h
  rw [roundS32_eq h.1 (by omega) (by omega), e, BitVec.toNat_ofInt]
  omega

theorem toNat_roundU32 {x : Word} (h : FNonneg x) (hlt : nearestEven (fUnits x) (2 ^ 149) < 2 ^ 32) :
    (roundU32 x).toNat = nearestEven (fUnits x) (2 ^ 149) := by
  have e := roundInt_of_fNonneg h
  rw [roundU32_eq h.1 (by omega) (by omega), e, BitVec.toNat_ofInt]
  omega

/-- A larger number of units rounds to no smaller integer. -/
theorem nearestEven_units_mono {m n : Nat} (h : m ≤ n) : nearestEven m (2 ^ 149) ≤ nearestEven n (2 ^ 149) :=
  nearestEven_mono (by positivity) (by positivity) (Nat.mul_le_mul_right _ h)

theorem i2f_eq_u2f {n : Word} (h : n.toNat < 2 ^ 31) : i2f n = u2f n := by
  have hi : n.toInt = n.toNat := BitVec.toInt_eq_toNat_of_lt (by omega)
  rw [i2f_eq, u2f_eq, hi, Int.natAbs_natCast, decide_eq_false (by omega)]

/-- The units of a product that does not overflow are those of its rounded magnitude. -/
theorem fUnits_fmul {a b : Word} (ha : fIsFinite a = true) (hb : fIsFinite b = true)
    (hf : fIsFinite (fmul a b) = true) :
    roundMag (fUnits a * fUnits b) (2 ^ 149) < 0x7F800000 ∧
      fUnits (fmul a b) = unitsOfMag (roundMag (fUnits a * fUnits b) (2 ^ 149)) := by
  have hmag : fMag (fmul a b) = roundMag (fUnits a * fUnits b) (2 ^ 149) := by
    rw [fmul_finite ha hb, fMag_fPack_roundMag]
  exact ⟨by rwa [fIsFinite_iff, hmag] at hf, by rw [fUnits, hmag]⟩

/-! ### The base delay and the depth (R122, R123, R131) -/

theorem legalSampleRate_iff {r : Word} : legalSampleRate r = true ↔ 8000 ≤ r.toNat ∧ r.toNat ≤ 192000 := by
  simp only [legalSampleRate, Bool.and_eq_true, decide_eq_true_eq]
  rfl

/-- The two lines of R112 for a rate: the product with twice MAX_DELAY is twice the product with MAX_DELAY. -/
theorem fUnits_fmul_doubled_maxDelay {r : Word} (hr : 0 < r.toNat) :
    fUnits (fmul (fmul Config.maxDelay 0x40000000#32) (u2f r)) = 2 * fUnits (fmul Config.maxDelay (u2f r)) := by
  have hf : fIsFinite Config.maxDelay = true := by decide
  have hf2 : fIsFinite (fmul Config.maxDelay 0x40000000#32) = true := by decide +kernel
  have hdouble : fUnits (fmul Config.maxDelay 0x40000000#32) = 2 * fUnits Config.maxDelay := by decide +kernel
  have hnormal : 2 ^ 23 * 2 ^ 149 ≤ fUnits Config.maxDelay * fUnits (u2f r) :=
    Nat.mul_le_mul (by decide +kernel) (le_fUnits_u2f hr)
  obtain ⟨-, h1⟩ := fUnits_fmul hf (u2f_finite r) (fUnits_fmul_le hf (u2f_finite r) (by decide +kernel)).1
  obtain ⟨hfin, h2⟩ := fUnits_fmul hf2 (u2f_finite r) (fUnits_fmul_le hf2 (u2f_finite r) (by decide +kernel)).1
  rw [hdouble, Nat.mul_assoc] at hfin h2
  rw [h1, h2, unitsOfMag_roundMag_double (by positivity) hnormal hfin]

/-- R122, R118: the base delay of a legal delay and rate is at most 3072, and twice it fits the line. -/
theorem baseDelay_bounds {d r : Word} (hd : legalDelay d = true) (hr : legalSampleRate r = true) :
    (roundS32 (fmul d (u2f r))).toNat ≤ 3072 ∧ 2 * (roundS32 (fmul d (u2f r))).toNat ≤ requiredLength r := by
  obtain ⟨hr1, hr2⟩ := legalSampleRate_iff.1 hr
  obtain ⟨hnn, hle⟩ := fNonneg_of_inClosed_zero (by decide) hd
  have hone : fUnits Config.maxDelay ≤ 2 ^ 149 := by decide +kernel
  have hf : fIsFinite Config.maxDelay = true := by decide
  have hprod := (hnn.fmul_of_le_one (fNonneg_u2f r) (hle.trans hone)).1
  have hmax : fUnits (fmul d (u2f r)) ≤ fUnits (fmul Config.maxDelay (u2f r)) :=
    fUnits_fmul_mono hnn.1 (u2f_finite r) hf (u2f_finite r) hle le_rfl
  have htop : fUnits (fmul Config.maxDelay (u2f r)) ≤ fUnits (fmul Config.maxDelay (u2f 192000#32)) :=
    fUnits_fmul_mono hf (u2f_finite r) hf (u2f_finite _) le_rfl (fUnits_u2f_mono hr2)
  have h3072 : nearestEven (fUnits (fmul d (u2f r))) (2 ^ 149) ≤ 3072 :=
    (nearestEven_units_mono (hmax.trans htop)).trans (by decide +kernel)
  rw [toNat_roundS32 hprod (by omega)]
  refine ⟨h3072, ?_⟩
  calc 2 * nearestEven (fUnits (fmul d (u2f r))) (2 ^ 149)
      ≤ 2 * fUnits (fmul d (u2f r)) / 2 ^ 149 + 1 := two_nearestEven_le _ _ (by positivity)
    _ ≤ 2 * fUnits (fmul Config.maxDelay (u2f r)) / 2 ^ 149 + 1 := by
        exact Nat.succ_le_succ (Nat.div_le_div_right (Nat.mul_le_mul_left 2 hmax))
    _ = floorI (fmul (fmul Config.maxDelay 0x40000000#32) (u2f r)) + 1 := by
        rw [floorI, fUnits_fmul_doubled_maxDelay (by omega)]
    _ ≤ requiredLength r := le_nextPow2 _

/-- R123: the depth of a legal P_DEPTH is a finite number from 0.0 to the base delay. -/
theorem depth_bounds {p b : Word} (hp : legalDepth p = true) (hb : b.toNat < 2 ^ 24) :
    FNonneg (fmul p (i2f b)) ∧ fUnits (fmul p (i2f b)) ≤ b.toNat * 2 ^ 149 := by
  obtain ⟨hnn, hle⟩ := fNonneg_of_inClosed_zero (by decide) hp
  rw [i2f_eq_u2f (by omega), ← fUnits_u2f_exact hb]
  exact hnn.fmul_of_le_one (fNonneg_u2f b) (hle.trans (by decide +kernel))

/-! ### The cycle length (R126) -/

/-- Above +0.0 neither zero is left. -/
theorem FNonneg.pos {v : Word} (h : FNonneg v) (hpos : flt 0#32 v = true) : fNeg v = false ∧ fMag v ≠ 0 := by
  have hz : fValue 0#32 = 0 := by decide +kernel
  simp only [flt, Bool.and_eq_true, decide_eq_true_eq, hz] at hpos
  obtain ⟨-, hval⟩ := hpos
  have hunits : fUnits v ≠ 0 := by rw [← natAbs_fValue]; omega
  exact ⟨by simpa using mt h.2 hunits, mt unitsOfMag_eq_zero_iff.2 hunits⟩

/-- The quotient of R126 for a legal positive rate has no sign and is at least 800. -/
theorem cycleQuotient_bounds {r v : Word} (hr : legalSampleRate r = true) (hv : legalRate v = true)
    (hpos : flt 0#32 v = true) : fNeg (fdiv (u2f r) v) = false ∧ 800 * 2 ^ 149 ≤ fUnits (fdiv (u2f r) v) := by
  obtain ⟨hr1, -⟩ := legalSampleRate_iff.1 hr
  obtain ⟨hnn, hle⟩ := fNonneg_of_inClosed_zero (by decide) hv
  obtain ⟨hneg, h0⟩ := hnn.pos hpos
  constructor
  · rw [fdiv_finite (u2f_finite r) hnn.1 h0, fNeg_fPack_roundMag, fNeg_u2f, hneg]
    rfl
  · rw [← show fUnits (fdiv (u2f 8000#32) 0x41200000#32) = 800 * 2 ^ 149 by decide +kernel]
    exact fUnits_fdiv_mono (u2f_finite _) (by decide) (u2f_finite r) hnn.1 (by decide) h0
      (Nat.mul_le_mul (fUnits_u2f_mono hr1) hle)

/-- R126: the cycle length of a legal positive rate is from 800 to CYCLE_MAX. -/
theorem cycleLength_bounds {r v : Word} (hr : legalSampleRate r = true) (hv : legalRate v = true)
    (hpos : flt 0#32 v = true) : 800 ≤ (cycleLength r v).toNat ∧ (cycleLength r v).toNat ≤ Config.cycleMax := by
  obtain ⟨hneg, hlow⟩ := cycleQuotient_bounds hr hv hpos
  have hround : roundInt (fdiv (u2f r) v) = nearestEven (fUnits (fdiv (u2f r) v)) (2 ^ 149) := by
    rw [roundInt, hneg]; rfl
  have h800 : 800 ≤ nearestEven (fUnits (fdiv (u2f r) v)) (2 ^ 149) := by
    rw [← nearestEven_mul 800 (2 ^ 149) (by positivity)]
    exact nearestEven_units_mono hlow
  unfold cycleLength
  split
  · decide
  · next hsat =>
    have hle : roundInt (fdiv (u2f r) v) ≤ Config.cycleMax := not_lt.1 fun h => hsat (.inr h)
    rw [hround] at hle ⊢
    simp only [Config.cycleMax] at hle ⊢
    rw [BitVec.toNat_ofInt]
    omega

/-! ### The phase offset (R128) -/

theorem toNat_wrappedPhase_le {ph : Word} (h : legalPhase ph = true) : (wrappedPhase ph).toNat ≤ 359 := by
  have hint := BitVec.toInt_eq_toNat_cond ph
  simp only [legalPhase, Bool.and_eq_true, decide_eq_true_eq] at h
  unfold wrappedPhase
  split
  · omega
  · rw [BitVec.toNat_add, BitVec.toNat_ofNat]
    omega

/-- The fraction of the cycle that a legal phase takes is at most 511/512, whose encoding is 0x3F7F8000. -/
theorem phaseFraction_bounds {ph : Word} (h : legalPhase ph = true) :
    FNonneg (fdiv (i2f (wrappedPhase ph)) 0x43B40000#32) ∧
      fUnits (fdiv (i2f (wrappedPhase ph)) 0x43B40000#32) ≤ fUnits 0x3F7F8000#32 := by
  have hle := toNat_wrappedPhase_le h
  rw [i2f_eq_u2f (by omega)]
  have hmag : fUnits (fdiv (u2f (wrappedPhase ph)) 0x43B40000#32) ≤ fUnits 0x3F7F8000#32 :=
    (fUnits_fdiv_mono (u2f_finite _) (by decide) (u2f_finite 359#32) (by decide) (by decide) (by decide)
      (Nat.mul_le_mul_right _ (fUnits_u2f_mono hle))).trans (by decide +kernel)
  have hfin : fIsFinite (fdiv (u2f (wrappedPhase ph)) 0x43B40000#32) = true := by
    have hlt : fMag (fdiv (u2f (wrappedPhase ph)) 0x43B40000#32) ≤ fMag 0x3F7F8000#32 := unitsOfMag_le_iff.1 hmag
    exact fIsFinite_iff.2 (hlt.trans_lt (by decide))
  have hneg : fNeg (fdiv (u2f (wrappedPhase ph)) 0x43B40000#32) = false := by
    rw [fdiv_finite (u2f_finite _) (by decide) (by decide), fNeg_fPack_roundMag, fNeg_u2f]
    decide
  exact ⟨⟨hfin, by simp [hneg]⟩, hmag⟩

/-- A cycle length converts to at most 1 + 2^-24 times itself. -/
theorem fUnits_u2f_rounding (c : Word) : fUnits (u2f c) * 2 ^ 24 ≤ c.toNat * 2 ^ 149 * (2 ^ 24 + 1) := by
  rcases Nat.eq_zero_or_pos c.toNat with h0 | h0
  · rw [fUnits_u2f, h0, Nat.zero_mul, roundMag_zero]; decide
  · have hfin := roundMag_u32_le (Nat.le_of_lt c.isLt)
    have := units_roundMag_le (num := c.toNat * 2 ^ 149) (den := 1) one_pos (by omega) (by omega)
    rwa [Nat.mul_one, ← fUnits_u2f] at this

/-- A product with at most 511/512 leaves room for both roundings: it is at most the cycle length. -/
theorem fUnits_fmul_u2f_le {c f : Word} (hc : 0 < c.toNat) (hf : FNonneg f) (hle : fUnits f ≤ fUnits 0x3F7F8000#32) :
    FNonneg (fmul f (u2f c)) ∧ fUnits (fmul f (u2f c)) ≤ c.toNat * 2 ^ 149 := by
  have htop : fIsFinite 0x3F7F8000#32 = true := by decide
  have hfrac : fUnits 0x3F7F8000#32 = 511 * 2 ^ 140 := by decide +kernel
  refine ⟨(hf.fmul_of_le_one (fNonneg_u2f c) (by omega)).1, ?_⟩
  refine (fUnits_fmul_mono hf.1 (u2f_finite c) htop (u2f_finite c) hle le_rfl).trans ?_
  obtain ⟨hfin, he⟩ := fUnits_fmul htop (u2f_finite c) (fUnits_fmul_le htop (u2f_finite c) (by omega)).1
  have hone := le_fUnits_u2f hc
  have hconv := fUnits_u2f_rounding c
  have hnormal : 2 ^ 23 * 2 ^ 149 ≤ fUnits 0x3F7F8000#32 * fUnits (u2f c) := Nat.mul_le_mul (by decide +kernel) hone
  have hround := units_roundMag_le (by positivity) hnormal hfin
  rw [← he, hfrac] at hround
  omega

theorem fmul_comm_of_finite {a b : Word} (ha : fIsFinite a = true) (hb : fIsFinite b = true) :
    fmul a b = fmul b a := by
  rw [fmul_finite ha hb, fmul_finite hb ha, Nat.mul_comm, bne_comm]

/-- R128: the phase offset of a legal phase is at most the cycle length. -/
theorem phaseOffset_le {c ph : Word} (hc : 0 < c.toNat) (hph : legalPhase ph = true) :
    (phaseOffset c ph).toNat ≤ c.toNat := by
  obtain ⟨hnn, hle⟩ := phaseFraction_bounds hph
  obtain ⟨hprod, hbound⟩ := fUnits_fmul_u2f_le hc hnn hle
  have hround := nearestEven_units_mono hbound
  rw [nearestEven_mul _ _ (by positivity)] at hround
  rw [phaseOffset, fmul_comm_of_finite (u2f_finite c) hnn.1, toNat_roundU32 hprod (by omega)]
  exact hround

end Sys2Proof.Machine
end

section
/-!
SUPPORT. What a command can do, said once, with the step lemma that follows from it; and UPDATE as one equation.
-/
namespace Sys2Proof.Machine

open Sys2Proof.Safety

/-! ### What a command can do, said once -/

/-- Everything a command that answers a next state can have done to the state it ran in. -/
inductive CommandDid (s : State) : State → Prop
  | reset : CommandDid s { State.reset with params := s.params, mem := s.mem, host := s.host, readLog := s.readLog }
  | released : CommandDid s { s with dlLen := 0#32, status := clearedStatus }
  | devchgFailed (code : ErrCode) : CommandDid s (devchgFail code s)
  | devchgKept (hrate : legalSampleRate s.arg = true) (hlen : requiredLength s.arg = s.dlLen.toNat) :
      CommandDid s (devchgDone s)
  | devchgResized (t : State) (hrate : legalSampleRate s.arg = true)
      (hsize : resize (requiredLength s.arg) s = some t) : CommandDid s (devchgDone t)
  | updated (hconf : s.status.configured = true) : CommandDid s (translate s)
  | processed (n nch : Nat) (wk : Work) (hblock : legalBlock s.params n nch = true) (hready : ready s = true)
      (hrun : runSubBlocks s nch (subBlocks n) { mem := s.mem, cursor := s.cursor } = .ok wk) :
      CommandDid s (succeed { s with mem := wk.mem, cursor := wk.cursor })
  | setWaveform (h : legalWaveform s.arg = true) : CommandDid s (succeed { s with pWaveform := s.arg })
  | setPhase (h : legalPhase s.arg = true) : CommandDid s (succeed { s with pPhase := s.arg })
  | setRate (h : legalRate s.arg = true) : CommandDid s (succeed { s with pRate := s.arg })
  | setDepth (h : legalDepth s.arg = true) : CommandDid s (succeed { s with pDepth := s.arg })
  | setFeedback (h : legalFeedback s.arg = true) : CommandDid s (succeed { s with pFeedback := s.arg })
  | setDelay (h : legalDelay s.arg = true) : CommandDid s (succeed { s with pDelay := s.arg })
  | gotParam (v : Word) : CommandDid s (succeed { s with arg := v })
  | raised (code : ErrCode) : CommandDid s (raise code s)

theorem execDevchg_did {s t : State} (h : execDevchg s = .next t) : CommandDid s t := by
  rcases execDevchg_cases s with ⟨-, e⟩ | ⟨hrate, hlen, e⟩ | ⟨-, -, -, e⟩ | ⟨u, hrate, -, hsize, e⟩ <;>
    (rw [e] at h; cases h)
  · exact .devchgFailed _
  · exact .devchgKept hrate hlen
  · exact .devchgFailed _
  · exact .devchgResized u hrate hsize

theorem execUpdate_did {s t : State} (h : execUpdate s = .next t) : CommandDid s t := by
  rcases execUpdate_cases s with ⟨-, e⟩ | ⟨hconf, e⟩ <;> (rw [e] at h; cases h)
  · exact .raised _
  · exact .updated hconf

theorem execProcess_did {n nch : Nat} {s t : State} (h : execProcess n nch s = .next t) : CommandDid s t := by
  rcases execProcess_cases n nch s with ⟨-, e⟩ | ⟨-, -, e⟩ | ⟨hblock, hready, ⟨wk, hrun, e⟩ | ⟨f, -, e⟩⟩ <;>
    (rw [e] at h; cases h)
  · exact .raised _
  · exact .raised _
  · exact .processed n nch wk hblock hready hrun

/-- A SETP stores a legal ARG or raises. -/
theorem setParam_did {legal : Word → Bool} {store : Word → State → State} {s t : State}
    (h : setParam legal store s = .next t)
    (hstored : legal s.arg = true → CommandDid s (succeed (store s.arg s))) : CommandDid s t := by
  rcases setParam_cases legal store s with ⟨-, e⟩ | ⟨hlegal, e⟩ <;> (rw [e] at h; cases h)
  · exact .raised _
  · exact hstored hlegal

theorem exec_did {i : Instr} {s t : State} (h : exec i s = .next t) : CommandDid s t := by
  cases i with
  | reset => cases h; exact .reset
  | release => cases h; exact .released
  | devchg => exact execDevchg_did h
  | update => exact execUpdate_did h
  | process n nch => exact execProcess_did h
  | setpWaveform => rw [exec, execSetpWaveform] at h; exact setParam_did h .setWaveform
  | setpPhase => rw [exec, execSetpPhase] at h; exact setParam_did h .setPhase
  | setpRate => rw [exec, execSetpRate] at h; exact setParam_did h .setRate
  | setpDepth => rw [exec, execSetpDepth] at h; exact setParam_did h .setDepth
  | setpFeedback => rw [exec, execSetpFeedback] at h; exact setParam_did h .setFeedback
  | setpDelay => rw [exec, execSetpDelay] at h; exact setParam_did h .setDelay
  | getpWaveform | getpPhase | getpRate | getpDepth | getpFeedback | getpDelay => cases h; exact .gotParam _

/-- What every read and store of the host, every refused word and every command keeps, a step keeps. -/
theorem step_keeps {P : State → Prop}
    (hread : ∀ s rest log, P s → P { s with host := rest, readLog := log })
    (hstore : ∀ s w a t, P s → Stored w s (targetOf s.params a) t → P t)
    (hcommand : ∀ s t, P s → CommandDid s t → P t) {s t : State} (hs : P s) (h : step s = .next t) : P t := by
  have hhost (rest : List BusAccess) : P { s with host := rest } := hread s rest s.readLog hs
  cases step_did h with
  | idle => exact hs
  | read rest x => exact hread _ _ _ hs
  | store rest a w _ hst => exact hstore _ w a _ (hhost rest) hst
  | command rest i _ hex => exact hcommand _ _ (hhost rest) (exec_did hex)
  | refused rest code => exact hcommand _ _ (hhost rest) (.raised code)

/-! ### UPDATE in full (R121 to R130) -/

/-- The registers UPDATE writes by one formula each; the LFO's three depend on the rate; all the rest is kept. -/
theorem translate_frame (s : State) :
    translate s = { s with
      waveRt := s.pWaveform
      baseDelay := roundS32 (fmul s.pDelay (u2f s.srate))
      depthS := fmul s.pDepth (i2f (roundS32 (fmul s.pDelay (u2f s.srate))))
      feedbackRt := s.pFeedback
      cycleLen := (translate s).cycleLen
      lfoScale := (translate s).lfoScale
      phaseOff := (translate s).phaseOff
      gainRt0 := s.gainIn0
      gainRt1 := s.gainIn1
      status := updatedStatus s.status } := by
  rw [translate, stepLfo_frame]
  simp only [stepUpdated, stepGains, stepFeedback, stepDepth, stepBaseDelay, stepWaveform]

/-- The LFO's registers at a positive rate (R126 to R128). -/
theorem translate_lfo_of_rate {s : State} (h : flt posZero s.pRate = true) :
    (translate s).cycleLen = cycleLength s.srate s.pRate ∧
      (translate s).lfoScale = scaleFor s.pWaveform (cycleLength s.srate s.pRate) ∧
      (translate s).phaseOff = phaseOffset (cycleLength s.srate s.pRate) s.pPhase := by
  rw [translate, stepLfo_of_rate (s := stepFeedback (stepDepth (stepBaseDelay (stepWaveform s))))]
  · simp [scaleFor]
  · simpa using h

/-- The LFO's registers at a rate that is not positive (R125). -/
theorem translate_lfo_of_no_rate {s : State} (h : flt posZero s.pRate = false) :
    (translate s).cycleLen = 1#32 ∧ (translate s).lfoScale = posZero ∧ (translate s).phaseOff = 0#32 := by
  rw [translate, stepLfo_of_no_rate (s := stepFeedback (stepDepth (stepBaseDelay (stepWaveform s))))]
  · simp
  · simpa using h

end Sys2Proof.Machine
end

section
/-!
SUPPORT. Proofs of the statements on the invariants of 10_state.md R50: they hold after power-on and every step keeps
them.
-/
namespace Sys2Proof.Machine

open Sys2Proof.Safety

/-! ### The invariants after power-on -/

theorem paramInv_reset : ParamInv State.reset := by
  unfold ParamInv; decide +kernel

theorem flagInv_of_not_configured {s : State} (hc : s.status.configured = false) (hu : s.status.updated = false) :
    FlagInv s := ⟨by simp [hu], by simp [hc]⟩

theorem coeffInv_of_not_updated {s : State} (h : s.status.updated = false) : CoeffInv s := by
  simp [CoeffInv, h]

theorem lfoInv_reset : LfoInv State.reset := by
  unfold LfoInv; decide

/-- Settles O56: no line, no flag, no listed byte, and legal register values. -/
theorem powerOnMeetsInvariants : Obligations.PowerOnMeetsInvariants :=
  ⟨.inl rfl, flagInv_of_not_configured rfl rfl, paramInv_reset, lfoInv_reset, ⟨rfl, nofun⟩,
    coeffInv_of_not_updated rfl⟩

/-! ### DL_LEN, the flags and the parameters -/

theorem resize_frame {n : Nat} {s t : State} (h : resize n s = some t) :
    t = { s with dlLen := t.dlLen, mem := t.mem } := by
  obtain ⟨-, rfl⟩ := resize_eq_some_iff.1 h
  rfl

/-- A successful resize to a length a rate needs sets DL_LEN to it, and it fits the RAM (R113). -/
theorem resize_requiredLength {rate : Word} {s t : State} (h : resize (requiredLength rate) s = some t) :
    requiredLength rate ≤ s.params.dlCap ∧ t.dlLen.toNat = requiredLength rate := by
  obtain ⟨hcap, rfl⟩ := resize_eq_some_iff.1 h
  rw [nextPow2_requiredLength] at hcap
  have := dlCap_le s.params
  refine ⟨hcap, ?_⟩
  rw [nextPow2_requiredLength, BitVec.toNat_ofNat]
  exact Nat.mod_eq_of_lt (by omega)

theorem CommandDid.lengthInv {s t : State} (h : CommandDid s t) (hs : LengthInv s) : LengthInv t := by
  cases h with
  | reset | released => exact .inl rfl
  | devchgResized t _ hsize =>
    obtain ⟨hcap, hlen⟩ := resize_requiredLength hsize
    have hp : t.params = s.params := by rw [resize_frame hsize]
    exact .inr ⟨by rw [devchgDone_dlLen, hlen]; exact requiredLength_powerOfTwo _,
      by rw [devchgDone_dlLen, devchgDone_params, hlen, hp]; exact hcap⟩
  | updated => rw [translate_frame]; exact hs
  | devchgFailed | devchgKept | processed | setWaveform | setPhase | setRate | setDepth | setFeedback | setDelay
  | gotParam | raised => exact hs

theorem CommandDid.flagInv {s t : State} (h : CommandDid s t) (hs : FlagInv s) : FlagInv t := by
  cases h with
  | reset | released | devchgFailed => exact flagInv_of_not_configured rfl rfl
  | devchgKept hrate hlen => exact ⟨nofun, fun _ => ⟨hrate, hlen.symm⟩⟩
  | devchgResized t hrate hsize =>
    obtain ⟨-, hlen⟩ := resize_requiredLength hsize
    have ha : t.arg = s.arg := by rw [resize_frame hsize]
    refine ⟨nofun, fun _ => ?_⟩
    rw [devchgDone_srate, devchgDone_dlLen, ha]
    exact ⟨hrate, hlen⟩
  | updated hconf => rw [translate_frame]; exact ⟨fun _ => hconf, hs.2⟩
  | processed | setWaveform | setPhase | setRate | setDepth | setFeedback | setDelay | gotParam | raised => exact hs

theorem CommandDid.paramInv {s t : State} (h : CommandDid s t) (hs : ParamInv s) : ParamInv t := by
  obtain ⟨hw, hp, hr, hd, hf, hl⟩ := hs
  cases h with
  | reset => exact paramInv_reset
  | setWaveform h => exact ⟨h, hp, hr, hd, hf, hl⟩
  | setPhase h => exact ⟨hw, h, hr, hd, hf, hl⟩
  | setRate h => exact ⟨hw, hp, h, hd, hf, hl⟩
  | setDepth h => exact ⟨hw, hp, hr, h, hf, hl⟩
  | setFeedback h => exact ⟨hw, hp, hr, hd, h, hl⟩
  | setDelay h => exact ⟨hw, hp, hr, hd, hf, h⟩
  | devchgResized t _ hsize =>
    rw [resize_frame hsize]
    exact ⟨hw, hp, hr, hd, hf, hl⟩
  | updated => rw [translate_frame]; exact ⟨hw, hp, hr, hd, hf, hl⟩
  | released | devchgFailed | devchgKept | processed | gotParam | raised => exact ⟨hw, hp, hr, hd, hf, hl⟩

/-- Settles O58: a store of the host writes none of these registers, and each command keeps each of the three. -/
theorem stepKeepsRegistersLegal : Obligations.StepKeepsRegistersLegal := by
  refine fun s t hs h => step_keeps (P := fun s => LengthInv s ∧ FlagInv s ∧ ParamInv s) ?_ ?_ ?_ hs h
  · exact fun _ _ _ hs => hs
  · intro s w a t hs hst
    cases hst <;> exact hs
  · rintro s t ⟨hlen, hflag, hparam⟩ hdid
    exact ⟨hdid.lengthInv hlen, hdid.flagInv hflag, hdid.paramInv hparam⟩

/-! ### The run-time coefficients -/

/-- UPDATE on a configured core with legal parameters leaves the cycle length, the phase offset and the waveform in
their ranges (R40, R42, R43). -/
theorem lfoInv_translate {s : State} (hconf : s.status.configured = true) (hflag : FlagInv s) (hparam : ParamInv s) :
    LfoInv (translate s) := by
  obtain ⟨hwave, hphase, hrate, -⟩ := hparam
  have hwaveRt : (translate s).waveRt = s.pWaveform := by rw [translate_frame]
  rw [LfoInv, hwaveRt]
  cases hpos : flt posZero s.pRate with
  | false =>
    obtain ⟨hcycle, -, hoff⟩ := translate_lfo_of_no_rate hpos
    rw [hcycle, hoff]
    exact ⟨by decide, by decide, by decide, hwave⟩
  | true =>
    obtain ⟨hcycle, -, hoff⟩ := translate_lfo_of_rate hpos
    obtain ⟨hlow, hhigh⟩ := cycleLength_bounds (hflag.2 hconf).1 hrate hpos
    rw [hcycle, hoff]
    exact ⟨by omega, hhigh, phaseOffset_le (by omega) hphase, hwave⟩

theorem CommandDid.lfoInv {s t : State} (h : CommandDid s t) (hflag : FlagInv s) (hparam : ParamInv s)
    (hs : LfoInv s) : LfoInv t := by
  cases h with
  | reset => exact lfoInv_reset
  | devchgResized t _ hsize => rw [resize_frame hsize]; exact hs
  | updated hconf => exact lfoInv_translate hconf hflag hparam
  | released | devchgFailed | devchgKept | processed | setWaveform | setPhase | setRate | setDepth | setFeedback
  | setDelay | gotParam | raised => exact hs

/-- UPDATE on a configured core with legal parameters leaves the coefficients in the ranges of R131. -/
theorem coeffInv_translate {s : State} (hconf : s.status.configured = true) (hflag : FlagInv s) (hparam : ParamInv s) :
    CoeffInv (translate s) := by
  obtain ⟨-, -, hrate, hdepth, hfeedback, hdelay⟩ := hparam
  obtain ⟨hsrate, hlen⟩ := hflag.2 hconf
  obtain ⟨hbase, hline⟩ := baseDelay_bounds hdelay hsrate
  obtain ⟨⟨hfin, hneg⟩, hle⟩ := depth_bounds hdepth (hbase.trans_lt (by norm_num))
  have hlfo : ((translate s).cycleLen = 1#32 ∧ (translate s).lfoScale = posZero ∧ (translate s).phaseOff = 0#32) ∨
      (800 ≤ (translate s).cycleLen.toNat ∧ (translate s).lfoScale = scaleFor s.pWaveform (translate s).cycleLen) := by
    cases hpos : flt posZero s.pRate with
    | false => exact .inl (translate_lfo_of_no_rate hpos)
    | true =>
      obtain ⟨hcycle, hscale, -⟩ := translate_lfo_of_rate hpos
      rw [hscale, hcycle]
      exact .inr ⟨(cycleLength_bounds hsrate hrate hpos).1, rfl⟩
  rw [translate_frame]
  exact fun _ => ⟨hline.trans hlen.ge, hbase, hfin, hle, hneg, hfeedback, hlfo⟩

theorem CommandDid.coeffInv {s t : State} (h : CommandDid s t) (hflag : FlagInv s) (hparam : ParamInv s)
    (hs : CoeffInv s) : CoeffInv t := by
  cases h with
  | reset | released | devchgFailed | devchgKept | devchgResized => exact coeffInv_of_not_updated rfl
  | updated hconf => exact coeffInv_translate hconf hflag hparam
  | processed | setWaveform | setPhase | setRate | setDepth | setFeedback | setDelay | gotParam | raised => exact hs

/-! ### The buffers -/

/-- A store of the host's word at an implemented IN or OUT word keeps the buffers' form. -/
theorem Stored.bufferInv {s t : State} {w : Word} {a : Nat} (h : Stored w s (targetOf s.params a) t)
    (hs : BufferInv s) : BufferInv t := by
  obtain ⟨hwf, hin⟩ := hs
  have hword {base : Nat} (hbase : ∀ x, base ≤ x ∧ x < base + 4 → inBufferWindow x) :
      BufferInv { s with mem := putWord base w s.mem } :=
    ⟨memoryWf_putWord hwf _ _, fun c hc => (mem_putWord hc).elim (hbase c.1) (hin c)⟩
  cases h with
  | ignored | toArg | toGain0 | toGain1 => exact ⟨hwf, hin⟩
  | toIn i htg =>
    have hi := targetOf_inWord_bound htg
    have := s.params.maxBlock.isLt
    refine hword fun x hx => .inl ?_
    unfold inAddr inBase at *
    omega
  | toOut c i htg =>
    obtain ⟨hc, hi⟩ := targetOf_outWord_bound htg
    have := s.params.maxBlock.isLt
    have := s.params.nchMax.isLt
    refine hword fun x hx => .inr (.inl ?_)
    unfold outAddr outBase at *
    omega

theorem bufferInv_clearDl {s : State} (count : Nat) (hs : BufferInv s) :
    BufferInv { s with mem := clearDl count s.mem } :=
  ⟨memoryWf_clearDl _ hs.1, fun c hc => hs.2 c (mem_forgetRange hc)⟩

/-- A line that a configured core has is a power of two of words in the RAM (R115, R117). -/
theorem configured_line {s : State} (hconf : s.status.configured = true) (hlen : LengthInv s) (hflag : FlagInv s) :
    PowerOfTwo s.dlLen.toNat ∧ s.dlLen.toNat ≤ s.params.dlCap := by
  have hpos := requiredLength_pos s.srate
  have heq := (hflag.2 hconf).2
  exact hlen.resolve_left (by omega)

/-- PROCESS stores inside the windows: DL slots of the RAM and implemented OUT words (R169). -/
theorem bufferInv_processed {s : State} {n nch : Nat} {wk : Work} (hblock : legalBlock s.params n nch = true)
    (hready : ready s = true)
    (hrun : runSubBlocks s nch (subBlocks n) { mem := s.mem, cursor := s.cursor } = .ok wk)
    (hlen : LengthInv s) (hflag : FlagInv s) (hs : BufferInv s) :
    memoryWf wk.mem = true ∧ ∀ c ∈ wk.mem, inBufferWindow c.1 := by
  simp only [legalBlock, Bool.and_eq_true, decide_eq_true_eq] at hblock
  simp only [ready, Bool.and_eq_true] at hready
  obtain ⟨hpow, hcap⟩ := configured_line hready.1 hlen hflag
  obtain ⟨-, hkeeps⟩ := runSubBlocks_keeps (subBlocks_chained n) hrun
  have hram := dlCap_le s.params
  have := s.params.maxBlock.isLt
  have := s.params.nchMax.isLt
  refine ⟨hkeeps.wf hs.1, fun cell hcell => ?_⟩
  rcases hkeeps.listed cell hcell with (⟨line, j, hline, -, hw⟩ | ⟨c, hc, -, j, hj, hw⟩) | hold
  · have hslot := dlSlot_lt hpow hcap hline (s.cursor + BitVec.ofNat 32 j)
    unfold inWord dlAddr dlBase at hw
    dsimp only at hw
    exact .inr (.inr (by unfold dlBase busEnd; omega))
  · unfold inWord outAddr outBase at hw
    exact .inr (.inl (by unfold outBase; omega))
  · exact hs.2 cell hold

theorem CommandDid.bufferInv {s t : State} (h : CommandDid s t) (hlen : LengthInv s) (hflag : FlagInv s)
    (hs : BufferInv s) : BufferInv t := by
  cases h with
  | devchgKept => exact bufferInv_clearDl _ hs
  | devchgResized t _ hsize =>
    obtain ⟨-, rfl⟩ := resize_eq_some_iff.1 hsize
    exact bufferInv_clearDl _ (bufferInv_clearDl _ hs)
  | processed n nch wk hblock hready hrun => exact bufferInv_processed hblock hready hrun hlen hflag hs
  | updated => rw [translate_frame]; exact hs
  | reset | released | devchgFailed | setWaveform | setPhase | setRate | setDepth | setFeedback | setDelay | gotParam
  | raised => exact hs

/-- Settles O59: a store of the host keeps the buffers' form and no register of the invariants, and each command keeps
each invariant. -/
theorem stepKeepsInvariants : Obligations.StepKeepsInvariants := by
  refine fun s t hs h => step_keeps (P := Inv) ?_ ?_ ?_ hs h
  · exact fun _ _ _ hs => hs
  · rintro s w a t ⟨hlen, hflag, hparam, hlfo, hbuf, hcoeff⟩ hst
    have hbuf' := hst.bufferInv hbuf
    cases hst <;> exact ⟨hlen, hflag, hparam, hlfo, hbuf', hcoeff⟩
  · rintro s t ⟨hlen, hflag, hparam, hlfo, hbuf, hcoeff⟩ hdid
    exact ⟨hdid.lengthInv hlen, hdid.flagInv hflag, hdid.paramInv hparam, hdid.lfoInv hflag hparam hlfo,
      hdid.bufferInv hlen hflag hbuf, hdid.coeffInv hflag hparam hcoeff⟩

end Sys2Proof.Machine
end

section
/-!
SUPPORT. Proofs of the statements of 10_state.md on ARG and the gains, STATUS, power-on, and the step that runs a
command.
-/
namespace Sys2Proof.Machine

open Sys2Proof.Safety

/-! ### Command words placed by the host -/

/-- The low 32 bits of a word's number are the word. -/
@[simp] theorem tableWord_toNat (w : Word) : tableWord 32 w.toNat = w := by
  rw [tableWord, Nat.mod_eq_of_lt w.isLt, BitVec.ofNat_toNat, BitVec.setWidth_eq]

theorem runCommand_of_valid {w : Word} {i : Instr} (h : decode w = .ok i) (s : State) : runCommand w s = exec i s := by
  rw [runCommand, h]

/-- Settles O5: the write to CMD runs the command that its word decodes to. -/
theorem stepRunsHostCommand : Obligations.StepRunsHostCommand := by
  have hstep (s : State) (w : Word) (i : Instr) (rest : List BusAccess) (hh : s.host = .write .word 0 w :: rest)
      (hd : decode w = .ok i) : step s = exec i { s with host := rest } := by
    rw [step_command hh, runCommand_of_valid hd]
  refine ⟨hstep, fun s w i hd => ?_⟩
  exact hstep (s.withFetchWord 32 w.toNat) w i s.host (by rw [State.withFetchWord, tableWord_toNat]) hd

/-! ### Gain entries -/

/-- A stored gain entry is the one read, and the only one changed. -/
theorem gainAt_setIfInBounds (v : Vector Word 16) {c : Nat} (hc : c < 16) (w : Word) (k : Nat) :
    gainAt (v.setIfInBounds c w) k = if k = c then w else gainAt v k := by
  unfold gainAt
  rw [Vector.getElem?_setIfInBounds]
  by_cases h : c = k
  · subst h; simp [hc]
  · simp [h, Ne.symm h]

theorem gainAt_silentGains (c : Nat) : gainAt silentGains c = 0#32 := by
  unfold gainAt silentGains
  rw [Vector.getElem?_replicate]
  split <;> rfl

/-- Storing a word at a gain entry changes that entry alone, of the two lines' gains. -/
theorem storeTarget_gainIn {s : State} {line c : Nat} (hl : line < 2) (hc : c < 16) (w : Word) :
    storeTarget w s (.gainIn line c) =
        { s with
          gainIn0 := (storeTarget w s (.gainIn line c)).gainIn0
          gainIn1 := (storeTarget w s (.gainIn line c)).gainIn1 } ∧
      ∀ l k, l < 2 → gainInAt (storeTarget w s (.gainIn line c)) l k =
        if l = line ∧ k = c then w else gainInAt s l k := by
  unfold storeTarget gainInAt
  interval_cases line
  · refine ⟨rfl, fun l k hl' => ?_⟩
    interval_cases l
    · simp [gainAt_setIfInBounds _ hc]
    · simp
  · refine ⟨rfl, fun l k hl' => ?_⟩
    interval_cases l
    · simp
    · simp [gainAt_setIfInBounds _ hc]

theorem targetOf_arg (p : Params) : targetOf p 4 = .arg := rfl

/-- Settles O14: the address map names ARG and the gain entries, and each store or read is of the word there. -/
theorem argAndGainWritesStored : Obligations.ArgAndGainWritesStored := by
  refine ⟨fun s w rest hh => ?_, fun s line c w rest hl hc => ⟨fun hh => ?_, fun hh => ?_, fun hh => ?_⟩⟩
  · exact step_store hh (by norm_num) (by norm_num) (by rw [targetOf_arg]; nofun)
  · have hc16 : c < 16 := by have := s.params.nchMax.isLt; omega
    have hstep := step_store hh (by omega) (by omega) (by rw [targetOf_gainIn hl hc]; nofun)
    rw [targetOf_gainIn hl hc] at hstep
    obtain ⟨hframe, hgains⟩ := storeTarget_gainIn (s := { s with host := rest }) hl hc16 w
    exact ⟨_, hstep, hframe, fun l k hl' _ => hgains l k hl'⟩
  · rw [step_read hh (by omega) (by omega), targetOf_gainIn hl hc]
    interval_cases line <;> rfl
  · rw [step_read hh (by omega) (by omega), targetOf_gainRt hl hc]
    interval_cases line <;> rfl

/-! ### STATUS as a word (R23) -/

theorem errNumber_le (e : ErrCode) : errNumber e ≤ 5 := by cases e <;> decide

/-- STATUS as a number: ERR, then each flag at its weight. -/
theorem statusWord_toNat (st : Status) :
    (statusWord st).toNat = errNumber st.err + 2 ^ 8 * st.configured.toNat + 2 ^ 9 * st.updated.toNat
      + 2 ^ 10 * st.cfgFailed.toNat := by
  have hflag (b : Bool) (n : Nat) : (if b then n else 0) = n * b.toNat := by cases b <;> simp
  have herr := errNumber_le st.err
  have hc := st.configured.toNat_le
  have hu := st.updated.toNat_le
  have hf := st.cfgFailed.toNat_le
  rw [statusWord, BitVec.toNat_ofNat, hflag, hflag, hflag]
  omega

theorem statusWord_field_toNat (st : Status) (lo len : Nat) :
    ((statusWord st).extractLsb' lo len).toNat = (statusWord st).toNat / 2 ^ lo % 2 ^ len := by
  rw [BitVec.extractLsb'_toNat, Nat.shiftRight_eq_div_pow]

/-- Settles O19: each field is a quotient and a remainder of the number STATUS is. -/
theorem statusWordLayout : Obligations.StatusWordLayout := by
  refine ⟨⟨rfl, rfl, rfl, rfl, rfl, rfl⟩, fun st => ?_⟩
  have hword := statusWord_toNat st
  have herr := errNumber_le st.err
  have hc := st.configured.toNat_le
  have hu := st.updated.toNat_le
  have hf := st.cfgFailed.toNat_le
  have hbit (b : Bool) (i : Nat) (h : (statusWord st).toNat / 2 ^ i % 2 = b.toNat) :
      (statusWord st).getLsbD i = b := by
    rw [BitVec.getLsbD, Nat.testBit_eq_decide_div_mod_eq, h]
    cases b <;> rfl
  refine ⟨?_, herr, BitVec.eq_of_toNat_eq ?_, hbit _ 8 ?_, hbit _ 9 ?_, hbit _ 10 ?_, BitVec.eq_of_toNat_eq ?_⟩
  · rw [statusWord_field_toNat]; omega
  · rw [statusWord_field_toNat, BitVec.toNat_ofNat]; omega
  · omega
  · omega
  · omega
  · rw [statusWord_field_toNat, BitVec.toNat_ofNat]; omega

/-! ### Power-on (R51) -/

theorem unlisted_below_dl {a : Nat} (h : a < 0x40000) : unlisted a = none :=
  if_neg fun hc => by unfold dlBase at hc; omega

/-- Settles O20: the register values of R51, no listed byte, and a RESET that keeps the buffers. -/
theorem powerOnValues : Obligations.PowerOnValues := by
  refine ⟨rfl, rfl, rfl, rfl, rfl, rfl, rfl, rfl, rfl, rfl, rfl, rfl, rfl, rfl, rfl, rfl, rfl, rfl, ?_, ?_, ?_⟩
  · intro c _
    have h := gainAt_silentGains c
    exact ⟨h, h, h, h⟩
  · exact fun a ha => unlisted_below_dl ha
  · exact fun t => ⟨_, rfl, rfl⟩

end Sys2Proof.Machine
end

section
/-!
SUPPORT. Proof that every step keeps the buffers in their form (20_memory.md R61, R69): whatever the length of the
lines, PROCESS stores only where writeDl finds a word of the RAM and where the mixer names an implemented OUT word.
-/
namespace Sys2Proof.Machine

open Sys2Proof.Safety

/-! ### The words the core may store -/

theorem inBufferWindow_out {c i a : Nat} (hc : c < 16) (hi : i < 2048) (h : inWord (outAddr c i) a) :
    inBufferWindow a := by
  unfold inWord outAddr outBase at h
  exact .inr (.inl (by unfold outBase; omega))

theorem inBufferWindow_dl {k a : Nat} (hk : k < 65536) (h : inWord (dlAddr k) a) : inBufferWindow a := by
  unfold inWord dlAddr dlBase at h
  exact .inr (.inr (by unfold dlBase busEnd; omega))

/-- An operation that stores inside the windows keeps the buffers' form. -/
theorem bufferInv_of_keeps {s t : State} (h : Keeps inBufferWindow s.mem t.mem) (hs : BufferInv s) : BufferInv t :=
  ⟨h.wf hs.1, fun c hc => (h.listed c hc).elim id (hs.2 c)⟩

/-! ### PROCESS, loop by loop -/

theorem combStep_keepsWindows {s : State} {cur x d : Word} {line : Nat} {m m' : Memory} {wet : Word}
    (h : combStep s cur line x d m = .ok (m', wet)) : Keeps inBufferWindow m m' := by
  obtain ⟨hslot, -⟩ := combStep_ok h
  have hram := dlCap_le s.params
  exact (combStep_keeps h).mono fun _ => inBufferWindow_dl (by omega)

theorem runSamples_keepsWindows {s : State} {ds : List (Word × Word)} {i : Nat} {wk wk' : Work}
    {ws : List (Word × Word)} (h : runSamples s i ds wk = .ok (wk', ws)) : Keeps inBufferWindow wk.mem wk'.mem := by
  induction ds generalizing i wk ws with
  | nil => cases h; exact .refl _ _
  | cons d ds ih =>
    rw [runSamples] at h
    obtain ⟨⟨wk1, w⟩, hsample, h⟩ := except_bind_ok_iff.1 h
    obtain ⟨⟨wk2, ws2⟩, hrest, h⟩ := except_bind_ok_iff.1 h
    cases except_pure_ok_iff.1 h
    obtain ⟨x, m0, -, hline0, hline1, -⟩ := sampleStep_ok hsample
    exact ((combStep_keepsWindows hline0).trans (combStep_keepsWindows hline1)).trans (ih hrest)

theorem subBlock_keepsWindows {s : State} {nch : Nat} {blk : Nat × Nat} {wk wk' : Work} (hnch : nch ≤ 16)
    (hblk : blk.1 + blk.2 ≤ 2048) (h : subBlock s nch blk wk = .ok wk') : Keeps inBufferWindow wk.mem wk'.mem := by
  obtain ⟨wk1, wet, hrun, hmix, -⟩ := subBlock_ok h
  have hlen : wet.length = blk.2 := (runSamples_keeps hrun).1.trans (blockDelays_length _ _ _)
  refine (runSamples_keepsWindows hrun).trans ((mixChannels_keeps (nch := nch) (by simp) hmix).mono ?_)
  rintro a ⟨c, hc, -, j, hj, hw⟩
  exact inBufferWindow_out (by omega) (by omega) hw

theorem runSubBlocks_keepsWindows {s : State} {nch : Nat} {bs : List (Nat × Nat)} {wk wk' : Work} (hnch : nch ≤ 16)
    (hbs : ∀ blk ∈ bs, blk.1 + blk.2 ≤ 2048) (h : runSubBlocks s nch bs wk = .ok wk') :
    Keeps inBufferWindow wk.mem wk'.mem := by
  induction bs generalizing wk with
  | nil => cases h; exact .refl _ _
  | cons blk bs ih =>
    rw [runSubBlocks] at h
    obtain ⟨wk1, hblk, hrest⟩ := except_bind_ok_iff.1 h
    exact (subBlock_keepsWindows hnch (hbs blk (by simp)) hblk).trans (ih (fun b hb => hbs b (by simp [hb])) hrest)

/-- Every sub-block ends within the block (R161). -/
theorem subBlocks_within {n : Nat} {blk : Nat × Nat} (h : blk ∈ subBlocks n) : blk.1 + blk.2 ≤ n := by
  simp only [subBlocks, Config.subBlock, List.mem_map, List.mem_range] at h
  obtain ⟨j, hj, rfl⟩ := h
  dsimp only
  omega

theorem legalBlock_bounds {p : Params} {n nch : Nat} (h : legalBlock p n nch = true) : n ≤ 2048 ∧ nch ≤ 16 := by
  simp only [legalBlock, Bool.and_eq_true, decide_eq_true_eq] at h
  have := p.maxBlock.isLt
  have := p.nchMax.isLt
  omega

/-! ### Every command, and every step -/

/-- A command keeps the buffers' form in any state, one with a line longer than the RAM too. -/
theorem CommandDid.bufferInv_of_any_length {s t : State} (h : CommandDid s t) (hs : BufferInv s) : BufferInv t := by
  cases h with
  | devchgKept => exact bufferInv_clearDl _ hs
  | devchgResized t _ hsize =>
    obtain ⟨-, rfl⟩ := resize_eq_some_iff.1 hsize
    exact bufferInv_clearDl _ (bufferInv_clearDl _ hs)
  | processed n nch wk hblock _ hrun =>
    obtain ⟨hn, hnch⟩ := legalBlock_bounds hblock
    exact bufferInv_of_keeps (runSubBlocks_keepsWindows hnch (fun _ hb => (subBlocks_within hb).trans hn) hrun) hs
  | updated => rw [translate_frame]; exact hs
  | reset | released | devchgFailed | setWaveform | setPhase | setRate | setDepth | setFeedback | setDelay | gotParam
  | raised => exact hs

/-- Settles O57: a store of the host and every command keep the form, with no other invariant needed. -/
theorem stepKeepsBuffersCanonical : Obligations.StepKeepsBuffersCanonical := fun _ _ =>
  step_keeps (P := BufferInv) (fun _ _ _ hs => hs) (fun _ _ _ _ hs hst => hst.bufferInv hs)
    (fun _ _ hs hdid => hdid.bufferInv_of_any_length hs)

end Sys2Proof.Machine
end

section
/-!
SUPPORT. Proofs of the statements of 20_memory.md on the host bus: which accesses have a step, what each word of the
map reads and stores, and the byte order of a buffer word.
-/
namespace Sys2Proof.Machine

open Sys2Proof.Safety

/-! ### Accesses with no step (R66) -/

/-- An access R66 leaves undefined breaks one of the three conditions. -/
theorem accessFault_undefined {width : Width} {a : Nat} (h : width ≠ .word ∨ a % 4 ≠ 0 ∨ 0x80000 ≤ a) :
    accessFault width a = some .busWidth ∨ accessFault width a = some .busMisaligned ∨
      accessFault width a = some .busOutside := by
  unfold accessFault busEnd
  split_ifs with hw h4 hb
  · exact .inl rfl
  · exact .inr (.inl rfl)
  · exact .inr (.inr rfl)
  · exact absurd h (by simp only [not_or]; exact ⟨hw, h4, hb⟩)

theorem step_fault {s : State} {width : Width} {a : Nat} {w : Word} {rest : List BusAccess} {f : Fault}
    (hf : accessFault width a = some f) (hh : s.host = .read width a :: rest ∨ s.host = .write width a w :: rest) :
    step s = .fault f := by
  rcases hh with hh | hh <;> simp only [step, hostStep, hh, perform, hf]

/-- Settles O9: the access has a fault, and the step is that fault. -/
theorem undefinedAccessStops : Obligations.UndefinedAccessStops := fun _ _ _ _ _ hundef hh =>
  (accessFault_undefined hundef).imp (step_fault · hh) (.imp (step_fault · hh) (step_fault · hh))

/-! ### Reads (R67) -/

/-- What a read returns does not depend on what the host has to do or has read. -/
theorem readTarget_traffic (s : State) (accs : List BusAccess) (log : List Word) (tg : Target) :
    readTarget { s with host := accs, readLog := log } tg = readTarget s tg := by
  cases tg with
  | run r => cases r <;> rfl
  | cmd | arg | status | gainIn _ _ | gainRt _ _ | inWord _ | outWord _ _ | dlWord _ | reserved => rfl

/-- An accepted read records the word at its address and changes nothing else. -/
theorem step_read_returns {s : State} {a : Nat} {v : Word} {rest : List BusAccess}
    (hh : s.host = .read .word a :: rest) (h4 : a % 4 = 0) (h : a < 0x80000)
    (hv : readTarget s (targetOf s.params a) = v) :
    step s = .next { s with host := rest, readLog := v :: s.readLog } := by
  rw [step_read hh h4 h, ← hv]
  exact congrArg (fun x => Host.Outcome.next { s with host := rest, readLog := x :: s.readLog })
    (readTarget_traffic s rest s.readLog _)

/-- Settles O10: the word is the one at the address, before and after the first read. -/
theorem readsAreHarmlessAndIdempotent : Obligations.ReadsAreHarmlessAndIdempotent := fun s a _ h4 h hh =>
  ⟨readTarget s (targetOf s.params a), step_read_returns hh h4 h rfl,
    step_read_returns rfl h4 h (readTarget_traffic s _ _ _)⟩

/-- Settles O11: each address is that of its register in the map. -/
theorem registerMapReads : Obligations.RegisterMapReads := by
  intro s a v rest hmem hh
  have hreg : a % 4 = 0 ∧ a < 0x80000 ∧ readTarget s (targetOf s.params a) = v := by
    simp only [List.mem_cons, List.not_mem_nil, or_false, Prod.mk.injEq] at hmem
    rcases hmem with ⟨rfl, rfl⟩ | ⟨rfl, rfl⟩ | ⟨rfl, rfl⟩ | ⟨rfl, rfl⟩ | ⟨rfl, rfl⟩ | ⟨rfl, rfl⟩ | ⟨rfl, rfl⟩ |
      ⟨rfl, rfl⟩ | ⟨rfl, rfl⟩ | ⟨rfl, rfl⟩ | ⟨rfl, rfl⟩ | ⟨rfl, rfl⟩ | ⟨rfl, rfl⟩ | ⟨rfl, rfl⟩ <;>
    exact ⟨rfl, by norm_num, rfl⟩
  obtain ⟨h4, h, hv⟩ := hreg
  exact step_read_returns hh h4 h hv

/-! ### Reserved and read-only words (R61, R67) -/

theorem lowTarget_reserved {n : Nat} (h : n = 3 ∨ 14 ≤ n) : lowTarget n = .reserved := by
  unfold lowTarget
  split <;> first | omega | rfl

/-- Past the last implemented word of IN all is reserved up to OUT (R61). -/
theorem targetOf_past_in {p : Params} {a : Nat} (h : 0x1000 + 4 * p.maxBlock.val ≤ a) (h' : a < 0x4000) :
    targetOf p a = .reserved := by
  unfold targetOf inBase outBase
  split_ifs <;> first | omega | rfl

/-- The gaps of the map between the windows (R61). -/
theorem targetOf_gap {p : Params} {a : Nat} (h : (0x180 ≤ a ∧ a < 0x1000) ∨ (0x24000 ≤ a ∧ a < 0x40000)) :
    targetOf p a = .reserved := by
  unfold targetOf inBase outBase dlBase
  split_ifs <;> first | omega | rfl

/-- Below the gains the map is that of the named registers (R61). -/
theorem targetOf_low {p : Params} {a : Nat} (h : a < 0x80) : targetOf p a = lowTarget (a / 4) := if_pos h

/-- The words past the last implemented entry of a window are reserved (R61). -/
theorem targetOf_pastLastEntry {p : Params} {a : Nat} (h : pastLastEntry p a) :
    a % 4 = 0 ∧ a < 0x80000 ∧ targetOf p a = .reserved := by
  obtain ⟨line, c, hl, hc, hc', rfl | rfl⟩ | ⟨i, hi, hi', rfl⟩ | ⟨c, i, hc, hi, hpast, rfl⟩ := h
  · exact ⟨by omega, by omega, targetOf_past_gain (.inl rfl) hl hc hc'⟩
  · exact ⟨by omega, by omega, targetOf_past_gain (.inr rfl) hl hc hc'⟩
  · exact ⟨by omega, by omega, targetOf_past_in (by omega) (by omega)⟩
  · exact ⟨by omega, by omega, targetOf_past_out hc hi hpast⟩
/-- Settles O12: each range of the statement is reserved in the map, and a reserved word reads 0. -/
theorem reservedWordsReadZero : Obligations.ReservedWordsReadZero := by
  intro s a rest h4 hrange hh
  have hres : a < 0x80000 ∧ targetOf s.params a = .reserved := by
    have := s.params.maxBlock.isLt
    rcases hrange with rfl | h | h | h | h | h
    · exact ⟨by norm_num, rfl⟩
    · exact ⟨by omega, by rw [targetOf_low h.2]; exact lowTarget_reserved (by omega)⟩
    · exact ⟨by omega, targetOf_gap (.inl h)⟩
    · exact ⟨by omega, targetOf_past_in h.1 h.2⟩
    · exact ⟨by omega, targetOf_gap (.inr h)⟩
    · exact (targetOf_pastLastEntry h).2
  obtain ⟨hlt, htg⟩ := hres
  exact step_read_returns hh h4 hlt (by rw [htg]; rfl)

/-- The targets whose writes R67 has ignored. -/
def Target.ignoresWrites : Target → Prop
  | .status | .run _ | .gainRt _ _ | .dlWord _ | .reserved => True
  | .cmd | .arg | .gainIn _ _ | .inWord _ | .outWord _ _ => False

theorem storeTarget_ignored {tg : Target} (h : tg.ignoresWrites) (w : Word) (s : State) : storeTarget w s tg = s := by
  cases tg with
  | status | run _ | gainRt _ _ | dlWord _ | reserved => rfl
  | cmd | arg | gainIn _ _ | inWord _ | outWord _ _ => exact h.elim

/-- A write to such a target changes nothing. -/
theorem step_write_ignored {s : State} {a : Nat} {w : Word} {rest : List BusAccess}
    (hh : s.host = .write .word a w :: rest) (h4 : a % 4 = 0) (h : a < 0x80000)
    (hro : (targetOf s.params a).ignoresWrites) : step s = .next { s with host := rest } := by
  rw [step_store hh h4 h fun hcmd => by rw [hcmd] at hro; exact hro, storeTarget_ignored hro]

/-- Of the named registers only CMD and ARG take a write. -/
theorem lowTarget_ignoresWrites {n : Nat} (h : 2 ≤ n) : (lowTarget n).ignoresWrites := by
  unfold lowTarget
  split <;> first | omega | trivial

theorem targetOf_gainRt_ignoresWrites {p : Params} {a : Nat} (h : 0x100 ≤ a) (h' : a < 0x180) :
    (targetOf p a).ignoresWrites := by
  unfold targetOf
  split_ifs <;> first | omega | trivial

theorem targetOf_dl_ignoresWrites {p : Params} {a : Nat} (h : 0x40000 ≤ a) : (targetOf p a).ignoresWrites := by
  unfold targetOf inBase outBase dlBase
  split_ifs <;> first | omega | trivial

/-- Settles O13: each range of the statement holds read-only and reserved words alone. -/
theorem readOnlyWritesIgnored : Obligations.ReadOnlyWritesIgnored := by
  intro s a w rest h4 hrange hh
  have hres {a : Nat} (h : targetOf s.params a = .reserved) : (targetOf s.params a).ignoresWrites := by
    rw [h]; trivial
  have hro : a < 0x80000 ∧ (targetOf s.params a).ignoresWrites := by
    rcases hrange with h | h | h | h | h
    · exact ⟨by omega, by rw [targetOf_low h.2]; exact lowTarget_ignoresWrites (by omega)⟩
    · refine ⟨by omega, ?_⟩
      rcases Nat.lt_or_ge a 0x180 with hlt | hge
      · exact targetOf_gainRt_ignoresWrites h.1 hlt
      · exact hres (targetOf_gap (.inl ⟨hge, h.2⟩))
    · exact ⟨by omega, hres (targetOf_past_in h.1 h.2)⟩
    · refine ⟨by omega, ?_⟩
      rcases Nat.lt_or_ge a 0x40000 with hlt | hge
      · exact hres (targetOf_gap (.inr ⟨h.1, hlt⟩))
      · exact targetOf_dl_ignoresWrites hge
    · obtain ⟨-, hlt, htg⟩ := targetOf_pastLastEntry h
      exact ⟨hlt, hres htg⟩
  obtain ⟨hlt, hign⟩ := hro
  exact step_write_ignored hh h4 hlt hign

/-! ### The words of IN and OUT (R62, R63, R65) -/

/-- A word held is the word a host read sees. -/
theorem visibleWord_of_wordAt {m : Memory} {a : Nat} {w : Word} (h : wordAt m a = some w) : visibleWord m a = w := by
  unfold wordAt at h
  split at h
  · next h0 h1 h2 h3 =>
    cases h
    simp only [visibleWord, visibleByte, h0, h1, h2, h3, Option.getD_some]
  · cases h

/-- A word of IN or OUT by its address and its target (R62, R63). -/
inductive IsBufferWord : Nat → Target → Prop
  | inWord (i : Nat) : IsBufferWord (inAddr i) (.inWord i)
  | outWord (c i : Nat) : IsBufferWord (outAddr c i) (.outWord c i)

theorem IsBufferWord.storeTarget {a : Nat} {tg : Target} (hb : IsBufferWord a tg) (w : Word) (s : State) :
    storeTarget w s tg = { s with mem := putWord a w s.mem } := by
  cases hb <;> rfl

theorem IsBufferWord.readTarget {a : Nat} {tg : Target} (hb : IsBufferWord a tg) (s : State) :
    readTarget s tg = visibleWord s.mem a := by
  cases hb <;> rfl

theorem IsBufferWord.ne_cmd {a : Nat} {tg : Target} (hb : IsBufferWord a tg) : tg ≠ .cmd := by
  cases hb <;> nofun

section
variable {s : State} {a : Nat} {w : Word} {rest : List BusAccess}

/-- A host write of a buffer word stores that word, and no other byte changes. -/
theorem step_write_bufferWord (hb : IsBufferWord a (targetOf s.params a)) (h4 : a % 4 = 0) (h : a < 0x80000)
    (hwf : memoryWf s.mem = true) (hh : s.host = .write .word a w :: rest) :
    ∃ t, step s = .next t ∧ t = { s with host := rest, mem := t.mem } ∧ wordAt t.mem a = some w ∧
      ∀ x, ¬ inWord a x → byteAt t.mem x = byteAt s.mem x := by
  have hstep := step_store hh h4 h hb.ne_cmd
  rw [hb.storeTarget] at hstep
  exact ⟨_, hstep, rfl, wordAt_putWord_same hwf a w, (keeps_putWord a w s.mem).frame⟩

/-- A host read of a buffer word returns the word held there. -/
theorem step_read_bufferWord (hb : IsBufferWord a (targetOf s.params a)) (h4 : a % 4 = 0) (h : a < 0x80000)
    (hw : wordAt s.mem a = some w) (hh : s.host = .read .word a :: rest) :
    step s = .next { s with host := rest, readLog := w :: s.readLog } :=
  step_read_returns hh h4 h ((hb.readTarget s).trans (visibleWord_of_wordAt hw))

end

/-- Settles O15: IN[i] is the buffer word at its address. -/
theorem inWindowStoresAndReturns : Obligations.InWindowStoresAndReturns := by
  intro s i w rest hi
  have := s.params.maxBlock.isLt
  have hb : IsBufferWord (0x1000 + 4 * i) (targetOf s.params (0x1000 + 4 * i)) := by
    rw [targetOf_inWord hi]
    exact .inWord i
  exact ⟨step_write_bufferWord hb (by omega) (by omega), step_read_bufferWord hb (by omega) (by omega)⟩

/-- Settles O16: OUT[c][i] is the buffer word at its address. -/
theorem outWindowStoresAndReturns : Obligations.OutWindowStoresAndReturns := by
  intro s c i w rest hc hi
  have := s.params.maxBlock.isLt
  have := s.params.nchMax.isLt
  have hb : IsBufferWord (0x4000 + 0x2000 * c + 4 * i) (targetOf s.params (0x4000 + 0x2000 * c + 4 * i)) := by
    rw [targetOf_outWord hc hi]
    exact .outWord c i
  exact ⟨step_write_bufferWord hb (by omega) (by omega), step_read_bufferWord hb (by omega) (by omega)⟩

/-- Each byte of a word made of four bytes is the one it was made of (R65). -/
theorem byteOf_wordOf (b0 b1 b2 b3 : Byte) :
    byteOf (wordOf b0 b1 b2 b3) 0 = b0 ∧ byteOf (wordOf b0 b1 b2 b3) 1 = b1 ∧
    byteOf (wordOf b0 b1 b2 b3) 2 = b2 ∧ byteOf (wordOf b0 b1 b2 b3) 3 = b3 := by
  refine ⟨?_, ?_, ?_, ?_⟩
  all_goals
    refine BitVec.eq_of_getLsbD_eq fun i hi => ?_
    simp only [byteOf, wordOf, BitVec.getLsbD_append, BitVec.getLsbD_extractLsb']
    grind

/-- A word held stands byte by byte from its address on (R65). -/
theorem byteAt_of_wordAt {m : Memory} {a : Nat} {w : Word} (h : wordAt m a = some w) {i : Nat} (hi : i < 4) :
    byteAt m (a + i) = some (byteOf w i) := by
  unfold wordAt at h
  split at h
  · next b0 b1 b2 b3 h0 h1 h2 h3 =>
    cases h
    obtain ⟨e0, e1, e2, e3⟩ := byteOf_wordOf b0 b1 b2 b3
    interval_cases i
    · rw [e0]; exact h0
    · rw [e1]; exact h1
    · rw [e2]; exact h2
    · rw [e3]; exact h3
  · cases h

/-- Settles O18: bits 8i+7 : 8i are `byteOf`, the byte that a store puts there and a word read has there. -/
theorem bufferWordsAreLittleEndian : Obligations.BufferWordsAreLittleEndian := fun _ a w _ hi =>
  ⟨fun hwf => byteAt_putWord_same hwf a w hi, fun hw => byteAt_of_wordAt hw hi⟩

/-! ### The DL window (R64) -/

/-- In a line of a power-of-two length a sample's number is its place (R110). -/
theorem toNat_ofNat_and_pred {len : Word} {j : Nat} (hpow : PowerOfTwo len.toNat) (hj : j < len.toNat) :
    (BitVec.ofNat 32 j &&& (len - 1#32)).toNat = j := by
  obtain ⟨k, hk⟩ := hpow
  have hlen := len.isLt
  have hpred : (len - 1#32).toNat = 2 ^ k - 1 := by
    rw [← hk, BitVec.toNat_sub, BitVec.toNat_ofNat]
    omega
  rw [BitVec.toNat_and, hpred, Nat.and_two_pow_sub_one_eq_mod, BitVec.toNat_ofNat, Nat.mod_eq_of_lt (by omega),
    Nat.mod_eq_of_lt (by omega)]

/-- Settles O17: the slots by the mask of the line's length, the writes by the map, the reads by `dlWindow`. -/
theorem dlWindowReads : Obligations.DlWindowReads := by
  refine ⟨fun len j hpow hj => ?_, fun s k w _ hk hh => ?_, fun s k _ hk hh => ⟨fun hlen hcap => ?_, fun h => ?_⟩⟩
  · rw [dlSlot, dlSlot, toNat_ofNat_and_pred hpow hj]
    omega
  · exact step_write_ignored hh (by omega) (by omega) (targetOf_dl_ignoresWrites (by omega))
  · obtain ⟨w, hw⟩ := wordAt_dl_isSome hk s.mem
    refine ⟨w, hw, step_read_returns hh (by omega) (by omega) ?_⟩
    rw [targetOf_dlWord, readTarget, dlWindow, if_pos ⟨hlen, hcap⟩, hw, Option.getD_some]
  · refine step_read_returns hh (by omega) (by omega) ?_
    rw [targetOf_dlWord, readTarget, dlWindow, if_neg (by omega)]

end Sys2Proof.Machine
end

section
/-!
SUPPORT. Proofs of the statements of 30_encoding.md. The decoder answers each of R86's three kinds of word as that rule
says, the kinds cover every word, and so the answer tells the kind.
-/
namespace Sys2Proof.Machine

open Sys2Proof.Safety

/-! ### Fields (R80, R81) -/

@[simp] theorem opBits_eq_fieldOp (w : Word) : opBits w = fieldOp w := by
  have := w.isLt
  simp only [opBits, fieldOp, BitVec.extractLsb'_toNat, Nat.shiftRight_eq_div_pow]
  omega

@[simp] theorem rsvBits_eq_fieldRsv (w : Word) : rsvBits w = fieldRsv w := by
  rw [rsvBits, fieldRsv, BitVec.extractLsb'_toNat, Nat.shiftRight_eq_div_pow]

@[simp] theorem selBits_eq_fieldSel (w : Word) : selBits w = fieldSel w := by
  rw [selBits, fieldSel, BitVec.extractLsb'_toNat, Nat.shiftRight_eq_div_pow]

@[simp] theorem immBits_eq_fieldImm (w : Word) : immBits w = fieldImm w := by
  rw [immBits, fieldImm, BitVec.extractLsb'_toNat, Nat.shiftRight_zero]

theorem fieldSel_lt (w : Word) : fieldSel w < 256 := Nat.mod_lt _ (by norm_num)

theorem fieldImm_lt (w : Word) : fieldImm w < 65536 := Nat.mod_lt _ (by norm_num)

/-- A word of format C with fields in range has those fields. -/
theorem fields_formatC {op sel imm : Nat} (hop : op < 16) (hsel : sel < 256) (himm : imm < 65536) :
    fieldOp (formatC op sel imm) = op ∧ fieldRsv (formatC op sel imm) = 0 ∧
    fieldSel (formatC op sel imm) = sel ∧ fieldImm (formatC op sel imm) = imm := by
  simp only [fieldOp, fieldRsv, fieldSel, fieldImm, formatC, BitVec.toNat_ofNat]
  omega

/-- A word with RSV 0 is the word of format C with its fields. -/
theorem formatC_fields {w : Word} (hrsv : fieldRsv w = 0) : formatC (fieldOp w) (fieldSel w) (fieldImm w) = w := by
  refine BitVec.eq_of_toNat_eq ?_
  have := w.isLt
  simp only [fieldOp, fieldRsv, fieldSel, fieldImm, formatC, BitVec.toNat_ofNat] at hrsv ⊢
  omega

/-- PROCESS has an encoding when its operands fit their fields. -/
theorem wellFormed_process_iff {n nch : Nat} : WellFormed (.process n nch) ↔ n < 65536 ∧ nch < 256 := by
  unfold WellFormed Instr.encodable
  rw [Bool.and_eq_true, decide_eq_true_eq, decide_eq_true_eq]

/-! ### The rows of SETP and GETP (R83, R85) -/

/-- The identifier of a parameter, SEL of its SETP and GETP rows (R83). -/
def paramId : ParamName → Nat
  | .waveform => 1
  | .phase => 2
  | .rate => 3
  | .depth => 4
  | .feedback => 5
  | .delay => 6

theorem encode_setpOf (p : ParamName) : encode (setpOf p) = formatC 6 (paramId p) 0 := by cases p <;> rfl

theorem encode_getpOf (p : ParamName) : encode (getpOf p) = formatC 7 (paramId p) 0 := by cases p <;> rfl

theorem wellFormed_setpOf (p : ParamName) : WellFormed (setpOf p) := by cases p <;> rfl

theorem wellFormed_getpOf (p : ParamName) : WellFormed (getpOf p) := by cases p <;> rfl

/-- Every identifier from 1 to 6 names a parameter. -/
theorem exists_paramId {sel : Nat} (hpos : 1 ≤ sel) (hle : sel ≤ 6) : ∃ p, paramId p = sel := by
  interval_cases sel
  · exact ⟨.waveform, rfl⟩
  · exact ⟨.phase, rfl⟩
  · exact ⟨.rate, rfl⟩
  · exact ⟨.depth, rfl⟩
  · exact ⟨.feedback, rfl⟩
  · exact ⟨.delay, rfl⟩

/-! ### The three kinds of word (R86) -/

/-- The first three lines of R86 answer the illegal words. -/
theorem decode_of_illegalWord {w : Word} (h : IllegalWord w) : decode w = .error .illegalCommand := by
  simp only [IllegalWord, opBits_eq_fieldOp, rsvBits_eq_fieldRsv, selBits_eq_fieldSel, immBits_eq_fieldImm] at h
  unfold decode
  split_ifs
  · rfl
  · rfl
  · rfl
  · omega
  · omega

/-- An unrecognized identifier passes the first three lines of R86, and the fourth answers it. -/
theorem decode_of_unknownIdWord {w : Word} (h : UnknownIdWord w) : decode w = .error .invalidEnum := by
  simp only [UnknownIdWord, opBits_eq_fieldOp, rsvBits_eq_fieldRsv, selBits_eq_fieldSel, immBits_eq_fieldImm] at h
  rw [decode, if_neg (by omega), if_neg (by omega), if_neg (by omega), if_pos (by omega)]

/-- The word of PROCESS passes every line of R86, and its operands are the fields as they stand. -/
theorem decode_formatC_process {n nch : Nat} (hn : n < 65536) (hnch : nch < 256) :
    decode (formatC 5 nch n) = .ok (.process n nch) := by
  obtain ⟨hop, hrsv, hsel, himm⟩ := fields_formatC (op := 5) (by norm_num) hnch hn
  simp [decode, hop, hrsv, hsel, himm, decodeRow]

/-- Settles O1: PROCESS at every value of its fields, each other command at its one word. -/
theorem decodeUndoesEncode : Obligations.DecodeUndoesEncode := by
  intro i hwf
  cases i with
  | process n nch =>
    obtain ⟨hn, hnch⟩ := wellFormed_process_iff.mp hwf
    exact decode_formatC_process hn hnch
  | reset | release | devchg | update => rfl
  | setpWaveform | setpPhase | setpRate | setpDepth | setpFeedback | setpDelay => rfl
  | getpWaveform | getpPhase | getpRate | getpDepth | getpFeedback | getpDelay => rfl

/-- A word that is neither illegal nor an unrecognized identifier is the word of a command. -/
theorem exists_encode_eq {w : Word} (hill : ¬ IllegalWord w) (hunk : ¬ UnknownIdWord w) :
    ∃ i, WellFormed i ∧ encode i = w := by
  simp only [IllegalWord, UnknownIdWord, opBits_eq_fieldOp, rsvBits_eq_fieldRsv, selBits_eq_fieldSel,
    immBits_eq_fieldImm] at hill hunk
  have hfields := formatC_fields (w := w) (by omega)
  have hop : 1 ≤ fieldOp w ∧ fieldOp w ≤ 7 := by omega
  by_cases hprocess : fieldOp w = 5
  · rw [hprocess] at hfields
    exact ⟨.process (fieldImm w) (fieldSel w), wellFormed_process_iff.mpr ⟨fieldImm_lt w, fieldSel_lt w⟩, hfields⟩
  have himm0 : fieldImm w = 0 := by omega
  by_cases hparam : 6 ≤ fieldOp w
  · obtain ⟨p, hp⟩ := exists_paramId (sel := fieldSel w) (by omega) (by omega)
    rw [← hp, himm0] at hfields
    obtain h6 | h7 : fieldOp w = 6 ∨ fieldOp w = 7 := by omega
    · exact ⟨setpOf p, wellFormed_setpOf p, by rw [encode_setpOf, ← hfields, h6]⟩
    · exact ⟨getpOf p, wellFormed_getpOf p, by rw [encode_getpOf, ← hfields, h7]⟩
  · have hsel0 : fieldSel w = 0 := by omega
    rw [hsel0, himm0] at hfields
    obtain h | h | h | h : fieldOp w = 1 ∨ fieldOp w = 2 ∨ fieldOp w = 3 ∨ fieldOp w = 4 := by omega
    all_goals rw [h] at hfields
    · exact ⟨.reset, rfl, hfields⟩
    · exact ⟨.release, rfl, hfields⟩
    · exact ⟨.devchg, rfl, hfields⟩
    · exact ⟨.update, rfl, hfields⟩

/-- What the decoder can answer: each answer, with the kind of word it is the answer to. -/
inductive Decoded (w : Word) : Except DecodeError Instr → Prop
  | illegal (h : IllegalWord w) : Decoded w (.error .illegalCommand)
  | unknownId (h : UnknownIdWord w) : Decoded w (.error .invalidEnum)
  | command (i : Instr) (hwf : WellFormed i) (henc : encode i = w) : Decoded w (.ok i)

theorem decoded (w : Word) : Decoded w (decode w) := by
  by_cases hill : IllegalWord w
  · rw [decode_of_illegalWord hill]
    exact .illegal hill
  by_cases hunk : UnknownIdWord w
  · rw [decode_of_unknownIdWord hunk]
    exact .unknownId hunk
  obtain ⟨i, hwf, rfl⟩ := exists_encode_eq hill hunk
  rw [decodeUndoesEncode i hwf]
  exact .command i hwf rfl

/-- Settles O2: a command is the decoder's answer only to its own word. -/
theorem encodeUndoesDecode : Obligations.EncodeUndoesDecode := by
  intro w i h
  have hdec := decoded w
  rw [h] at hdec
  cases hdec with
  | command _ hwf henc => exact ⟨henc, hwf⟩

/-- The decoder answers a command for its own word and for no other. -/
theorem decode_eq_ok_iff {w : Word} {i : Instr} : decode w = .ok i ↔ WellFormed i ∧ encode i = w := by
  refine ⟨fun h => (encodeUndoesDecode w i h).symm, ?_⟩
  rintro ⟨hwf, rfl⟩
  exact decodeUndoesEncode i hwf

theorem decode_eq_illegalCommand_iff {w : Word} : decode w = .error .illegalCommand ↔ IllegalWord w := by
  refine ⟨fun h => ?_, decode_of_illegalWord⟩
  have hdec := decoded w
  rw [h] at hdec
  cases hdec with
  | illegal hill => exact hill

theorem decode_eq_invalidEnum_iff {w : Word} : decode w = .error .invalidEnum ↔ UnknownIdWord w := by
  refine ⟨fun h => ?_, decode_of_unknownIdWord⟩
  have hdec := decoded w
  rw [h] at hdec
  cases hdec with
  | unknownId hunk => exact hunk

/-! ### Match and mask (R85) -/

/-- PROCESS's mask compares the top byte, which holds OP and RSV. -/
theorem and_topByte_eq_process_iff (w : Word) :
    w &&& 0xFF000000#32 = 0x50000000#32 ↔ fieldOp w = 5 ∧ fieldRsv w = 0 := by
  have hmask : w &&& 0xFF000000#32 = w >>> 24 <<< 24 := (BitVec.shiftLeft_ushiftRight (x := w) (n := 24)).symm
  have hlt := w.isLt
  simp only [hmask, ← BitVec.toNat_inj, BitVec.toNat_shiftLeft, BitVec.toNat_ushiftRight, Nat.shiftRight_eq_div_pow,
    Nat.shiftLeft_eq, BitVec.toNat_ofNat, fieldOp, fieldRsv]
  omega

/-- PROCESS's row with its free fields matches the words that encode a PROCESS. -/
theorem rowMatches_process_iff {w : Word} {n nch : Nat} :
    RowMatches w (.process n nch) ↔ WellFormed (.process n nch) ∧ encode (.process n nch) = w := by
  have hrow : RowMatches w (.process n nch) ↔
      (fieldOp w = 5 ∧ fieldRsv w = 0) ∧ n = fieldImm w ∧ nch = fieldSel w := by
    simp [RowMatches, rowMask, rowMatch, and_topByte_eq_process_iff]
  rw [hrow, wellFormed_process_iff, encode]
  constructor
  · rintro ⟨⟨hop, hrsv⟩, rfl, rfl⟩
    exact ⟨⟨fieldImm_lt w, fieldSel_lt w⟩, hop ▸ formatC_fields hrsv⟩
  · rintro ⟨⟨hn, hnch⟩, rfl⟩
    obtain ⟨hop, hrsv, hsel, himm⟩ := fields_formatC (op := 5) (by norm_num) hnch hn
    exact ⟨⟨hop, hrsv⟩, himm.symm, hsel.symm⟩

/-- A row with a full mask matches its one word, which is the command's. -/
theorem rowMatches_iff_of_fullMask {w : Word} {i : Instr} (hmask : rowMask i = 0xFFFFFFFF#32)
    (hmatch : rowMatch i = encode i) (hwf : WellFormed i) (hops : ∀ n nch, i ≠ .process n nch) :
    RowMatches w i ↔ WellFormed i ∧ encode i = w := by
  have hfull : w &&& 0xFFFFFFFF#32 = w := BitVec.and_allOnes
  rw [RowMatches, hmask, hfull, hmatch]
  exact ⟨fun h => ⟨hwf, h.1.symm⟩, fun h => ⟨h.2.symm, fun n nch e => absurd e (hops n nch)⟩⟩

theorem rowMatches_iff {w : Word} {i : Instr} : RowMatches w i ↔ WellFormed i ∧ encode i = w := by
  cases i with
  | process n nch => exact rowMatches_process_iff
  | reset | release | devchg | update => exact rowMatches_iff_of_fullMask rfl rfl rfl nofun
  | setpWaveform | setpPhase | setpRate | setpDepth | setpFeedback | setpDelay =>
    exact rowMatches_iff_of_fullMask rfl rfl rfl nofun
  | getpWaveform | getpPhase | getpRate | getpDepth | getpFeedback | getpDelay =>
    exact rowMatches_iff_of_fullMask rfl rfl rfl nofun

/-- Settles O3: each answer by its kind of word, and a command's row matches the command's words. -/
theorem decodeFollowsTable : Obligations.DecodeFollowsTable := fun _ =>
  ⟨decode_eq_illegalCommand_iff, decode_eq_invalidEnum_iff, fun _ => decode_eq_ok_iff.trans rowMatches_iff.symm⟩

/-! ### Listings, worked encodings and the refused identifier (R87, R89, R92) -/

/-- Settles O8: the listing of each kind of word is that of the decoder's answer to it. -/
theorem disassemblyNamesEveryWord : Obligations.DisassemblyNamesEveryWord := by
  refine fun w => ⟨fun hill => ?_, fun hunk => ?_, fun hill hunk => ?_⟩
  · rw [disassemble, decode_of_illegalWord hill]
  · rw [disassemble, decode_of_unknownIdWord hunk, opBits_eq_fieldOp, selBits_eq_fieldSel]
  · obtain ⟨i, hwf, rfl⟩ := exists_encode_eq hill hunk
    exact ⟨i, by rw [disassemble, decodeUndoesEncode i hwf], rfl⟩

/-- The word of a well-formed command reads both ways. -/
theorem encode_and_decode {i : Instr} {w : Word} (hwf : WellFormed i) (henc : encode i = w) :
    encode i = w ∧ decode w = .ok i :=
  ⟨henc, decode_eq_ok_iff.mpr ⟨hwf, henc⟩⟩

/-- Settles O4: each worked word is the encoding of its command, and the decoder undoes the encoding. -/
theorem workedEncodingsRead : Obligations.WorkedEncodingsRead := by
  refine ⟨encode_and_decode rfl rfl, encode_and_decode rfl rfl, encode_and_decode rfl rfl, encode_and_decode rfl rfl,
    encode_and_decode rfl rfl, encode_and_decode rfl rfl, encode_and_decode rfl rfl, encode_and_decode rfl rfl, ?_⟩
  decide

/-- Settles O7: the step is the write to CMD, whose word the decoder refuses as an unrecognized identifier. -/
theorem unknownIdentifierWritesOnlyErr : Obligations.UnknownIdentifierWritesOnlyErr := by
  intro s w rest hh hunk
  rw [step_command hh, runCommand, decode_of_unknownIdWord hunk]
  rfl

end Sys2Proof.Machine
end

section
/-!
SUPPORT. Proofs of the statements of 40_lifecycle.md: RESET and RELEASE (R100, R101), and the words that PROCESS needs
a host write to have set (R102), each loop said once by `Needs`.
-/
namespace Sys2Proof.Machine

open Sys2Proof.Safety

/-! ### RESET and RELEASE (R100, R101) -/

/-- Settles O21: the reset registers take only the chip's parameters, the buffers and the host's traffic from the state
before, so a second RESET rebuilds them. -/
theorem resetCommandRestoresRegisters : Obligations.ResetCommandRestoresRegisters := fun _ => ⟨_, rfl, rfl, rfl⟩

theorem execUpdate_of_not_configured {s : State} (h : s.status.configured = false) :
    execUpdate s = .next (raise .notReady s) := by
  simp [execUpdate, h]

theorem execProcess_of_not_ready {n nch : Nat} {s : State} (hblock : legalBlock s.params n nch = true)
    (hready : ready s = false) : execProcess n nch s = .next (raise .notReady s) := by
  simp [execProcess, hblock, hready]

theorem dlWindow_of_no_line {s : State} (h : s.dlLen = 0#32) (k : Nat) : dlWindow s k = 0#32 := by
  simp [dlWindow, h]

theorem legalBlock_iff {p : Params} {n nch : Nat} :
    legalBlock p n nch = true ↔ n ≤ p.maxBlock.val ∧ nch ≤ p.nchMax.val := by
  simp [legalBlock]

/-- Settles O22: a core that RELEASE has left is not configured and has no line. -/
theorem releaseLetsTheLinesGo : Obligations.ReleaseLetsTheLinesGo := fun _ =>
  ⟨_, rfl, rfl, execUpdate_of_not_configured rfl,
    fun _ _ hn hnch => execProcess_of_not_ready (legalBlock_iff.mpr ⟨hn, hnch⟩) rfl, dlWindow_of_no_line rfl⟩

/-! ### The words a computation needs -/

/-- A buffer word that PROCESS reads and that holds nothing until a host write sets it (R102). -/
inductive HostWord where
  | input (i : Nat)
  | output (c i : Nat)

def HostWord.addr : HostWord → Nat
  | .input i => inAddr i
  | .output c i => outAddr c i

@[simp] theorem HostWord.addr_input (i : Nat) : (HostWord.input i).addr = inAddr i := rfl

@[simp] theorem HostWord.addr_output (c i : Nat) : (HostWord.output c i).addr = outAddr c i := rfl

/-- The fault that names the word (R102, R229). -/
def HostWord.fault : HostWord → Fault
  | .input i => .unwrittenIn i
  | .output c i => .unwrittenOut c i

/-- No byte of the word is among the stored ones. -/
def HostWord.Clear (stored : Nat → Prop) (w : HostWord) : Prop := ∀ a, inWord w.addr a → ¬ stored a

/-- A computation on buffers m needs the words of `need` and no others: when it answers, all of them are there; when it
stops, its fault names one that is not. -/
structure Needs {α : Type} (need : HostWord → Prop) (m : Memory) (x : Except Fault α) : Prop where
  present : ∀ r, x = .ok r → ∀ w, need w → (wordAt m w.addr).isSome = true
  named : ∀ f, x = .error f → ∃ w, need w ∧ wordAt m w.addr = none ∧ f = w.fault

theorem Keeps.hostWord {stored : Nat → Prop} {m m' : Memory} (h : Keeps stored m m') {w : HostWord}
    (hw : w.Clear stored) : wordAt m' w.addr = wordAt m w.addr :=
  h.word fun a h1 h2 => hw a ⟨h1, h2⟩

section
variable {α β : Type} {P Q : HostWord → Prop} {m : Memory} {x : Except Fault α} {f : α → Except Fault β}

theorem Needs.congr (h : Needs P m x) (hiff : ∀ w, P w ↔ Q w) : Needs Q m x :=
  (funext fun w => propext (hiff w) : P = Q) ▸ h

theorem needs_nothing_of_ok (h : ∃ r, x = .ok r) (hP : ∀ w, ¬ P w) : Needs P m x where
  present _ _ w hw := absurd hw (hP w)
  named e he := by obtain ⟨r, rfl⟩ := h; cases he

theorem except_bind_error_iff {e : Fault} :
    (x >>= f) = .error e ↔ x = .error e ∨ ∃ a, x = .ok a ∧ f a = .error e := by
  cases x with
  | error e' =>
    constructor
    · intro h; cases h; exact .inl rfl
    · rintro (h | ⟨_, h, -⟩)
      · cases h; rfl
      · cases h
  | ok a =>
    constructor
    · intro h; exact .inr ⟨a, rfl, h⟩
    · rintro (h | ⟨_, h, h'⟩)
      · cases h
      · cases h; exact h'

/-- A computation and then another, on the buffers that the first one leaves, need the words of both, if what the first
stores makes no word of the second present. -/
theorem Needs.bind {stored : Nat → Prop} (hx : Needs P m x) (hclear : ∀ w, Q w → P w ∨ w.Clear stored)
    (hf : ∀ a, x = .ok a → ∃ m', Keeps stored m m' ∧ Needs Q m' (f a)) :
    Needs (fun w => P w ∨ Q w) m (x >>= f) where
  present r h w hw := by
    obtain ⟨a, ha, hr⟩ := except_bind_ok_iff.1 h
    obtain ⟨m', hkeeps, hneeds⟩ := hf a ha
    rcases hw with hP | hQ
    · exact hx.present a ha w hP
    · rcases hclear w hQ with hP | hfree
      · exact hx.present a ha w hP
      · rw [← hkeeps.hostWord hfree]
        exact hneeds.present r hr w hQ
  named e h := by
    rcases except_bind_error_iff.1 h with herr | ⟨a, ha, herr⟩
    · obtain ⟨w, hP, hnone, hfault⟩ := hx.named e herr
      exact ⟨w, .inl hP, hnone, hfault⟩
    · obtain ⟨m', hkeeps, hneeds⟩ := hf a ha
      obtain ⟨w, hQ, hnone, hfault⟩ := hneeds.named e herr
      refine ⟨w, .inr hQ, ?_, hfault⟩
      by_contra hsome
      have hstill := hkeeps.present _ (Option.ne_none_iff_isSome.1 hsome)
      rw [hnone] at hstill
      cases hstill

/-- What follows without a fault needs no further word. -/
theorem Needs.bind_ok (hx : Needs P m x) (hf : ∀ a, x = .ok a → ∃ r, f a = .ok r) : Needs P m (x >>= f) :=
  (hx.bind (Q := fun _ => False) (stored := fun _ => False) (fun _ hw => hw.elim)
    fun a ha => ⟨m, .refl _ _, needs_nothing_of_ok (hf a ha) fun _ => id⟩).congr fun _ => or_iff_left id

end

/-! ### What each loop of PROCESS needs -/

theorem readIn_of_unwritten {m : Memory} {i : Nat} (h : wordAt m (inAddr i) = none) :
    readIn m i = .error (.unwrittenIn i) := by
  simp [readIn, h]

theorem readOut_of_unwritten {m : Memory} {c i : Nat} (h : wordAt m (outAddr c i) = none) :
    readOut m c i = .error (.unwrittenOut c i) := by
  simp [readOut, h]

/-- A read of one word needs that word. -/
theorem needs_of_read {m : Memory} {w : HostWord} {x : Except Fault Word}
    (hok : ∀ v, x = .ok v ↔ wordAt m w.addr = some v) (herr : wordAt m w.addr = none → x = .error w.fault) :
    Needs (· = w) m x where
  present v hv := by
    rintro _ rfl
    exact Option.isSome_of_mem ((hok v).1 hv)
  named f hf := by
    cases hw : wordAt m w.addr with
    | none => exact ⟨w, rfl, hw, Except.error.inj (hf.symm.trans (herr hw))⟩
    | some v => cases hf.symm.trans ((hok v).2 hw)

theorem readIn_needs (m : Memory) (i : Nat) : Needs (· = .input i) m (readIn m i) :=
  needs_of_read (fun _ => readIn_ok_iff) readIn_of_unwritten

theorem readOut_needs (m : Memory) (c i : Nat) : Needs (· = .output c i) m (readOut m c i) :=
  needs_of_read (fun _ => readOut_ok_iff) readOut_of_unwritten

/-- IN[i .. i + k). -/
def inputsFrom (i k : Nat) : HostWord → Prop
  | .input j => i ≤ j ∧ j < i + k
  | .output _ _ => False

/-- OUT[c][i .. i + k). -/
def outputsFrom (c i k : Nat) : HostWord → Prop
  | .input _ => False
  | .output c' j => c' = c ∧ i ≤ j ∧ j < i + k

/-- A word below the DL window shares no byte with a slot of a line. -/
theorem HostWord.clear_slotBytes {w : HostWord} (h : w.addr + 4 ≤ dlBase) (s : State) (cur : Word) (k : Nat) :
    w.Clear (slotBytes s cur k) := by
  rintro a ⟨-, ha⟩ ⟨line, j, -, -, hslot, -⟩
  unfold dlAddr at hslot
  omega

theorem HostWord.input_below_dl {i : Nat} (h : i < 2048) : (HostWord.input i).addr + 4 ≤ dlBase := by
  rw [HostWord.addr_input, inAddr, inBase, dlBase]; omega

theorem HostWord.output_below_dl {c i : Nat} (hc : c < 16) (h : i < 2048) :
    (HostWord.output c i).addr + 4 ≤ dlBase := by
  rw [HostWord.addr_output, outAddr, outBase, dlBase]; omega

section
variable {s : State} (hpow : PowerOfTwo s.dlLen.toNat) (hcap : s.dlLen.toNat ≤ s.params.dlCap)
include hpow hcap

/-- A comb step on a line that fits the RAM does not stop. -/
theorem combStep_total_of_line {line : Nat} (hline : line < 2) (cur x d : Word) (m : Memory) :
    ∃ r, combStep s cur line x d m = .ok r :=
  combStep_total x m (dlSlot_lt hpow hcap hline cur) (dlSlot_lt hpow hcap hline (cur - d))

theorem sampleStep_needs (i : Nat) (d : Word × Word) (wk : Work) :
    Needs (· = .input i) wk.mem (sampleStep s i d wk) :=
  (readIn_needs wk.mem i).bind_ok fun x _ => by
    obtain ⟨⟨m0, w0⟩, h0⟩ := combStep_total_of_line hpow hcap (line := 0) (by omega) wk.cursor x d.1 wk.mem
    obtain ⟨⟨m1, w1⟩, h1⟩ := combStep_total_of_line hpow hcap (line := 1) (by omega) wk.cursor x d.2 m0
    simp only [h0, h1, except_bind_ok]
    exact ⟨_, rfl⟩

theorem runSamples_needs {ds : List (Word × Word)} {i : Nat} (wk : Work) (hi : i + ds.length ≤ 2048) :
    Needs (inputsFrom i ds.length) wk.mem (runSamples s i ds wk) := by
  induction ds generalizing i wk with
  | nil => exact needs_nothing_of_ok ⟨_, rfl⟩ fun w => by cases w <;> simp [inputsFrom]
  | cons d ds ih =>
    rw [List.length_cons] at hi ⊢
    refine ((sampleStep_needs hpow hcap i d wk).bind (Q := inputsFrom (i + 1) ds.length)
      (stored := slotBytes s wk.cursor 1) (fun w hw => ?_) fun r hr => ?_).congr fun w => ?_
    · cases w with
      | input j =>
        obtain ⟨-, hj⟩ := hw
        exact .inr (HostWord.clear_slotBytes (HostWord.input_below_dl (by omega)) _ _ _)
      | output => exact hw.elim
    · exact ⟨r.1.mem, (sampleStep_keeps hr).2, (ih r.1 (by omega)).bind_ok fun _ _ => ⟨_, rfl⟩⟩
    · cases w with
      | input j => simp only [inputsFrom, HostWord.input.injEq]; omega
      | output => simp [inputsFrom]

end

theorem accumulate_needs {g : Word} {c : Nat} {ws : List Word} {i : Nat} {m : Memory} :
    Needs (outputsFrom c i ws.length) m (accumulate g c i ws m) := by
  induction ws generalizing i m with
  | nil => exact needs_nothing_of_ok ⟨_, rfl⟩ fun w => by cases w <;> simp [outputsFrom]
  | cons w ws ih =>
    refine ((readOut_needs m c i).bind (Q := outputsFrom c (i + 1) ws.length) (stored := inWord (outAddr c i))
      (fun w hw => ?_) fun o _ => ⟨_, keeps_putWord _ _ _, ih⟩).congr fun w => ?_
    · cases w with
      | input => exact hw.elim
      | output c' j =>
        obtain ⟨rfl, hj, -⟩ := hw
        refine .inr fun a ha ha' => ?_
        simp only [inWord, HostWord.addr_output, outAddr] at ha ha'
        omega
    · cases w with
      | input => simp [outputsFrom]
      | output => simp only [outputsFrom, HostWord.output.injEq, List.length_cons]; omega

theorem mixLine_needs {g : Word} {c i : Nat} {ws : List Word} {m : Memory} :
    Needs (fun w => audible g = true ∧ outputsFrom c i ws.length w) m (mixLine g c i ws m) := by
  unfold mixLine
  split
  · next hg => exact accumulate_needs.congr fun _ => (and_iff_right hg).symm
  · next hg => exact needs_nothing_of_ok ⟨_, rfl⟩ fun _ hw => hg hw.1

/-- One of the channel's two gains is above the silence threshold (R168). -/
def channelAudible (s : State) (c : Nat) : Prop :=
  audible (gainAt s.gainRt0 c) = true ∨ audible (gainAt s.gainRt1 c) = true

theorem mixChannel_keeps {s : State} {i c : Nat} {wet : List (Word × Word)} {m m' : Memory}
    (h : mixChannel s i wet c m = .ok m') : Keeps (outBytes c i wet.length) m m' := by
  obtain ⟨m0, h0, h1⟩ := except_bind_ok_iff.1 h
  exact ((mixLine_keeps h0).mono fun a ha => by simpa using ha.2).trans
    ((mixLine_keeps h1).mono fun a ha => by simpa using ha.2)

/-- Line 1's words are line 0's where line 0 is audible, and else line 0 stores nothing. -/
theorem mixChannel_needs {s : State} {i c : Nat} {wet : List (Word × Word)} {m : Memory} :
    Needs (fun w => channelAudible s c ∧ outputsFrom c i wet.length w) m (mixChannel s i wet c m) := by
  refine ((mixLine_needs (g := gainAt s.gainRt0 c) (ws := wet.map Prod.fst)).bind
    (Q := fun w => audible (gainAt s.gainRt1 c) = true ∧ outputsFrom c i (wet.map Prod.snd).length w)
    (fun w hw => ?_) fun m0 h0 => ⟨m0, mixLine_keeps h0, mixLine_needs⟩).congr fun w => ?_
  · by_cases hg : audible (gainAt s.gainRt0 c) = true
    · exact .inl ⟨hg, by simpa using hw.2⟩
    · exact .inr fun _ _ hstored => hg hstored.1
  · simp only [List.length_map, channelAudible, or_and_right]

/-- An OUT word of another channel, or of a sample past the run, shares no byte with what the run's mix stores. -/
theorem HostWord.clear_outBytes {c c' i i' k : Nat} (hi : i + k ≤ 2048) (hi' : i' < 2048)
    (h : c' ≠ c ∨ i + k ≤ i') : (HostWord.output c' i').Clear (outBytes c i k) := by
  rintro a ⟨ha, ha'⟩ ⟨j, hj, hb, hb'⟩
  rw [HostWord.addr_output] at ha ha'
  have hapart := apart_out (c := c) (c' := c') (i := i + j) (i' := i') (by omega) hi' (by omega)
  unfold Apart at hapart
  omega

theorem mixChannels_needs {s : State} {i : Nat} {wet : List (Word × Word)} {cs : List Nat} {m : Memory}
    (hi : i + wet.length ≤ 2048) :
    Needs (fun w => ∃ c ∈ cs, channelAudible s c ∧ outputsFrom c i wet.length w) m (mixChannels s i wet cs m) := by
  induction cs generalizing m with
  | nil => exact needs_nothing_of_ok ⟨_, rfl⟩ (by simp)
  | cons c cs ih =>
    refine (mixChannel_needs.bind (fun w hw => ?_) fun m1 h1 => ⟨m1, mixChannel_keeps h1, ih⟩).congr fun w => by simp
    obtain ⟨c', -, hg, hw⟩ := hw
    cases w with
    | input => exact hw.elim
    | output c'' j =>
      by_cases hc : c' = c
      · subst hc; exact .inl ⟨hg, hw⟩
      · obtain ⟨rfl, hj, hj'⟩ := hw
        exact .inr (HostWord.clear_outBytes hi (by omega) (.inl hc))

/-- The words of samples i to i + k of a PROCESS (R102): their IN words, and their OUT words of audible channels. -/
def samplesNeed (s : State) (nch i k : Nat) : HostWord → Prop
  | .input j => i ≤ j ∧ j < i + k
  | .output c j => c < nch ∧ channelAudible s c ∧ i ≤ j ∧ j < i + k

theorem samplesNeed_below_dl {s : State} {nch i k : Nat} (hnch : nch ≤ 16) (hi : i + k ≤ 2048) {w : HostWord}
    (hw : samplesNeed s nch i k w) : w.addr + 4 ≤ dlBase := by
  cases w with
  | input j =>
    obtain ⟨-, hj⟩ := hw
    exact HostWord.input_below_dl (by omega)
  | output c j =>
    obtain ⟨hc, -, -, hj⟩ := hw
    exact HostWord.output_below_dl (by omega) (by omega)

/-- The mix of earlier samples stores none of the words that later samples need. -/
theorem samplesNeed_clear_mixedBytes {s : State} {nch i k i' k' : Nat} (hnch : nch ≤ 16) (hle : i + k ≤ i')
    (hi' : i' + k' ≤ 2048) {w : HostWord} (hw : samplesNeed s nch i' k' w) : w.Clear (mixedBytes s nch i k) := by
  rintro a ha ⟨c, hc, -, hout⟩
  cases w with
  | input j =>
    obtain ⟨l, -, hl, -⟩ := hout
    obtain ⟨-, hj⟩ := hw
    simp only [inWord, HostWord.addr_input, inAddr, inBase] at ha
    simp only [outAddr, outBase] at hl
    omega
  | output c' j =>
    obtain ⟨-, -, hj, hj'⟩ := hw
    exact HostWord.clear_outBytes (by omega) (by omega) (.inr (by omega)) a ha hout

/-- A sub-block (R161) on the delays of its samples (R162). -/
theorem subBlock_eq (s : State) (nch : Nat) (blk : Nat × Nat) (wk : Work) :
    subBlock s nch blk wk = (runSamples s blk.1 (blockDelays s wk.cursor blk.2) wk >>= fun r =>
      mixChannels s blk.1 r.2 (List.range nch) r.1.mem >>= fun m => pure { r.1 with mem := m }) := rfl

section
variable {s : State} (hpow : PowerOfTwo s.dlLen.toNat) (hcap : s.dlLen.toNat ≤ s.params.dlCap) {nch : Nat}
  (hnch : nch ≤ 16)
include hpow hcap hnch

theorem subBlock_needs (blk : Nat × Nat) (wk : Work) (hblk : blk.1 + blk.2 ≤ 2048) :
    Needs (samplesNeed s nch blk.1 blk.2) wk.mem (subBlock s nch blk wk) := by
  have hlen := blockDelays_length s wk.cursor blk.2
  have hsamples := runSamples_needs hpow hcap (ds := blockDelays s wk.cursor blk.2) wk (hlen.symm ▸ hblk)
  rw [hlen] at hsamples
  rw [subBlock_eq]
  refine (hsamples.bind (Q := fun w => ∃ c ∈ List.range nch, channelAudible s c ∧ outputsFrom c blk.1 blk.2 w)
    (stored := slotBytes s wk.cursor blk.2) (fun w hw => ?_) fun r hr => ?_).congr fun w => ?_
  · obtain ⟨c, hc, -, hw⟩ := hw
    cases w with
    | input => exact hw.elim
    | output c' j =>
      obtain ⟨rfl, -, hj⟩ := hw
      have hc' : c' < nch := List.mem_range.1 hc
      exact .inr (HostWord.clear_slotBytes (HostWord.output_below_dl (by omega) (by omega)) _ _ _)
  · obtain ⟨hwet, -, hkeeps⟩ := runSamples_keeps hr
    rw [hlen] at hwet hkeeps
    have hmix := mixChannels_needs (s := s) (cs := List.range nch) (m := r.1.mem) (hwet.symm ▸ hblk)
    rw [hwet] at hmix
    exact ⟨_, hkeeps, hmix.bind_ok fun _ _ => ⟨_, rfl⟩⟩
  · cases w with
    | input => simp [inputsFrom, outputsFrom, samplesNeed]
    | output => simp [inputsFrom, outputsFrom, samplesNeed]

theorem runSubBlocks_needs {bs : List (Nat × Nat)} {i k : Nat} (wk : Work) (hbs : Chained i k bs)
    (hi : i + k ≤ 2048) : Needs (samplesNeed s nch i k) wk.mem (runSubBlocks s nch bs wk) := by
  induction bs generalizing i k wk with
  | nil =>
    obtain rfl : k = 0 := hbs
    exact needs_nothing_of_ok ⟨_, rfl⟩ fun w => by cases w <;> (simp only [samplesNeed]; omega)
  | cons blk bs ih =>
    obtain ⟨rfl, hk, hbs⟩ := hbs
    refine ((subBlock_needs hpow hcap hnch blk wk (by omega)).bind (fun w hw => .inr fun a ha => ?_)
      fun wk1 h1 => ⟨wk1.mem, (subBlock_keeps h1).2, ih wk1 hbs (by omega)⟩).congr fun w => ?_
    · rintro (hslot | hmix)
      · exact HostWord.clear_slotBytes (samplesNeed_below_dl hnch (by omega) hw) _ _ _ a ha hslot
      · exact samplesNeed_clear_mixedBytes hnch le_rfl (by omega) hw a ha hmix
    · cases w with
      | input => simp only [samplesNeed]; omega
      | output =>
        simp only [samplesNeed, ← and_or_left]
        exact and_congr_right fun _ => and_congr_right fun _ => by omega

end

/-! ### The first word a PROCESS meets -/

theorem subBlocks_of_pos {n : Nat} (hn : 0 < n) : ∃ k rest, 0 < k ∧ k ≤ n ∧ subBlocks n = (0, k) :: rest := by
  obtain ⟨q, hq⟩ : ∃ q, (n + (Config.subBlock - 1)) / Config.subBlock = q + 1 :=
    ⟨_, (Nat.succ_pred_eq_of_pos (Nat.div_pos (by unfold Config.subBlock; omega) (by decide))).symm⟩
  rw [subBlocks, hq, List.range_succ_eq_map, List.map_cons]
  exact ⟨_, _, by unfold Config.subBlock; omega, min_le_right _ _, rfl⟩

theorem runSubBlocks_of_fault {s : State} {n nch : Nat} {wk : Work} {f : Fault} (hn : 0 < n)
    (h : ∀ k, 0 < k → k ≤ n → subBlock s nch (0, k) wk = .error f) :
    runSubBlocks s nch (subBlocks n) wk = .error f := by
  obtain ⟨k, rest, hk, hkn, hsub⟩ := subBlocks_of_pos hn
  rw [hsub, runSubBlocks, h k hk hkn]
  rfl

theorem runSamples_of_unwritten {s : State} {i : Nat} {ds : List (Word × Word)} {wk : Work} (hds : 0 < ds.length)
    (h : wordAt wk.mem (inAddr i) = none) : runSamples s i ds wk = .error (.unwrittenIn i) := by
  obtain ⟨d, ds, rfl⟩ := List.exists_cons_of_length_pos hds
  rw [runSamples, sampleStep, readIn_of_unwritten h]
  rfl

theorem mixLine_of_unwritten {g : Word} {c i : Nat} {ws : List Word} {m : Memory} (hg : audible g = true)
    (hws : 0 < ws.length) (h : wordAt m (outAddr c i) = none) : mixLine g c i ws m = .error (.unwrittenOut c i) := by
  obtain ⟨w, ws, rfl⟩ := List.exists_cons_of_length_pos hws
  rw [mixLine, if_pos hg, accumulate, readOut_of_unwritten h]
  rfl

theorem mixChannels_of_unwritten {s : State} {c i : Nat} {cs : List Nat} {wet : List (Word × Word)} {m : Memory}
    (hg : audible (gainAt s.gainRt0 c) = true) (hwet : 0 < wet.length) (h : wordAt m (outAddr c i) = none) :
    mixChannels s i wet (c :: cs) m = .error (.unwrittenOut c i) := by
  rw [mixChannels, mixChannel, mixLine_of_unwritten hg (by simpa using hwet) h]
  rfl

theorem subBlock_of_unwritten_input {s : State} {nch k : Nat} {wk : Work} (hk : 0 < k)
    (h : wordAt wk.mem (inAddr 0) = none) : subBlock s nch (0, k) wk = .error (.unwrittenIn 0) := by
  rw [subBlock_eq, runSamples_of_unwritten (by rwa [blockDelays_length]) h]
  rfl

/-- The samples of a sub-block store to the lines alone, so the mix is the first to ask for an OUT word. -/
theorem subBlock_of_unwritten_output {s : State} {nch k : Nat} {wk : Work} (hpow : PowerOfTwo s.dlLen.toNat)
    (hcap : s.dlLen.toNat ≤ s.params.dlCap) (hk : 0 < k) (hnch : 0 < nch)
    (hin : ∀ j, j < k → (wordAt wk.mem (inAddr j)).isSome = true) (hg : audible (gainAt s.gainRt0 0) = true)
    (h : wordAt wk.mem (outAddr 0 0) = none) : subBlock s nch (0, k) wk = .error (.unwrittenOut 0 0) := by
  have hlen := blockDelays_length s wk.cursor k
  obtain ⟨⟨wk1, wet⟩, hrun⟩ := runSamples_total hpow hcap (ds := blockDelays s wk.cursor k) (i := 0) (wk := wk)
    fun j hj => by rw [Nat.zero_add]; exact hin j (hlen ▸ hj)
  obtain ⟨hwet, -, hkeeps⟩ := runSamples_keeps hrun
  have hclear := HostWord.clear_slotBytes (HostWord.output_below_dl (c := 0) (i := 0) (by omega) (by omega)) s wk.cursor
    (blockDelays s wk.cursor k).length
  have hnone : wordAt wk1.mem (outAddr 0 0) = none := (hkeeps.hostWord hclear).trans h
  obtain ⟨q, rfl⟩ := Nat.exists_eq_add_one_of_ne_zero hnch.ne'
  rw [subBlock_eq, hrun, except_bind_ok, List.range_succ_eq_map,
    mixChannels_of_unwritten hg (hwet.trans hlen ▸ hk) hnone]
  rfl

/-- A PROCESS on a ready core stops with the fault that its sub-blocks stop with. -/
theorem execProcess_of_fault {s : State} {n nch : Nat} {f : Fault} (hblock : legalBlock s.params n nch = true)
    (hready : ready s = true)
    (h : runSubBlocks s nch (subBlocks n) { mem := s.mem, cursor := s.cursor } = .error f) :
    execProcess n nch s = .fault f := by
  simp [execProcess, hblock, hready, h]

theorem processInputsWritten_iff {s : State} {n nch : Nat} :
    processInputsWritten s n nch ↔ ∀ w, samplesNeed s nch 0 n w → (wordAt s.mem w.addr).isSome = true := by
  constructor
  · rintro ⟨hin, hout⟩ (i | ⟨c, i⟩) hw
    · obtain ⟨-, hi⟩ := hw
      exact hin i (by omega)
    · obtain ⟨hc, hg, -, hi⟩ := hw
      exact hout c i hc (by omega) hg
  · intro h
    exact ⟨fun i hi => h (.input i) ⟨Nat.zero_le _, by omega⟩,
      fun c i hc hi hg => h (.output c i) ⟨hc, hg, Nat.zero_le _, by omega⟩⟩

/-- A PROCESS that needs an unwritten word stops with a fault that names one (R102, R229). -/
theorem execProcess_names_missing_word {s : State} {n nch : Nat} (hblock : legalBlock s.params n nch = true)
    (hready : ready s = true) (hpow : PowerOfTwo s.dlLen.toNat) (hcap : s.dlLen.toNat ≤ s.params.dlCap)
    (hmissing : ¬ processInputsWritten s n nch) :
    ∃ w, samplesNeed s nch 0 n w ∧ wordAt s.mem w.addr = none ∧ execProcess n nch s = .fault w.fault := by
  obtain ⟨hn, hnch⟩ := legalBlock_bounds hblock
  have hneeds := runSubBlocks_needs hpow hcap hnch { mem := s.mem, cursor := s.cursor } (subBlocks_chained n) (by omega)
  cases hrun : runSubBlocks s nch (subBlocks n) { mem := s.mem, cursor := s.cursor } with
  | ok wk => exact absurd (processInputsWritten_iff.2 (hneeds.present wk hrun)) hmissing
  | error f =>
    obtain ⟨w, hw, hnone, rfl⟩ := hneeds.named f hrun
    exact ⟨w, hw, hnone, execProcess_of_fault hblock hready hrun⟩

/-- Settles O46: what the sub-blocks need is what R102 names, and the first sub-block meets IN[0] and then OUT[0][0]
before every other word. -/
theorem processFaultsOnUnwrittenWords : Obligations.ProcessFaultsOnUnwrittenWords := by
  intro s n nch hn hnch hconf hupd
  have hblock : legalBlock s.params n nch = true := legalBlock_iff.2 ⟨hn, hnch⟩
  have hready : ready s = true := by rw [ready, hconf, hupd]; rfl
  refine ⟨fun hpow hcap hmissing => ?_, fun hpos hnone => ?_, fun hpow hcap hpos hpos' hin hg hnone => ?_⟩
  · obtain ⟨w, hw, hnone, hfault⟩ := execProcess_names_missing_word hblock hready hpow hcap hmissing
    cases w with
    | input i =>
      obtain ⟨-, hi⟩ := hw
      exact .inl ⟨i, by omega, hnone, hfault⟩
    | output c i =>
      obtain ⟨hc, hg, -, hi⟩ := hw
      exact .inr ⟨c, i, hc, by omega, hg, hnone, hfault⟩
  · exact execProcess_of_fault hblock hready
      (runSubBlocks_of_fault hpos fun k hk _ => subBlock_of_unwritten_input hk hnone)
  · exact execProcess_of_fault hblock hready (runSubBlocks_of_fault hpos fun k hk hkn =>
      subBlock_of_unwritten_output hpow hcap hk hpos' (fun j hj => hin j (by omega)) hg hnone)

end Sys2Proof.Machine
end

section
/-!
SUPPORT. Proofs of the statements of 41_delay_line.md: the required length and its range (R111, R112), resize (R113),
DEVCHG (R115, R116), and the delays within the line (R118, with 43_lfo.md R146).
-/
namespace Sys2Proof.Machine

open Sys2Proof.Safety

/-! ### nextPow2 (R111) -/

theorem nextPow2_le_two_pow {n k : Nat} (h : n ≤ 2 ^ k) : nextPow2 n ≤ 2 ^ k := by
  unfold nextPow2
  split
  · exact Nat.one_le_two_pow
  · have hlog : (n - 1).log2 < k := (Nat.log2_lt (by omega)).2 (by omega)
    exact Nat.pow_le_pow_right two_pos hlog

theorem nextPow2_mono {m n : Nat} (h : m ≤ n) : nextPow2 m ≤ nextPow2 n := by
  obtain ⟨k, hk⟩ := nextPow2_powerOfTwo n
  rw [hk]
  exact nextPow2_le_two_pow (h.trans (hk ▸ le_nextPow2 n))

/-! ### The samples a rate needs (R112) -/

theorem fmul_maxDelay_two : fmul Config.maxDelay 0x40000000#32 = 0x3D03126F#32 := by decide +kernel

theorem requiredLength_eq (r : Word) : requiredLength r = nextPow2 (floorI (fmul 0x3D03126F#32 (u2f r)) + 1) := by
  rw [requiredLength, fmul_maxDelay_two]

/-- A greater rate gives a product with a finite factor no smaller floor. -/
theorem floorI_fmul_u2f_mono {a m n : Word} (ha : fIsFinite a = true) (h : m.toNat ≤ n.toNat) :
    floorI (fmul a (u2f m)) ≤ floorI (fmul a (u2f n)) :=
  Nat.div_le_div_right (fUnits_fmul_mono ha (u2f_finite m) ha (u2f_finite n) le_rfl (fUnits_u2f_mono h))

/-- The ends of the range are the products at the lowest and the highest legal rate. -/
theorem samples_of_legal_rate {r : Word} (hr : legalSampleRate r = true) :
    257 ≤ floorI (fmul 0x3D03126F#32 (u2f r)) + 1 ∧ floorI (fmul 0x3D03126F#32 (u2f r)) + 1 ≤ 6145 := by
  obtain ⟨hlow, hhigh⟩ := legalSampleRate_iff.1 hr
  have hfin : fIsFinite 0x3D03126F#32 = true := by decide
  have hmin : floorI (fmul 0x3D03126F#32 (u2f 8000#32)) = 256 := by decide +kernel
  have hmax : floorI (fmul 0x3D03126F#32 (u2f 192000#32)) = 6144 := by decide +kernel
  have hge := floorI_fmul_u2f_mono (m := 8000#32) hfin hlow
  have hle := floorI_fmul_u2f_mono (n := 192000#32) hfin hhigh
  omega

theorem requiredLength_bounds {r : Word} (hr : legalSampleRate r = true) :
    512 ≤ requiredLength r ∧ requiredLength r ≤ 8192 := by
  obtain ⟨hlow, hhigh⟩ := samples_of_legal_rate hr
  rw [requiredLength_eq]
  exact ⟨nextPow2_mono hlow, nextPow2_le_two_pow (k := 13) (by omega)⟩

/-- Settles O23: the exponent is one above the logarithm of n - 1, and the bound is the product at the highest rate. -/
theorem nextPow2IsLeast : Obligations.NextPow2IsLeast := by
  refine ⟨fun n _ => ⟨nextPow2_powerOfTwo n, le_nextPow2 n, ?_⟩, rfl, rfl, rfl, by decide, by decide, fun r hr => ?_,
    by decide +kernel⟩
  · rintro _ ⟨k, rfl⟩ hle
    exact nextPow2_le_two_pow hle
  · rw [← requiredLength_eq]
    exact ⟨(samples_of_legal_rate hr).2, (requiredLength_bounds hr).2⟩

/-- Settles O24: the ten rows of the table are computed. -/
theorem requiredLengthTable : Obligations.RequiredLengthTable := ⟨fmul_maxDelay_two, by decide +kernel⟩

/-! ### resize and DEVCHG (R113, R115, R116) -/

/-- Settles O26: a length that fits the RAM fits DL_LEN and the window, so what was cleared is both lines. -/
theorem resizeFitsOrFails : Obligations.ResizeFitsOrFails := by
  refine fun n s _ => ⟨resize_eq_none_iff.2, fun hfit => ?_⟩
  have hram := dlCap_le s.params
  refine ⟨_, resize_eq_some_iff.2 ⟨hfit, rfl⟩, rfl, ?_, fun k hk => ?_, fun a ha => ?_⟩
  · exact Nat.mod_eq_of_lt (by omega)
  · exact wordAt_clearDl_inside hk (by omega) _
  · exact byteAt_clearDl_outside (by unfold dlBase; omega) _

/-- Settles O27: such a rate is not a legal one. -/
theorem devchgRefusesRate : Obligations.DevchgRefusesRate := by
  intro s hs
  have hrate : ¬ legalSampleRate s.arg = true := fun h => by
    obtain ⟨hlow, hhigh⟩ := legalSampleRate_iff.1 h
    omega
  exact if_neg hrate

/-- A DEVCHG that fits ends, with the length the rate needs, in buffers that differ from those before in the words of
the two lines at most, which it then clears. -/
theorem execDevchg_of_fits {s : State} (hrate : legalSampleRate s.arg = true)
    (hfit : requiredLength s.arg = s.dlLen.toNat ∨ requiredLength s.arg ≤ s.params.dlCap) :
    ∃ mem, execDevchg s =
        .next (devchgDone { s with dlLen := BitVec.ofNat 32 (requiredLength s.arg), mem := mem }) ∧
      ∀ a, a < 0x40000 ∨ 0x40000 + 8 * requiredLength s.arg ≤ a → byteAt mem a = byteAt s.mem a := by
  rcases execDevchg_cases s with ⟨hbad, -⟩ | ⟨-, hlen, e⟩ | ⟨-, hne, hcap, -⟩ | ⟨t, -, -, hsize, e⟩
  · exact absurd hrate (by simp [hbad])
  · refine ⟨s.mem, ?_, fun _ _ => rfl⟩
    rw [hlen, BitVec.ofNat_toNat, BitVec.setWidth_eq]
    exact e
  · rw [nextPow2_requiredLength] at hcap
    omega
  · obtain ⟨-, rfl⟩ := resize_eq_some_iff.1 hsize
    rw [nextPow2_requiredLength] at e
    exact ⟨_, e, fun a ha => byteAt_clearDl_outside (by unfold dlBase; omega) _⟩

/-- Settles O25: the needed length is a power of two between those of the extreme rates, and 8192 fits the default
RAM. -/
theorem legalRatesFitDefaultCapacity : Obligations.LegalRatesFitDefaultCapacity := by
  intro r hr
  obtain ⟨hlow, hhigh⟩ := requiredLength_bounds hr
  refine ⟨hlow, hhigh, ?_⟩
  rintro s rfl hparams
  have hcap : s.params.dlCap = 8192 := by rw [hparams]; rfl
  obtain ⟨_, e, -⟩ := execDevchg_of_fits hr (.inr (hhigh.trans hcap.ge))
  exact ⟨_, e, rfl, rfl⟩

/-- Settles O29: DEVCHG's last clear covers both lines, and no clear on its way reaches past them. -/
theorem devchgSizesAndClears : Obligations.DevchgSizesAndClears := by
  intro s hlow hhigh hfit
  have hrate := legalSampleRate_iff.2 ⟨hlow, hhigh⟩
  obtain ⟨-, hmax⟩ := requiredLength_bounds hrate
  obtain ⟨mem, e, hmem⟩ := execDevchg_of_fits hrate hfit
  have hlen : (BitVec.ofNat 32 (requiredLength s.arg)).toNat = requiredLength s.arg := Nat.mod_eq_of_lt (by omega)
  refine ⟨_, e, rfl, hlen, fun k hk => ?_, fun a ha => ?_⟩
  · rw [devchgDone_mem, hlen]
    exact wordAt_clearDl_inside hk (by omega) mem
  · rw [devchgDone_mem, hlen, byteAt_clearDl_outside (by unfold dlBase; omega)]
    exact hmem a ha

/-! ### Delays within the line (R118, R146) -/

/-- Each delay of a run is that of a counter below the cycle length. -/
theorem exists_counter_of_mem_lfoRun {s : State} {o0 n : Nat} {d : Word} (hcycle : 0 < s.cycleLen.toNat)
    (hd : d ∈ lfoRun s o0 n) :
    ∃ o, o < s.cycleLen.toNat ∧ d = delayOf s.depthS s.baseDelay (waveValue sinF32 s.waveRt s.lfoScale o) := by
  obtain ⟨i, -, rfl⟩ := List.mem_map.1 hd
  exact ⟨_, Nat.mod_lt _ hcycle, rfl⟩

theorem waveValue_disabled_bound (wave : Word) :
    fIsFinite (waveValue sinF32 wave posZero 0) = true ∧ fUnits (waveValue sinF32 wave posZero 0) ≤ 2 ^ 149 := by
  rw [waveValue_disabled]
  split <;> decide +kernel

/-- After an UPDATE the waveform value of every counter of the cycle lies in [-1.0, 1.0], the LFO disabled or not. -/
theorem waveValue_bound_of_updated {s : State} {o : Nat} (hcoeff : CoeffInv s) (hupd : s.status.updated = true)
    (ho : o < s.cycleLen.toNat) :
    fIsFinite (waveValue sinF32 s.waveRt s.lfoScale o) = true ∧
      fUnits (waveValue sinF32 s.waveRt s.lfoScale o) ≤ 2 ^ 149 := by
  obtain ⟨-, -, -, -, -, -, ⟨hone, hscale, -⟩ | ⟨-, hscale⟩⟩ := hcoeff hupd
  · obtain rfl : o = 0 := by rw [hone] at ho; exact Nat.lt_one_iff.1 ho
    rw [hscale]
    exact waveValue_disabled_bound _
  · rw [hscale]
    exact waveValue_bound (by omega) ho.le

theorem delay_le_dlLen {s : State} {o0 n : Nat} {d : Word} (hcycle : 0 < s.cycleLen.toNat) (hcoeff : CoeffInv s)
    (hupd : s.status.updated = true) (hd : d ∈ lfoRun s o0 n) : d.toNat ≤ s.dlLen.toNat := by
  obtain ⟨o, ho, rfl⟩ := exists_counter_of_mem_lfoRun hcycle hd
  obtain ⟨hwave, hunit⟩ := waveValue_bound_of_updated hcoeff hupd ho
  obtain ⟨hline, hbase, hfin, hdepth, -⟩ := hcoeff hupd
  exact (delayOf_bound hwave hunit hfin hdepth (by omega)).trans hline

/-- Settles O41: the waveform moves the delay by at most the base delay, and twice the base delay fits the line. -/
theorem delaysStayWithinLine : Obligations.DelaysStayWithinLine := by
  rintro s p n d ⟨-, -, -, ⟨hcycle, -⟩, -, hcoeff⟩ hupd (hd | hd) <;>
    exact delay_le_dlLen hcycle hcoeff hupd hd

end Sys2Proof.Machine
end

section
/-!
SUPPORT. Proofs of the statements of 42_translator.md: UPDATE as one equation for each sign of the rate (R120 to R130),
and the ranges of the base delay, the cycle length and the phase offset (R122, R126, R128).
-/
namespace Sys2Proof.Machine

open Sys2Proof.Safety

/-! ### The ranges (R122, R126, R128) -/

/-- Settles O34: a legal delay is at most MAX_DELAY, whose product with the highest rate rounds to 3072, and twice the
product is what the line's length is computed from. -/
theorem baseDelayFitsLine : Obligations.BaseDelayFitsLine := fun _ _ hd hr => baseDelay_bounds hd hr

/-- Settles O35: the quotient is least at the lowest rate over the highest LFO rate, and saturates; the rule's examples
are computed. -/
theorem cycleLengthRange : Obligations.CycleLengthRange :=
  ⟨fun _ _ hr hv hpos => cycleLength_bounds hr hv hpos, by decide +kernel⟩

/-- Settles O36: the fraction of the cycle stays so far below 1 that no rounding passes the cycle; the rule's examples
are computed. -/
theorem phaseOffsetWithinCycle : Obligations.PhaseOffsetWithinCycle :=
  ⟨fun _ _ hlow _ hph => phaseOffset_le (by omega) hph, by decide +kernel⟩

/-! ### UPDATE as one equation (R120 to R130) -/

/-- The state after an UPDATE that found these values for the LFO's three registers (R121 to R124, R129, R130). -/
def withCoefficients (s : State) (cycle scale offset : Word) : State :=
  { s with
    waveRt := s.pWaveform
    baseDelay := roundS32 (fmul s.pDelay (u2f s.srate))
    depthS := fmul s.pDepth (i2f (roundS32 (fmul s.pDelay (u2f s.srate))))
    feedbackRt := s.pFeedback
    cycleLen := cycle
    lfoScale := scale
    phaseOff := offset
    gainRt0 := s.gainIn0
    gainRt1 := s.gainIn1
    status := updatedStatus s.status }

theorem translate_eq_withCoefficients (s : State) :
    translate s = withCoefficients s (translate s).cycleLen (translate s).lfoScale (translate s).phaseOff :=
  translate_frame s

theorem translate_of_rate {s : State} (h : flt posZero s.pRate = true) :
    translate s = withCoefficients s (cycleLength s.srate s.pRate)
      (scaleFor s.pWaveform (cycleLength s.srate s.pRate)) (phaseOffset (cycleLength s.srate s.pRate) s.pPhase) := by
  obtain ⟨hcycle, hscale, hoff⟩ := translate_lfo_of_rate h
  rw [translate_eq_withCoefficients, hcycle, hscale, hoff]

theorem translate_of_no_rate {s : State} (h : flt posZero s.pRate = false) :
    translate s = withCoefficients s 1#32 posZero 0#32 := by
  obtain ⟨hcycle, hscale, hoff⟩ := translate_lfo_of_no_rate h
  rw [translate_eq_withCoefficients, hcycle, hscale, hoff]

theorem execUpdate_of_configured {s : State} (h : s.status.configured = true) :
    execUpdate s = .next (translate s) := if_pos h

/-- UPDATE reads no register that it writes, and keeps the flags that it does not set (R120). -/
theorem translate_withCoefficients (s : State) (cycle scale offset : Word) :
    translate (withCoefficients s cycle scale offset) = translate s := by
  have hrate : (withCoefficients s cycle scale offset).pRate = s.pRate := rfl
  cases h : flt posZero s.pRate with
  | false => rw [translate_of_no_rate h, translate_of_no_rate (hrate ▸ h)]; rfl
  | true => rw [translate_of_rate h, translate_of_rate (hrate ▸ h)]; rfl

theorem translate_translate (s : State) : translate (translate s) = translate s := by
  conv_lhs => rw [translate_eq_withCoefficients s]
  exact translate_withCoefficients s _ _ _

/-! ### The command (R120, R125) -/

/-- Settles O30: UPDATE's first test raises NOT_READY. -/
theorem updateNeedsConfigured : Obligations.UpdateNeedsConfigured := fun _ h => execUpdate_of_not_configured h

/-- Settles O31: UPDATE's equation at a positive rate. -/
theorem updateWritesCoefficients : Obligations.UpdateWritesCoefficients := fun _ hconf hrate =>
  (execUpdate_of_configured hconf).trans (congrArg _ (translate_of_rate hrate))

/-- Settles O32: UPDATE's equation at a rate that is not positive. -/
theorem updateDisablesLfo : Obligations.UpdateDisablesLfo := fun _ hconf hrate =>
  (execUpdate_of_configured hconf).trans (congrArg _ (translate_of_no_rate hrate))

/-- Settles O33: the first UPDATE keeps CONFIGURED, and the second computes the same state. -/
theorem updateIsIdempotent : Obligations.UpdateIsIdempotent := by
  intro s t hconf h
  obtain rfl : translate s = t := Host.Outcome.next.inj ((execUpdate_of_configured hconf).symm.trans h)
  have hconf' : (translate s).status.configured = true := by rw [translate_frame]; exact hconf
  exact (execUpdate_of_configured hconf').trans (congrArg _ (translate_translate s))

end Sys2Proof.Machine
end

section
/-!
SUPPORT. Proofs of the statements of 43_lfo.md: the counters and their periods (R141, R142, R147), the laws of the
sine (R145), and the constant delay of the disabled LFO (R148).
-/
namespace Sys2Proof.Machine

/-! ### The counters (R141, R142, R147) -/

theorem lfoCounter_zero {o0 cycle : Nat} (h : o0 < cycle) : lfoCounter o0 cycle 0 = o0 := Nat.mod_eq_of_lt h

theorem lfoCounter_succ (o0 cycle i : Nat) : lfoCounter o0 cycle (i + 1) = (lfoCounter o0 cycle i + 1) % cycle :=
  (Nat.mod_add_mod (o0 + i) cycle 1).symm

theorem lfoCounter_lt {cycle : Nat} (h : 0 < cycle) (o0 i : Nat) : lfoCounter o0 cycle i < cycle := Nat.mod_lt _ h

theorem lfoCounter_cycle_one (o0 i : Nat) : lfoCounter o0 1 i = 0 := Nat.mod_one _

/-- Settles O37: the counter is the sample's distance from the start, reduced modulo the cycle length. -/
theorem lfoCountersAdvance : Obligations.LfoCountersAdvance := fun o0 cycle i h =>
  ⟨lfoCounter_zero h, lfoCounter_succ o0 cycle i, rfl, lfoCounter_lt (by omega) o0 i,
    fun hone => hone ▸ lfoCounter_cycle_one o0 i⟩

/-- Channel 1 is channel 0 ahead by PHASE_OFF, at the wrap of the CURSOR too (R141). -/
theorem startCounter1_eq_startCounter0 (s : State) (p : Word) :
    startCounter1 s p = startCounter0 s (p + s.phaseOff) := rfl

/-- One cycle later, short of the wrap of the CURSOR, the counter starts at the same value (R147). -/
theorem startCounter0_add_cycleLen {s : State} {p : Word} (h : p.toNat + s.cycleLen.toNat < 2 ^ 32) :
    startCounter0 s (p + s.cycleLen) = startCounter0 s p := by
  unfold startCounter0
  rw [BitVec.toNat_add_of_lt h, Nat.add_mod_right]

theorem startCounter1_add_cycleLen {s : State} {p : Word}
    (h : p.toNat + s.phaseOff.toNat + s.cycleLen.toNat < 2 ^ 32) :
    startCounter1 s (p + s.cycleLen) = startCounter1 s p := by
  have hsum : (p + s.phaseOff).toNat = p.toNat + s.phaseOff.toNat := BitVec.toNat_add_of_lt (by omega)
  rw [startCounter1_eq_startCounter0, startCounter1_eq_startCounter0, add_right_comm,
    startCounter0_add_cycleLen (by rwa [hsum])]

/-- Settles O39: a run depends on the CURSOR through its start counter alone. -/
theorem delaysArePeriodic : Obligations.DelaysArePeriodic := fun s p n h =>
  ⟨congrArg (lfoRun s · n) (startCounter0_add_cycleLen (by omega)),
    congrArg (lfoRun s · n) (startCounter1_add_cycleLen h),
    congrArg (lfoRun s · n) (startCounter1_eq_startCounter0 s p)⟩

/-! ### The sine (R145) -/

theorem sinF32_zero : sinF32 0#32 = 0#32 := if_pos rfl

/-- Law (a): the raw value is kept on the domain only where it lies in [-1.0, 1.0]. -/
theorem sinF32_in_unit_interval {x : Word} (h : sineDomain x = true) :
    inClosed 0xBF800000#32 0x3F800000#32 (sinF32 x) = true := by
  have hzero : inClosed 0xBF800000#32 0x3F800000#32 posZero = true := by decide +kernel
  unfold sinF32
  split_ifs with hx hraw
  · exact hzero
  · exact hzero
  · simpa [h] using hraw

/-- Settles O38: the free value is replaced wherever it breaks a law. -/
theorem sineObeysItsLaws : Obligations.SineObeysItsLaws :=
  ⟨fun _ hlow hhigh => Bool.and_eq_true_iff.1 (sinF32_in_unit_interval (Bool.and_eq_true_iff.2 ⟨hlow, hhigh⟩)),
    sinF32_zero⟩

/-! ### Products with the two waveform values of the disabled LFO -/

theorem fmul_posZero {x : Word} (hx : fIsFinite x = true) : fmul posZero x = fPack (fNeg x) 0 := by
  have hround : roundMag 0 (2 ^ 149) = 0 := by decide +kernel
  have hneg : fNeg posZero = false := by decide
  have hunits : fUnits posZero = 0 := by decide +kernel
  rw [fmul_finite (by decide) hx, hneg, hunits, Nat.zero_mul, hround, Bool.false_bne]

theorem fmul_neg_one {x : Word} (hx : fIsFinite x = true) : fmul 0xBF800000#32 x = fneg x := by
  have hneg : fNeg 0xBF800000#32 = true := by decide
  have hunits : fUnits 0xBF800000#32 = 2 ^ 149 := by decide +kernel
  have hround : roundMag (2 ^ 149 * fUnits x) (2 ^ 149) = fMag x := by
    rw [Nat.mul_comm]; exact roundMag_exact (by positivity) (fIsFinite_iff.1 hx).le
  rw [fmul_finite (by decide) hx, hneg, hunits, hround, Bool.true_bne, ← fNeg_fneg, ← fMag_fneg, fPack_fNeg_fMag]

/-- Rounding to an integer is symmetric (R12). -/
theorem roundInt_fneg (x : Word) : roundInt (fneg x) = -roundInt x := by
  unfold roundInt
  rw [fNeg_fneg, fUnits, fMag_fneg, ← fUnits]
  cases fNeg x <;> simp

/-! ### The disabled LFO (R148) -/

theorem roundS32_signed_zero (neg : Bool) : roundS32 (fPack neg 0) = 0#32 := by
  cases neg <;> decide +kernel

theorem delayOf_posZero {ds : Word} (base : Word) (hds : fIsFinite ds = true) : delayOf ds base posZero = base := by
  unfold delayOf
  rw [fmul_posZero hds, roundS32_signed_zero, BitVec.zero_add]

theorem delayOf_neg_one {ds : Word} (base : Word) (hds : fIsFinite ds = true) (hlow : -2147483648 < roundInt ds)
    (hhigh : roundInt ds < 2147483648) :
    delayOf ds base 0xBF800000#32 = base - BitVec.ofInt 32 (roundInt ds) := by
  have hround : roundS32 (fneg ds) = BitVec.ofInt 32 (-roundInt ds) := by
    rw [← roundInt_fneg]
    exact roundS32_eq (fIsFinite_fneg hds) (by rw [roundInt_fneg]; omega) (by rw [roundInt_fneg]; omega)
  unfold delayOf
  rw [fmul_neg_one hds, hround, BitVec.ofInt_neg, BitVec.add_comm, BitVec.sub_eq_add_neg]

/-- With a cycle of one and a scale of +0.0 every delay is that of the waveform's value at counter 0. -/
theorem delay_of_disabled {s : State} {o0 n : Nat} {d : Word} (hcycle : s.cycleLen = 1#32) (hscale : s.lfoScale = 0#32)
    (hd : d ∈ lfoRun s o0 n) :
    d = delayOf s.depthS s.baseDelay (if s.waveRt = 1#32 then 0xBF800000#32 else posZero) := by
  obtain ⟨o, ho, rfl⟩ := exists_counter_of_mem_lfoRun (by rw [hcycle]; decide) hd
  obtain rfl : o = 0 := by rw [hcycle] at ho; exact Nat.lt_one_iff.1 ho
  rw [hscale, ← waveValue_disabled]
  rfl

/-- Settles O40: the only counter is 0, where the sinusoid is +0.0 and the triangle -1.0. -/
theorem disabledLfoDelayIsConstant : Obligations.DisabledLfoDelayIsConstant := by
  intro s p n d hcycle hscale hds hlow hhigh hd
  obtain rfl := hd.elim (delay_of_disabled hcycle hscale) (delay_of_disabled hcycle hscale)
  refine ⟨fun hsine => ?_, fun htriangle => ?_⟩
  · rw [hsine, if_neg (by decide)]
    exact delayOf_posZero _ hds
  · rw [if_pos htriangle]
    exact delayOf_neg_one _ hds hlow hhigh

end Sys2Proof.Machine
end

section
/-!
SUPPORT. Proofs of the statements of 44_block_processor.md: the operand checks and the sub-blocks of PROCESS (R160,
R161), what it changes (R169), the silence threshold (R168), and the words it stores sample by sample (R162 to R170).
-/
namespace Sys2Proof.Machine

open Sys2Proof.Safety

/-! ### Which way PROCESS goes (R160) -/

theorem ready_iff {s : State} : ready s = true ↔ s.status.configured = true ∧ s.status.updated = true := by
  simp [ready]

theorem execProcess_of_illegal {n nch : Nat} {s : State} (hblock : legalBlock s.params n nch = false) :
    execProcess n nch s = .next (raise .invalidValue s) := by
  simp [execProcess, hblock]

/-- A PROCESS on a ready core completes with what its sub-blocks leave. -/
theorem execProcess_of_run {s : State} {n nch : Nat} {wk : Work} (hblock : legalBlock s.params n nch = true)
    (hready : ready s = true)
    (hrun : runSubBlocks s nch (subBlocks n) { mem := s.mem, cursor := s.cursor } = .ok wk) :
    execProcess n nch s = .next (succeed { s with mem := wk.mem, cursor := wk.cursor }) := by
  simp [execProcess, hblock, hready, hrun]

/-- Settles O42: the operands are checked before the flags, and no sample means no sub-block. -/
theorem processThatRunsNoSampleWritesOnlyErr : Obligations.ProcessThatRunsNoSampleWritesOnlyErr := by
  intro s n nch
  refine ⟨fun hout => ?_, fun hn hnch hflags => ?_, fun hnch hconf hupd => ?_⟩
  · have hillegal : ¬ legalBlock s.params n nch = true := by rw [legalBlock_iff]; omega
    exact execProcess_of_illegal (Bool.eq_false_iff.2 hillegal)
  · have hnot : ¬ ready s = true := by
      rw [ready_iff]
      rintro ⟨hconf, hupd⟩
      simp [hconf, hupd] at hflags
    exact execProcess_of_not_ready (legalBlock_iff.2 ⟨hn, hnch⟩) (Bool.eq_false_iff.2 hnot)
  · exact execProcess_of_run (legalBlock_iff.2 ⟨Nat.zero_le _, hnch⟩) (ready_iff.2 ⟨hconf, hupd⟩) rfl

/-! ### The sub-blocks (R161) -/

theorem sum_of_chained {bs : List (Nat × Nat)} {b k : Nat} (h : Chained b k bs) : (bs.map Prod.snd).sum = k := by
  induction bs generalizing b k with
  | nil => exact h.symm
  | cons blk bs ih =>
    obtain ⟨-, hk, hrest⟩ := h
    rw [List.map_cons, List.sum_cons, ih hrest]
    omega

theorem subBlocks_length (n : Nat) : (subBlocks n).length = (n + 127) / 128 := by
  simp [subBlocks, Config.subBlock]

theorem subBlocks_getElem? {n j : Nat} (hj : j < (n + 127) / 128) :
    (subBlocks n)[j]? = some (128 * j, min 128 (n - 128 * j)) := by
  simp [subBlocks, Config.subBlock, List.getElem?_range hj]

/-- Settles O48: the sum is that of a chain of sub-blocks from 0 to n. -/
theorem subBlocksCoverTheBlock : Obligations.SubBlocksCoverTheBlock := fun n =>
  ⟨subBlocks_length n, fun _ hj => ⟨subBlocks_getElem? hj, by omega⟩, sum_of_chained (subBlocks_chained n)⟩

/-! ### The silence threshold (R168) -/

/-- A magnitude is above a positive finite value exactly when its encoding is, up to the infinity's. -/
theorem flt_fabs_iff {a : Word} (ha : fIsFinite a = true) (hpos : fNeg a = false) (g : Word) :
    flt a (fabs g) = true ↔ fMag a < fMag g ∧ fMag g ≤ 0x7F800000 := by
  have hvalue : fValue a < fValue (fabs g) ↔ fMag a < fMag g := by
    have hunits : fUnits a < fUnits g ↔ fMag a < fMag g := by
      rw [← not_le, ← not_le]
      exact not_congr unitsOfMag_le_iff
    rw [fValue_fabs, fValue, hpos, ← hunits]
    exact Int.ofNat_lt
  have hnan : fIsNan (fabs g) = false ↔ fMag g ≤ 0x7F800000 := by
    rw [fabs_eq, fIsNan, fMag_fPack (fMag_lt g), decide_eq_false_iff_not, not_lt]
  simp only [flt, fIsNan_of_finite ha, Bool.not_false, Bool.true_and, Bool.and_eq_true, Bool.not_eq_true',
    decide_eq_true_eq, hvalue, hnan]
  exact and_comm

/-- Settles O47: magnitudes are in the order of their encodings. -/
theorem silenceThresholdByEncoding : Obligations.SilenceThresholdByEncoding := fun g =>
  flt_fabs_iff (a := Config.gainSilence) (by decide) (by decide) g

/-! ### What PROCESS changes (R169) -/

/-- The bytes that the sub-blocks store to are those of R169. -/
theorem processStores_of_stored {s : State} {n nch a : Nat} (h : slotBytes s s.cursor n a ∨ mixedBytes s nch 0 n a) :
    processStores s n nch a := by
  rcases h with hslot | ⟨c, hc, hg, j, hj, hword⟩
  · exact .inl hslot
  · exact .inr ⟨c, j, hc, hj, hg, by rwa [Nat.zero_add] at hword⟩

/-- Settles O44: an error keeps all but ERR, and a run stores only what its sub-blocks store. -/
theorem processFrame : Obligations.ProcessFrame := by
  intro s t n nch h
  change execProcess n nch s = .next t at h
  rcases execProcess_cases n nch s with ⟨-, e⟩ | ⟨-, -, e⟩ | ⟨-, -, ⟨wk, hrun, e⟩ | ⟨f, -, e⟩⟩ <;>
    (rw [e] at h; cases h)
  · exact ⟨rfl, fun _ _ => rfl, nofun, fun _ => ⟨rfl, rfl⟩⟩
  · exact ⟨rfl, fun _ _ => rfl, nofun, fun _ => ⟨rfl, rfl⟩⟩
  · obtain ⟨hcursor, hkeeps⟩ := runSubBlocks_keeps (subBlocks_chained n) hrun
    exact ⟨rfl, fun a ha => hkeeps.frame a fun hstored => ha (processStores_of_stored hstored),
      fun _ => hcursor, fun herr => absurd rfl herr⟩

/-! ### A PROCESS that completes (R160, R243) -/

/-- Settles O43: with the words of R102 there no sub-block stops, and together they move the CURSOR by n. -/
theorem processCompletes : Obligations.ProcessCompletes := by
  intro s n nch hn hnch hconf hupd hpow hcap hwritten
  obtain ⟨hin, hout⟩ := hwritten
  obtain ⟨wk, hrun⟩ := runSubBlocks_total hpow hcap (nch := nch) (wk := { mem := s.mem, cursor := s.cursor })
    (subBlocks_chained n) (fun j hj => by rw [Nat.zero_add]; exact hin j hj)
    (fun c hc hg j hj => by rw [Nat.zero_add]; exact hout c j hc hj hg)
  obtain ⟨hcursor, -⟩ := runSubBlocks_keeps (subBlocks_chained n) hrun
  refine ⟨_, execProcess_of_run (legalBlock_iff.2 ⟨hn, hnch⟩) (ready_iff.2 ⟨hconf, hupd⟩) hrun, ?_⟩
  rw [hcursor]
  rfl

/-! ### The words a PROCESS leaves (R161 to R168, R170) -/

/-- An OUT word after both lines' terms of its sample (R167). -/
def outAfter (s : State) (c i : Nat) (out : Word) : Word :=
  mixTerm (gainAt s.gainRt1 c) (wetAt s 1 i) (mixTerm (gainAt s.gainRt0 c) (wetAt s 0 i) out)

/-- The work of a PROCESS from s into nch channels has its first b samples run and mixed, and no other sample begun. -/
structure AtBlock (s : State) (nch b : Nat) (wk : Work) : Prop extends AtSample s b wk where
  mixed : ∀ c i, c < nch → i < b →
    wordAt wk.mem (outAddr c i) = (wordAt s.mem (outAddr c i)).map (outAfter s c i)
  unmixed : ∀ c i, c < 16 → b ≤ i → i < 2048 → wordAt wk.mem (outAddr c i) = wordAt s.mem (outAddr c i)

theorem atBlock_zero {s : State} (nch : Nat) (hm : memoryWf s.mem = true) (hcap : s.dlLen.toNat ≤ s.params.dlCap) :
    AtBlock s nch 0 { mem := s.mem, cursor := s.cursor } where
  toAtSample := atSample_zero hm hcap
  mixed _ _ _ hi := absurd hi (Nat.not_lt_zero _)
  unmixed _ _ _ _ _ := rfl

/-- The sub-blocks start at the multiples of 128 and have at most 128 samples. -/
theorem subBlocks_aligned {n : Nat} {blk : Nat × Nat} (h : blk ∈ subBlocks n) :
    ∃ q, blk.1 = 128 * q ∧ blk.2 ≤ 128 := by
  obtain ⟨j, -, rfl⟩ := List.mem_map.1 h
  exact ⟨j, rfl, min_le_left _ _⟩

section
variable {s : State} (hpow : PowerOfTwo s.dlLen.toNat) (hcap : s.dlLen.toNat ≤ s.params.dlCap) {n nch : Nat}
  (hn : n ≤ 2048) (hnch : nch ≤ 16) (hwritten : processInputsWritten s n nch)
include hpow hcap hn hnch hwritten

/-- A sub-block of n written samples leads from the samples before it to those up to its end. -/
theorem subBlock_atBlock {q k : Nat} {wk : Work} (hk : k ≤ 128) (hend : 128 * q + k ≤ n)
    (h : AtBlock s nch (128 * q) wk) :
    ∃ wk', subBlock s nch (128 * q, k) wk = .ok wk' ∧ AtBlock s nch (128 * q + k) wk' := by
  obtain ⟨hin, hout⟩ := hwritten
  obtain ⟨wk', hrun, hat, hmixed, hkept⟩ := subBlock_words hpow hcap hnch hk (hend.trans hn)
    (fun i hi => hin _ (by omega))
    (fun c hc hg i hi => by
      rw [h.unmixed c _ (by omega) (by omega) (by omega)]
      exact hout c _ hc (by omega) hg)
    h.toAtSample
  refine ⟨wk', hrun, hat, fun c i hc hi => ?_, fun c i hc hle hi => ?_⟩
  · rcases Nat.lt_or_ge i (128 * q) with hbefore | hfrom
    · rw [hkept c i (by omega) (by omega) (.inl hbefore), h.mixed c i hc hbefore]
    · obtain ⟨j, rfl⟩ := Nat.exists_eq_add_of_le hfrom
      rw [hmixed c j hc (by omega), h.unmixed c _ (by omega) hfrom (by omega)]
      rfl
  · rw [hkept c i hc hi (.inr hle), h.unmixed c i hc (by omega) hi]

/-- The sub-blocks of a chain that ends at n, from its first sample on (R161). -/
theorem runSubBlocks_atBlock {bs : List (Nat × Nat)} {b k : Nat} {wk : Work} (hbs : Chained b k bs)
    (haligned : ∀ blk ∈ bs, ∃ q, blk.1 = 128 * q ∧ blk.2 ≤ 128) (hend : b + k = n) (h : AtBlock s nch b wk) :
    ∃ wk', runSubBlocks s nch bs wk = .ok wk' ∧ AtBlock s nch n wk' := by
  induction bs generalizing b k wk with
  | nil =>
    obtain rfl : k = 0 := hbs
    obtain rfl : b = n := hend
    exact ⟨wk, rfl, h⟩
  | cons blk bs ih =>
    obtain ⟨b', k'⟩ := blk
    obtain ⟨rfl, hle, hbs⟩ := hbs
    obtain ⟨q, rfl, hk⟩ := haligned _ (List.mem_cons_self ..)
    obtain ⟨wk1, hblk, h1⟩ := subBlock_atBlock hpow hcap hn hnch hwritten hk (by dsimp only at hle; omega) h
    obtain ⟨wk', hrun, h'⟩ := ih hbs (fun blk hmem => haligned blk (List.mem_cons_of_mem _ hmem))
      (by dsimp only at hle ⊢; omega) h1
    exact ⟨wk', by rw [runSubBlocks, hblk, except_bind_ok, hrun], h'⟩

end

/-- Settles O45: sub-block by sub-block, the n samples are run and mixed. -/
theorem processStoresEverySample : Obligations.ProcessStoresEverySample := by
  intro s n nch hn hnch hconf hupd hpow hcap hwritten hwf
  have hblock : legalBlock s.params n nch = true := legalBlock_iff.2 ⟨hn, hnch⟩
  obtain ⟨hn', hnch'⟩ := legalBlock_bounds hblock
  obtain ⟨wk, hrun, hat⟩ := runSubBlocks_atBlock hpow hcap hn' hnch' hwritten (subBlocks_chained n)
    (fun _ => subBlocks_aligned) (Nat.zero_add n) (atBlock_zero nch hwf hcap)
  refine ⟨_, execProcess_of_run hblock (ready_iff.2 ⟨hconf, hupd⟩) hrun, hat.cursor, hat.lines,
    fun c i o hc hi ho => ?_⟩
  rw [succeed_mem, hat.mixed c i hc hi, ho]
  rfl

end Sys2Proof.Machine
end

section
/-!
SUPPORT. Proofs of the statements of 45_accessors.md: the legal set of each SETP by its encodings (R190 to R196), and
the six GETPs (R197 to R202).
-/
namespace Sys2Proof.Machine

/-! ### Legal integers, by encoding (R191, R192) -/

theorem legalWaveform_iff {v : Word} : legalWaveform v = true ↔ v.toNat ≤ 1 := by
  simp only [legalWaveform, Bool.or_eq_true, decide_eq_true_eq, ← BitVec.toNat_inj, BitVec.toNat_ofNat]
  omega

/-- The words up to 180, and those from that of -180 up. -/
theorem legalPhase_iff {v : Word} : legalPhase v = true ↔ v.toNat ≤ 180 ∨ 0xFFFFFF4C ≤ v.toNat := by
  have hint := BitVec.toInt_eq_toNat_cond v
  have hlt := v.isLt
  simp only [legalPhase, Bool.and_eq_true, decide_eq_true_eq]
  split at hint <;> omega

/-! ### Closed intervals from zero, by encoding (R193, R194, R196) -/

theorem legalRate_iff {v : Word} : legalRate v = true ↔ v.toNat ≤ 0x41200000 ∨ v = 0x80000000#32 :=
  inClosed_zero_iff (by decide)

theorem legalDepth_iff {v : Word} : legalDepth v = true ↔ v.toNat ≤ 0x3F800000 ∨ v = 0x80000000#32 :=
  inClosed_zero_iff (by decide)

theorem legalDelay_iff {v : Word} : legalDelay v = true ↔ v.toNat ≤ 0x3C83126F ∨ v = 0x80000000#32 :=
  inClosed_zero_iff (by decide)

/-! ### A closed interval about zero, by encoding (R195) -/

theorem fIsNan_fneg (x : Word) : fIsNan (fneg x) = fIsNan x := by
  rw [fIsNan, fMag_fneg, fIsNan]

/-- `-hi <= v and v <= hi` bounds the magnitude of v alone, and its encoding with it. -/
theorem inClosed_fneg_iff {hi v : Word} (hfin : fIsFinite hi = true) (hpos : fNeg hi = false) :
    inClosed (fneg hi) hi v = true ↔ fMag v ≤ fMag hi := by
  have hvalue : fValue hi = fUnits hi := by rw [fValue, hpos]; rfl
  have hmag : (-(fUnits hi : Int) ≤ fValue v ∧ fValue v ≤ fUnits hi) ↔ fMag v ≤ fMag hi := by
    rw [← unitsOfMag_le_iff, ← fUnits, ← fUnits, ← natAbs_fValue v]
    omega
  have hnan (h : fMag v ≤ fMag hi) : fIsNan v = false :=
    fIsNan_of_finite (fIsFinite_iff.2 (h.trans_lt (fIsFinite_iff.1 hfin)))
  simp only [inClosed, fle, fIsNan_fneg, fIsNan_of_finite hfin, fValue_fneg, hvalue, Bool.not_false, Bool.true_and,
    Bool.and_true, Bool.and_eq_true, Bool.not_eq_true', decide_eq_true_eq]
  rw [← hmag] at hnan ⊢
  exact ⟨fun ⟨⟨_, hlow⟩, _, hhigh⟩ => ⟨hlow, hhigh⟩, fun h => ⟨⟨hnan h, h.1⟩, hnan h, h.2⟩⟩

/-- The encodings up to that of 1.0, and those from that of -0.0 up to that of -1.0. -/
theorem legalFeedback_iff {v : Word} :
    legalFeedback v = true ↔ v.toNat ≤ 0x3F800000 ∨ (0x80000000 ≤ v.toNat ∧ v.toNat ≤ 0xBF800000) := by
  have hlt := v.isLt
  have hone : fMag 0x3F800000#32 = 0x3F800000 := rfl
  have hinterval : legalFeedback v = inClosed (fneg 0x3F800000#32) 0x3F800000#32 v := rfl
  rw [hinterval, inClosed_fneg_iff (by decide) (by decide), hone, fMag]
  omega

/-! ### The accessors (R190) -/

/-- A SETP whose legal set is described by P. -/
theorem setParam_of_legal_iff {legal : Word → Bool} (store : Word → State → State) {s : State} {P : Prop} [Decidable P]
    (h : legal s.arg = true ↔ P) :
    setParam legal store s = .next (if P then succeed (store s.arg s) else raise .invalidValue s) := by
  rcases setParam_cases legal store s with ⟨hillegal, e⟩ | ⟨hlegal, e⟩
  · rw [e, if_neg (by simp [← h, hillegal])]
  · rw [e, if_pos (h.1 hlegal)]

/-- Settles O49: a SETP stores by its legal set, which for the two integers is a range or two of words. -/
theorem setpIntegersByEncoding : Obligations.SetpIntegersByEncoding := by
  refine fun s => ⟨?_, ?_⟩
  · rw [exec, execSetpWaveform, setParam_of_legal_iff _ legalWaveform_iff]; rfl
  · rw [exec, execSetpPhase, setParam_of_legal_iff _ legalPhase_iff]; rfl

/-- Settles O50: the intervals from 0.0 hold the encodings up to their end's and -0.0, the one about zero bounds the
magnitude. -/
theorem setpBinary32ByEncoding : Obligations.SetpBinary32ByEncoding := by
  refine fun s => ⟨?_, ?_, ?_, ?_⟩
  · rw [exec, execSetpRate, setParam_of_legal_iff _ legalRate_iff]; rfl
  · rw [exec, execSetpDepth, setParam_of_legal_iff _ legalDepth_iff]; rfl
  · rw [exec, execSetpFeedback, setParam_of_legal_iff _ legalFeedback_iff]; rfl
  · rw [exec, execSetpDelay, setParam_of_legal_iff _ legalDelay_iff]; rfl

/-- Settles O51: each word is its command's encoding, and each GETP is the one transfer to ARG. -/
theorem getpReturnsParameter : Obligations.GetpReturnsParameter :=
  ⟨⟨decodeUndoesEncode .getpWaveform rfl, decodeUndoesEncode .getpPhase rfl, decodeUndoesEncode .getpRate rfl,
      decodeUndoesEncode .getpDepth rfl, decodeUndoesEncode .getpFeedback rfl, decodeUndoesEncode .getpDelay rfl⟩,
    fun _ => ⟨rfl, rfl, rfl, rfl, rfl, rfl⟩, rfl, rfl, rfl, rfl, rfl, rfl⟩

end Sys2Proof.Machine
end

section
/-!
SUPPORT. Proofs of the statements of 60_exceptions.md: the illegal command word (R217), DEVCHG's ALLOC_FAIL (R215, with
41_delay_line.md R116), and what a command that ends in an error leaves (R212).
-/
namespace Sys2Proof.Machine

/-! ### The illegal command word (R217) -/

/-- Settles O6: the step is the write to CMD, whose word the decoder refuses as illegal. -/
theorem illegalWordWritesOnlyErr : Obligations.IllegalWordWritesOnlyErr := by
  refine ⟨rfl, fun s w rest hh hill => ?_⟩
  rw [step_command hh, runCommand, decode_of_illegalWord hill]
  rfl

/-! ### ALLOC_FAIL (R215) -/

/-- A legal rate whose line is not the present one and does not fit the RAM. -/
theorem execDevchg_of_too_long {s : State} (hrate : legalSampleRate s.arg = true)
    (hne : requiredLength s.arg ≠ s.dlLen.toNat) (hlong : s.params.dlCap < requiredLength s.arg) :
    execDevchg s = .next (devchgFail .allocFail s) := by
  have hsize : resize (requiredLength s.arg) s = none := by
    rwa [resize_eq_none_iff, nextPow2_requiredLength]
  simp [execDevchg, hrate, hne, hsize]

/-- Settles O28: the needed length is a power of two already, so resize refuses it. -/
theorem devchgReportsAllocFail : Obligations.DevchgReportsAllocFail := fun _ hlow hhigh hne hlong =>
  execDevchg_of_too_long (legalSampleRate_iff.2 ⟨hlow, hhigh⟩) hne hlong

/-! ### What an error leaves (R212): each command that can end in one, then all of them -/

theorem execDevchg_of_error {s t : State} (h : execDevchg s = .next t) (herr : t.status.err ≠ .ok) :
    ∃ code, t = devchgFail code s := by
  rcases execDevchg_cases s with ⟨-, e⟩ | ⟨-, -, e⟩ | ⟨-, -, -, e⟩ | ⟨u, -, -, -, e⟩ <;> (rw [e] at h; cases h)
  · exact ⟨_, rfl⟩
  · exact absurd rfl herr
  · exact ⟨_, rfl⟩
  · exact absurd rfl herr

theorem execUpdate_of_error {s t : State} (h : execUpdate s = .next t) (herr : t.status.err ≠ .ok) :
    ∃ code, t = raise code s := by
  rcases execUpdate_cases s with ⟨-, e⟩ | ⟨-, e⟩ <;> (rw [e] at h; cases h)
  · exact ⟨_, rfl⟩
  · exact absurd rfl herr

theorem execProcess_of_error {n nch : Nat} {s t : State} (h : execProcess n nch s = .next t)
    (herr : t.status.err ≠ .ok) : ∃ code, t = raise code s := by
  rcases execProcess_cases n nch s with ⟨-, e⟩ | ⟨-, -, e⟩ | ⟨-, -, ⟨wk, -, e⟩ | ⟨f, -, e⟩⟩ <;>
    (rw [e] at h; cases h)
  · exact ⟨_, rfl⟩
  · exact ⟨_, rfl⟩
  · exact absurd rfl herr

theorem setParam_of_error {legal : Word → Bool} {store : Word → State → State} {s t : State}
    (h : setParam legal store s = .next t) (herr : t.status.err ≠ .ok) : ∃ code, t = raise code s := by
  rcases setParam_cases legal store s with ⟨-, e⟩ | ⟨-, e⟩ <;> (rw [e] at h; cases h)
  · exact ⟨_, rfl⟩
  · exact absurd rfl herr

/-- A command that ends in an error raised it, or is a DEVCHG that failed; RESET, RELEASE and the GETPs end in none. -/
theorem exec_of_error {i : Instr} {s t : State} (h : exec i s = .next t) (herr : t.status.err ≠ .ok) :
    (i = .devchg ∧ ∃ code, t = devchgFail code s) ∨ ∃ code, t = raise code s := by
  cases i with
  | devchg => exact .inl ⟨rfl, execDevchg_of_error h herr⟩
  | update => exact .inr (execUpdate_of_error h herr)
  | process n nch => exact .inr (execProcess_of_error h herr)
  | setpWaveform | setpPhase | setpRate | setpDepth | setpFeedback | setpDelay =>
    simp only [exec, execSetpWaveform, execSetpPhase, execSetpRate, execSetpDepth, execSetpFeedback, execSetpDelay] at h
    exact .inr (setParam_of_error h herr)
  | reset | release | getpWaveform | getpPhase | getpRate | getpDepth | getpFeedback | getpDelay =>
    cases h
    exact absurd rfl herr

/-- Settles O54: `raise` writes ERR, and the failure of a DEVCHG writes STATUS. -/
theorem errorsChangeOnlyStatus : Obligations.ErrorsChangeOnlyStatus := by
  intro i s t h herr
  obtain ⟨hdevchg, code, rfl⟩ | ⟨code, rfl⟩ := exec_of_error h herr
  · exact ⟨rfl, fun hne => absurd hdevchg hne⟩
  · exact ⟨rfl, fun _ => rfl⟩

end Sys2Proof.Machine
end

section
/-!
SUPPORT. Proof of the statement of 70_reset_and_hazards.md on which commands may write which state (R241, with
10_state.md R22 and R36 and 20_memory.md R69).
-/
namespace Sys2Proof.Machine

open Sys2Proof.Safety

/-! ### What each command may write (R241) -/

/-- The state s with all that command i may write taken from u (R241). Of STATUS, RESET, RELEASE, DEVCHG and UPDATE may
write the flags too, every other command ERR alone. -/
def withWritesOf (i : Instr) (u s : State) : State :=
  let t := { s with status := setErr u.status.err s.status }
  match i with
  | .reset => { u with params := s.params, mem := s.mem, host := s.host, readLog := s.readLog }
  | .release => { s with dlLen := u.dlLen, status := u.status }
  | .devchg => { s with srate := u.srate, dlLen := u.dlLen, status := u.status, mem := u.mem }
  | .update => { s with
      baseDelay := u.baseDelay, depthS := u.depthS, feedbackRt := u.feedbackRt, cycleLen := u.cycleLen,
      lfoScale := u.lfoScale, phaseOff := u.phaseOff, waveRt := u.waveRt, gainRt0 := u.gainRt0, gainRt1 := u.gainRt1,
      status := u.status }
  | .process _ _ => { t with mem := u.mem, cursor := u.cursor }
  | .setpWaveform => { t with pWaveform := u.pWaveform }
  | .setpPhase => { t with pPhase := u.pPhase }
  | .setpRate => { t with pRate := u.pRate }
  | .setpDepth => { t with pDepth := u.pDepth }
  | .setpFeedback => { t with pFeedback := u.pFeedback }
  | .setpDelay => { t with pDelay := u.pDelay }
  | .getpWaveform | .getpPhase | .getpRate | .getpDepth | .getpFeedback | .getpDelay => { t with arg := u.arg }

theorem execDevchg_writes {s t : State} (h : execDevchg s = .next t) : t = withWritesOf .devchg t s := by
  rcases execDevchg_cases s with ⟨-, e⟩ | ⟨-, -, e⟩ | ⟨-, -, -, e⟩ | ⟨u, -, -, hsize, e⟩ <;> (rw [e] at h; cases h)
  · rfl
  · rfl
  · rfl
  · rw [resize_frame hsize]; rfl

theorem execUpdate_writes {s t : State} (h : execUpdate s = .next t) : t = withWritesOf .update t s := by
  rcases execUpdate_cases s with ⟨-, e⟩ | ⟨-, e⟩ <;> (rw [e] at h; cases h)
  · rfl
  · rw [translate_eq_withCoefficients]; rfl

theorem execProcess_writes {n nch : Nat} {s t : State} (h : execProcess n nch s = .next t) :
    t = withWritesOf (.process n nch) t s := by
  rcases execProcess_cases n nch s with ⟨-, e⟩ | ⟨-, -, e⟩ | ⟨-, -, ⟨wk, -, e⟩ | ⟨f, -, e⟩⟩ <;>
    (rw [e] at h; cases h)
  · rfl
  · rfl
  · rfl

/-- A SETP raises or stores (R190), so it writes what command i may if these two do. -/
theorem setParam_writes {i : Instr} {legal : Word → Bool} {store : Word → State → State} {s t : State}
    (h : setParam legal store s = .next t)
    (hraised : raise .invalidValue s = withWritesOf i (raise .invalidValue s) s)
    (hstored : succeed (store s.arg s) = withWritesOf i (succeed (store s.arg s)) s) : t = withWritesOf i t s := by
  rcases setParam_cases legal store s with ⟨-, e⟩ | ⟨-, e⟩ <;> (rw [e] at h; cases h)
  · exact hraised
  · exact hstored

/-- A command writes what it may write and nothing else. -/
theorem exec_writes {i : Instr} {s t : State} (h : exec i s = .next t) : t = withWritesOf i t s := by
  cases i with
  | devchg => exact execDevchg_writes h
  | update => exact execUpdate_writes h
  | process n nch => exact execProcess_writes h
  | setpWaveform | setpPhase | setpRate | setpDepth | setpFeedback | setpDelay =>
    simp only [exec, execSetpWaveform, execSetpPhase, execSetpRate, execSetpDepth, execSetpFeedback, execSetpDelay] at h
    exact setParam_writes h rfl rfl
  | reset | release | getpWaveform | getpPhase | getpRate | getpDepth | getpFeedback | getpDelay => cases h; rfl

/-! ### The bytes of IN (R69) -/

/-- PROCESS stores to OUT and DL only. -/
theorem outBase_le_of_processStores {s : State} {n nch a : Nat} (h : processStores s n nch a) : outBase ≤ a := by
  rcases h with ⟨line, j, -, -, hword, -⟩ | ⟨c, j, -, -, -, hword, -⟩
  · rw [dlAddr, dlBase] at hword
    rw [outBase]
    omega
  · rw [outAddr] at hword
    omega

theorem execDevchg_keeps_below_dl {s t : State} (h : execDevchg s = .next t) {a : Nat} (ha : a < dlBase) :
    byteAt t.mem a = byteAt s.mem a := by
  rcases execDevchg_cases s with ⟨-, e⟩ | ⟨-, -, e⟩ | ⟨-, -, -, e⟩ | ⟨u, -, -, hsize, e⟩ <;> (rw [e] at h; cases h)
  · rfl
  · exact byteAt_clearDl_outside (.inl ha) _
  · rfl
  · obtain ⟨-, rfl⟩ := resize_eq_some_iff.1 hsize
    exact (byteAt_clearDl_outside (.inl ha) _).trans (byteAt_clearDl_outside (.inl ha) _)

/-- Only the host writes IN: the bytes below OUT are the same after every command. -/
theorem exec_keeps_below_out {i : Instr} {s t : State} (h : exec i s = .next t) {a : Nat} (ha : a < outBase) :
    byteAt t.mem a = byteAt s.mem a := by
  cases i with
  | devchg => exact execDevchg_keeps_below_dl h (ha.trans (by decide))
  | process n nch =>
    obtain ⟨-, hframe, -⟩ := processFrame s t n nch h
    exact hframe a fun hstored => (outBase_le_of_processStores hstored).not_gt ha
  | reset | release | update | setpWaveform | setpPhase | setpRate | setpDepth | setpFeedback | setpDelay
  | getpWaveform | getpPhase | getpRate | getpDepth | getpFeedback | getpDelay => rw [exec_writes h]; rfl

/-! ### All commands -/

/-- Settles O55: each clause is read off what the command may write, and DEVCHG and PROCESS store above IN. -/
theorem onlyNamedCommandsWrite : Obligations.OnlyNamedCommandsWrite := by
  intro i s t h
  have hin : ∀ a, inBase ≤ a → a < 0x3000 → byteAt t.mem a = byteAt s.mem a :=
    fun _ _ ha => exec_keeps_below_out h (ha.trans (by decide))
  obtain ⟨u, rfl⟩ : ∃ u, t = withWritesOf i u s := ⟨t, exec_writes h⟩
  cases i with
  | devchg | process => simpa [withWritesOf] using hin
  | reset | release | update | setpWaveform | setpPhase | setpRate | setpDepth | setpFeedback | setpDelay
  | getpWaveform | getpPhase | getpRate | getpDepth | getpFeedback | getpDelay => simp [withWritesOf]

end Sys2Proof.Machine
end
